-- ==== Sys2Proof/Word.lean ====
section
/-! DEFINITION. The fixed widths of CWM-CORE: the 64-bit register and command word, and the 8-bit plane sample
(00_scope.md R9, R10, R11). -/

namespace Sys2Proof

/-- A register or command word: REGW = 64 bits (R10). A float register holds a binary64 pattern in one (R15). -/
abbrev Word := BitVec 64

/-- A plane sample: SAMPW = 8 bits, unsigned (R9, R70). -/
abbrev Byte := BitVec 8

end Sys2Proof
end

