-- ==== Sys2Proof/Syntax.lean ====
section
/-! DEFINITION. The 18 commands of CWM-CORE, one constructor for each row of spec/opcode_table.json
(30_encoding.md R103, in the table's order). -/

namespace Sys2Proof

/-- A command, as R107 writes it: a mnemonic and, for SEEK alone, one unsigned operand. -/
inductive Instr where
  | nop
  | check
  /-- The operand is the block index `imm24`; `WellFormed` says which numbers fit it (R102, R107). -/
  | seek (imm : Nat)
  | next
  | srst
  | bld
  | bst
  | bitld
  | bitst
  | fdct
  | idct
  | dgen
  | qemb
  | qext
  | embblk
  | extblk
  | emball
  | extall
deriving DecidableEq, Repr

end Sys2Proof
end

