-- ==== Sys2Proof/WellFormed.lean ====
section
/-! DEFINITION. Which terms of `Instr` have an encoding: the operand of SEEK lies in 0 .. 16777215
(30_encoding.md R102, R107); every other command has no operand. -/

namespace Sys2Proof

/-- R107: SEEK takes "one unsigned decimal or 0x hexadecimal operand in 0 .. 16777215". -/
def wellFormed (i : Instr) : Bool :=
  match i with
  | .nop => true
  | .check => true
  | .seek imm => decide (imm < 2 ^ 24)
  | .next => true
  | .srst => true
  | .bld => true
  | .bst => true
  | .bitld => true
  | .bitst => true
  | .fdct => true
  | .idct => true
  | .dgen => true
  | .qemb => true
  | .qext => true
  | .embblk => true
  | .extblk => true
  | .emball => true
  | .extall => true

/-- The command has an encoding. -/
abbrev WellFormed (i : Instr) : Prop := wellFormed i = true

end Sys2Proof
end

