-- ==== Sys2Proof/Decode.lean ====
section
/-! DEFINITION. Decoding a 64-bit command word (30_encoding.md R101, R102, R104, R105), and the encoder written from
the same table (R101, R103). -/

namespace Sys2Proof

/-- Why a word is R104's `Illegal`. All of these raise IllegalCommand (R105, R229); the names tell the cases apart.
Raised by `decode` and `decodeBytes`; safe, since R104 refuses exactly these words. -/
inductive DecodeError where
  /-- `zero32`, bits 63:32, is not zero. -/
  | reservedHigh
  /-- `zero24`, bits 31:8 of a format N word, is not zero. -/
  | reservedMiddle
  /-- No command has this opcode (R105's list of unassigned opcodes). -/
  | unassignedOpcode (op : BitVec 8)
  /-- A command is 64 bits, so not a list of any other number of bytes than eight (R100, R106). -/
  | notEightBytes
deriving DecidableEq, Repr

/-- `op = word[7:0]` (R101). -/
def opField (w : Word) : BitVec 8 := w.extractLsb' 0 8

/-- `imm24` or `zero24 = word[31:8]` (R101). -/
def midField (w : Word) : BitVec 24 := w.extractLsb' 8 24

/-- `zero32 = word[63:32]` (R101). -/
def highField (w : Word) : BitVec 32 := w.extractLsb' 32 32

/-- The format N opcodes (R103, R104); R105 lists the values that have none. -/
def formatNCommand (op : BitVec 8) : Except DecodeError Instr :=
  match op with
  | 0x00#8 => .ok .nop
  | 0x01#8 => .ok .check
  | 0x03#8 => .ok .next
  | 0x0F#8 => .ok .srst
  | 0x10#8 => .ok .bld
  | 0x11#8 => .ok .bst
  | 0x12#8 => .ok .bitld
  | 0x13#8 => .ok .bitst
  | 0x20#8 => .ok .fdct
  | 0x21#8 => .ok .idct
  | 0x30#8 => .ok .dgen
  | 0x40#8 => .ok .qemb
  | 0x41#8 => .ok .qext
  | 0x50#8 => .ok .embblk
  | 0x51#8 => .ok .extblk
  | 0x58#8 => .ok .emball
  | 0x59#8 => .ok .extall
  | _ => .error (.unassignedOpcode op)

/-- R104: decoding, a total function of the 64-bit word. -/
def decode (w : Word) : Except DecodeError Instr :=
  if highField w ≠ 0 then .error .reservedHigh
  else if opField w = 0x02#8 then .ok (.seek (midField w).toNat)
  else if midField w ≠ 0 then .error .reservedMiddle
  else formatNCommand (opField w)

/-- A word as bytes, bits 7:0 at the lowest address (20_memory.md R73 (a)). -/
def wordBytes (w : Word) : List Byte :=
  [w.extractLsb' 0 8, w.extractLsb' 8 8, w.extractLsb' 16 8, w.extractLsb' 24 8,
   w.extractLsb' 32 8, w.extractLsb' 40 8, w.extractLsb' 48 8, w.extractLsb' 56 8]

/-- The command in a list of bytes, lowest address first (R73 (a)): exactly eight bytes make a word (R100, R106). -/
def decodeBytes (bytes : List Byte) : Except DecodeError Instr :=
  match bytes with
  | [b0, b1, b2, b3, b4, b5, b6, b7] => decode (b7 ++ b6 ++ b5 ++ b4 ++ b3 ++ b2 ++ b1 ++ b0)
  | _ => .error .notEightBytes

/-- The instruction the decoder reads from the `nbits` bits `w`, numbered as spec/opcode_table.json numbers them
(bit 0 least significant); the bits from `nbits` up to the word's 64 are zero. -/
def decodeTableWord (nbits w : Nat) : Option Instr :=
  (decodeBytes (wordBytes (BitVec.ofNat 64 (w % 2 ^ nbits)))).toOption

/-- A format N word: the opcode, all other bits zero (R101). -/
def formatN (op : BitVec 8) : Word := 0#32 ++ (0#24 ++ op)

/-- A format I word: the opcode and `imm24` (R101). -/
def formatI (op : BitVec 8) (imm : BitVec 24) : Word := 0#32 ++ (imm ++ op)

/-- The command word of an instruction (R101, R103). -/
def encode (i : Instr) : Word :=
  match i with
  | .nop => formatN 0x00#8
  | .check => formatN 0x01#8
  | .seek imm => formatI 0x02#8 (BitVec.ofNat 24 imm)
  | .next => formatN 0x03#8
  | .srst => formatN 0x0F#8
  | .bld => formatN 0x10#8
  | .bst => formatN 0x11#8
  | .bitld => formatN 0x12#8
  | .bitst => formatN 0x13#8
  | .fdct => formatN 0x20#8
  | .idct => formatN 0x21#8
  | .dgen => formatN 0x30#8
  | .qemb => formatN 0x40#8
  | .qext => formatN 0x41#8
  | .embblk => formatN 0x50#8
  | .extblk => formatN 0x51#8
  | .emball => formatN 0x58#8
  | .extall => formatN 0x59#8

/-- The one word FAULTED obeys, `0x000000000000000F` (R100, R214, R241). -/
def srstWord : Word := 0x000000000000000F#64

/-- R107: a command as the spec writes it, the mnemonic and SEEK's operand in decimal. -/
def assemblyText (i : Instr) : String :=
  match i with
  | .nop => "NOP"
  | .check => "CHECK"
  | .seek imm => "SEEK " ++ Nat.repr imm
  | .next => "NEXT"
  | .srst => "SRST"
  | .bld => "BLD"
  | .bst => "BST"
  | .bitld => "BITLD"
  | .bitst => "BITST"
  | .fdct => "FDCT"
  | .idct => "IDCT"
  | .dgen => "DGEN"
  | .qemb => "QEMB"
  | .qext => "QEXT"
  | .embblk => "EMBBLK"
  | .extblk => "EXTBLK"
  | .emball => "EMBALL"
  | .extall => "EXTALL"

/-- R108: the pseudo-command REWIND. -/
def rewindCommand : Instr := .seek 0

/-- R108: the pseudo-command RESET. -/
def resetCommand : Instr := .srst

end Sys2Proof
end

