-- ==== Sys2Proof/Machine/Float64.lean ====
section
/-! DEFINITION. The binary64 arithmetic of the engine (00_scope.md R15 to R19): values, patterns, and the primitive
operations, each exact on integers and rounded once. -/

namespace Sys2Proof.Machine

/-- A binary64 datum as a value (R15). `fin neg mag` is ±mag · 2^-1074: every finite binary64 value is a whole
multiple of the least subnormal, so sums are sums of integers. There is one `nan`, for no rule distinguishes two
(R17); a pattern is chosen only where a NaN is stored (`pack`). -/
inductive F64 where
  | nan
  | inf (neg : Bool)
  | fin (neg : Bool) (mag : Nat)
deriving DecidableEq, Repr

/-- One is `2 ^ 1074` least subnormals. Marked irreducible so that no proof counts up to it by accident; the kernel
evaluates it. -/
@[irreducible] def unitExp : Nat := 1074

/-- One, in least subnormals (a shift, for Lean evaluates it without counting up to it). -/
def unit : Nat := 1 <<< unitExp

/-- The least magnitude that is too large for binary64 is 2^1024, which is 2^2098 least subnormals. -/
def overflowExp : Nat := 2098

/-- The magnitude is that of a finite binary64 value: at most 53 significant bits, below 2^1024. -/
abbrev magRepresentable (mag : Nat) : Prop :=
  2 ^ (Nat.log2 mag - 52) ∣ mag ∧ Nat.log2 mag < overflowExp

/-- The value is one a pattern has; every rule's results are (`unpack` and the rounding produce no other). -/
def F64.representable (x : F64) : Prop :=
  match x with
  | .nan => True
  | .inf _ => True
  | .fin _ mag => magRepresentable mag

/-- The value of a pattern (R15): sign bit 63, exponent 62:52, fraction 51:0. -/
def unpack (w : Word) : F64 :=
  let neg := w.getLsbD 63
  let exponent := (w.extractLsb' 52 11).toNat
  let fraction := (w.extractLsb' 0 52).toNat
  if exponent = 2047 then
    if fraction = 0 then .inf neg else .nan
  else if exponent = 0 then .fin neg fraction
  else .fin neg ((2 ^ 52 + fraction) <<< (exponent - 1))

/-- Bits 62:0 of a representable magnitude: below 2^52 a zero or subnormal, whose exponent field is 0; else
(2^52 + fraction) · 2^(exponent − 1). -/
def magBits (mag : Nat) : Nat :=
  if mag < 2 ^ 52 then mag
  else
    let exponent := Nat.log2 mag - 51
    exponent <<< 52 + ((mag >>> (exponent - 1)) - 2 ^ 52)

/-- Bits 62:0 with the sign bit before them. -/
def signed (neg : Bool) (low : BitVec 63) : Word := BitVec.ofBool neg ++ low

/-- A NaN pattern made of an arbitrary word: exponent all ones, fraction not zero (R17). Every NaN pattern is the
`nanPattern` of itself. -/
def nanPattern (w : Word) : Word :=
  let v := w ||| 0x7FF0000000000000#64
  if v.extractLsb' 0 52 = 0 then v ||| 0x0008000000000000#64 else v

/-- The pattern of a value; `any` supplies the pattern of a NaN, which R17 leaves open. -/
def pack (any : Word) (x : F64) : Word :=
  match x with
  | .nan => nanPattern any
  | .inf neg => signed neg 0x7FF0000000000000#63
  | .fin neg mag => signed neg (BitVec.ofNat 63 (magBits mag))

/-- roundTiesToEven (R16): the binary64 value nearest to ±(num / 2^d), counted in least subnormals; a tie goes to the
even last fraction bit, overflow to an infinity, underflow is gradual. -/
def roundNearest (neg : Bool) (num d : Nat) : F64 :=
  let s := max d (Nat.log2 num - 52)
  let q := num >>> s
  let ulp := 1 <<< s
  let twice := 2 * (num % ulp)
  let up := decide (ulp < twice) || (decide (ulp = twice) && decide (q % 2 = 1))
  let mag := (if up then q + 1 else q) <<< (s - d)
  if overflowExp ≤ Nat.log2 mag then .inf neg else .fin neg mag

/-- R16 `fneg`: the sign bit inverted. -/
def fneg (a : F64) : F64 :=
  match a with
  | .nan => .nan
  | .inf neg => .inf (!neg)
  | .fin neg mag => .fin (!neg) mag

/-- R16 `fabs`: the sign bit cleared. -/
def fabs (a : F64) : F64 :=
  match a with
  | .nan => .nan
  | .inf _ => .inf false
  | .fin _ mag => .fin false mag

/-- R16 `isnan`. -/
def isNaN (a : F64) : Bool :=
  match a with
  | .nan => true
  | .inf _ => false
  | .fin _ _ => false

/-- The signed count of least subnormals of a finite value. -/
def signedMag (neg : Bool) (mag : Nat) : Int := if neg then -(mag : Int) else mag

/-- R16 `fadd`: the exact sum rounded once. An exact zero sum of values of unlike sign is +0. -/
def fadd (a b : F64) : F64 :=
  match a, b with
  | .nan, _ => .nan
  | _, .nan => .nan
  | .inf na, .inf nb => if na = nb then .inf na else .nan
  | .inf na, .fin _ _ => .inf na
  | .fin _ _, .inf nb => .inf nb
  | .fin na x, .fin nb y =>
    if na = nb then roundNearest na (x + y) 0
    else if x = y then .fin false 0
    else if y < x then roundNearest na (x - y) 0
    else roundNearest nb (y - x) 0

/-- R16 `fsub`: the exact difference rounded once. -/
def fsub (a b : F64) : F64 := fadd a (fneg b)

/-- R16 `fmul`: the exact product rounded once; 0 × infinity is a NaN (R17). -/
def fmul (a b : F64) : F64 :=
  match a, b with
  | .nan, _ => .nan
  | _, .nan => .nan
  | .inf na, .inf nb => .inf (na ^^ nb)
  | .inf na, .fin nb y => if y = 0 then .nan else .inf (na ^^ nb)
  | .fin na x, .inf nb => if x = 0 then .nan else .inf (na ^^ nb)
  | .fin na x, .fin nb y => roundNearest (na ^^ nb) (x * y) unitExp

/-- R16 `fdiv`: the exact quotient rounded once. The quotient is taken to two bits below the least subnormal and a
third bit says whether anything remains, which is all the rounding asks of it. x ÷ 0 is an infinity, 0 ÷ 0 and
infinity ÷ infinity are NaNs (R17). -/
def fdiv (a b : F64) : F64 :=
  match a, b with
  | .nan, _ => .nan
  | _, .nan => .nan
  | .inf _, .inf _ => .nan
  | .inf na, .fin nb _ => .inf (na ^^ nb)
  | .fin na _, .inf nb => .fin (na ^^ nb) 0
  | .fin na x, .fin nb y =>
    if y = 0 then
      if x = 0 then .nan else .inf (na ^^ nb)
    else
      let num := x <<< (unitExp + 2)
      roundNearest (na ^^ nb) (2 * (num / y) + (if num % y = 0 then 0 else 1)) 3

/-- R16 `ffloor`: the largest integral value not greater than the operand; exact. -/
def ffloor (a : F64) : F64 :=
  match a with
  | .nan => .nan
  | .inf neg => .inf neg
  | .fin neg mag =>
    let whole := mag / unit
    if neg && decide (mag % unit ≠ 0) then .fin neg ((whole + 1) * unit)
    else .fin neg (whole * unit)

/-- R16 `flt`: a < b, false when either is a NaN; the two zeros are equal. -/
def flt (a b : F64) : Bool :=
  match a, b with
  | .nan, _ => false
  | _, .nan => false
  | .inf na, .inf nb => na && !nb
  | .inf na, .fin _ _ => na
  | .fin _ _, .inf nb => !nb
  | .fin na x, .fin nb y => decide (signedMag na x < signedMag nb y)

/-- R16 `fgt`: a > b, false when either is a NaN. -/
def fgt (a b : F64) : Bool := flt b a

/-- The integer `n` as a value; exact below 2^53. -/
def ofInteger (n : Nat) : F64 := .fin false (n * unit)

/-- R16, 41_blockgrid.md R123 `cvt_u8`: the pattern of the value equal to the sample; exact, no level shift. -/
def cvtU8 (s : Byte) : Word := pack 0 (ofInteger s.toNat)

/-- 41_blockgrid.md R126: ⌊X + 1/2⌋ for the exact real value X of ±mag · 2^-1074. -/
def floorPlusHalf (neg : Bool) (mag : Nat) : Int :=
  (2 * signedMag neg mag + unit) / (2 * unit)

/-- 41_blockgrid.md R126 `ToByte`: to nearest, ties toward +infinity, then clamped; a NaN gives 0. -/
def toByte (x : F64) : Byte :=
  match x with
  | .nan => 0
  | .inf neg => if neg then 0 else 255
  | .fin neg mag =>
    let n := floorPlusHalf neg mag
    if n < 0 then 0
    else if 255 < n then 255
    else BitVec.ofNat 8 n.toNat

/-- R19: 0.5. -/
def half : F64 := unpack 0x3FE0000000000000#64

/-- R19: 0.0625 = 1/16, INV_SCALE (R9). -/
def sixteenth : F64 := unpack 0x3FB0000000000000#64

/-- R19: 10.0, THR_DIV (R9). -/
def ten : F64 := unpack 0x4024000000000000#64

/-- +0.0. -/
def zero : F64 := unpack 0#64

/-- R19: 2^-53. -/
def twoPowMinus53 : F64 := unpack 0x3CA0000000000000#64

end Sys2Proof.Machine
end

