-- ==== Sys2Proof/Config.lean ====
section
/-! DEFINITION. What an implementation of CWM-CORE fixes (its one open parameter MAXBLK, R10) and the values the
spec leaves open, as constants without a body (93_implementation_defined.md U1 to U6). -/

namespace Sys2Proof

/-- The open parameter of the spec: `maxBlk` is MAXBLK, the capacity in blocks (R10, R51, U13). PLANE has
`64 * maxBlk` cells and BITMEM `12 * maxBlk`. -/
structure Config where
  maxBlk : Nat
deriving DecidableEq, Repr

/-- R10's reference value, MAXBLK = 4096. -/
def Config.reference : Config := { maxBlk := 4096 }

/-- R10: 1 ≤ MAXBLK ≤ 2^24 − 1. -/
abbrev Config.legal (c : Config) : Prop := 1 ≤ c.maxBlk ∧ c.maxBlk ≤ 2 ^ 24 - 1

/-- The n-th unspecified 64-bit value: what a read of invalid storage answers (U1, U2, U3), what a reset leaves in
BLK, BITS and DTH (R54, R214), and the pattern of a NaN an operation produces (R17, U6). -/
opaque Config.freeWord : Nat → Word

/-- U4: the power-on content of PLANE cell `a`, any value, fixed per cell (R78). -/
opaque Config.initialPlane : Nat → Byte

/-- U4: the power-on content of BITMEM cell `i`, any value, fixed per cell (R78). -/
opaque Config.initialBit : Nat → Bool

end Sys2Proof
end

