-- ==== Sys2Proof/Machine/State.lean ====
section
/-! DEFINITION. The state of CWM-CORE and of the system around it (10_state.md R30), as plain data, and the state
after reset (R54). -/

namespace Sys2Proof.Machine

/-- The six command errors (60_exceptions.md R225). -/
inductive CommandError where
  | dimensionMismatch
  | payloadLengthMismatch
  | invalidGridIndex
  | illegalCommand
  | notReady
  | badStep
deriving DecidableEq, Repr

/-- How wide an access to the register interface is. Only the 64-bit one exists (R49); the others are refused (U7). -/
inductive AccessWidth where
  | byte
  | half
  | word
  | dword
deriving DecidableEq, Repr

/-- One host action, the unit of a model step (00_scope.md R8): a register write or read at an offset in the 1 KiB
window (R49), a host access to one cell of PLANE or BITMEM (R51), or the reset input (70_reset_and_hazards.md R255).
A command issue is a write to CMD, offset 0x000 (R48). -/
inductive HostAction where
  | writeReg (width : AccessWidth) (offset : BitVec 10) (value : Word)
  | readReg (width : AccessWidth) (offset : BitVec 10)
  | writePlane (address : Nat) (value : Byte)
  | readPlane (address : Nat)
  | writeBit (address : Nat) (value : Bool)
  | readBit (address : Nat)
  | resetLine
deriving DecidableEq, Repr

/-- One dither pair: `lo` for bit 0, `hi` for bit 1, each a binary64 pattern (R43). -/
structure DitherPair where
  lo : Word
  hi : Word
deriving DecidableEq, Repr

/-- The state. The first group is the engine's (R30), the second the two memories (R51), the third the model's own:
the parameter MAXBLK (R10), the host actions still to come, the value the last host read answered, and the counter
of free values used. -/
structure State where
  /-- WIDTH (R31). -/
  width : BitVec 16
  /-- HEIGHT (R31). -/
  height : BitVec 16
  /-- BITLEN (R32). -/
  bitLen : BitVec 32
  /-- KEY (R34). -/
  key : Word
  /-- STEP, a binary64 pattern (R35). -/
  stepSize : Word
  /-- CTRL bit 0, IE (R36). -/
  ie : Bool
  /-- BIDX, the cursor (R37, R38). -/
  bidx : BitVec 32
  /-- BLK[0..63], binary64 patterns (R39). -/
  blk : Vector Word 64
  /-- BLKV[0..63] (R40). -/
  blkv : Vector Bool 64
  /-- BITS (R41). -/
  bits : BitVec 12
  /-- GV (R42). -/
  gv : Bool
  /-- DTH[0..11] (R43). -/
  dth : Vector DitherPair 12
  /-- DV (R44). -/
  dv : Bool
  /-- FAULT (R46). -/
  fault : Bool
  /-- ERR (R46). -/
  err : BitVec 8
  /-- ERRINFO (R47). -/
  errInfo : Word
  /-- PLANE: the cells written since power-on, addresses strictly rising (R51, R70). -/
  plane : List Host.Cell
  /-- BITMEM: the cells written since power-on, addresses strictly rising (R51, R71). -/
  bitmem : List (Nat × Bool)
  /-- MAXBLK (R10); no step changes it (R53). -/
  cfg : Config
  /-- The host's actions still to come, the next one first (R8). -/
  inputs : List HostAction
  /-- What the latest host read answered, zero-extended to 64 bits (R49). -/
  hostData : Word
  /-- How many free values have been used so far. -/
  freeCtr : Nat
deriving DecidableEq, Repr

/-- Why the machine stops with a fault. No command does: every error of a command is an entry into FAULTED
(R232, R240), which is a next state. -/
inductive Fault where
  /-- Raised by a host access to PLANE at an address ≥ 64·MAXBLK, which does not exist (R51, U9). Safe: the spec
  takes such an access out of every run. -/
  | planeAddress (address : Nat)
  /-- Raised by a host access to BITMEM at an address ≥ 12·MAXBLK, which does not exist (R51, U9). Safe, likewise. -/
  | bitAddress (address : Nat)
deriving DecidableEq, Repr

/-- Why the machine refuses an action. -/
inductive Refusal where
  /-- Raised by `exec`'s arm of an instruction without a meaning; no arm of this model raises it. Safe. -/
  | notModelled (mnemonic : String)
  /-- Raised by a host register access that is not a naturally aligned 64-bit one: it "has no meaning in this spec
  (a model refuses it)" (R49, U7). Safe. -/
  | registerAccess (width : AccessWidth) (offset : BitVec 10)
deriving DecidableEq, Repr

/-- The state after reset (R54): every field R54 gives a value has that value; BLK, BITS and DTH, which it leaves
unspecified, are zero (DESIGN CHOICE, log entry 1), with every valid flag clear; no memory cell has been written; the
host has no action pending and has read nothing (log entry 2); MAXBLK is the reference value (log entry 3). -/
def State.reset : State where
  width := 0
  height := 0
  bitLen := 0
  key := 0
  stepSize := 0
  ie := false
  bidx := 0
  blk := Vector.replicate 64 0
  blkv := Vector.replicate 64 false
  bits := 0
  gv := false
  dth := Vector.replicate 12 { lo := 0, hi := 0 }
  dv := false
  fault := false
  err := 0
  errInfo := 0
  plane := []
  bitmem := []
  cfg := Config.reference
  inputs := []
  hostData := 0
  freeCtr := 0

end Sys2Proof.Machine
end

