-- ==== Sys2Proof/Machine/Operands.lean ====
section
/-! DEFINITION. The operand forms of CWM-CORE: the addressing modes of PLANE and BITMEM (20_memory.md R71, R72,
41_blockgrid.md R121), the coefficient mask (44_qim.md R176), and the register map (10_state.md R49, R50). -/

namespace Sys2Proof.Machine

/-- `W div 8`, the number of blocks in a block row (R72). -/
def nbx (width : BitVec 16) : Nat := width.toNat / 8

/-- R33: NBLK = (WIDTH div 8) × (HEIGHT div 8), defined for every width and height. -/
def blockCount (width height : BitVec 16) : Nat := (width.toNat / 8) * (height.toNat / 8)

/-- R72, R121 `PAddr(b, i)`: the PLANE address of element `i = 8r + c` of block `b` in a plane `w` samples wide. -/
def planeAddr (w b i : Nat) : Nat :=
  let n := w / 8
  let bx := b % n
  let byRow := b / n
  let r := i / 8
  let c := i % 8
  (8 * byRow + r) * w + 8 * bx + c

/-- R71, R121 `BAddr(b, k)`: the BITMEM address of bit `k` of group `b`. -/
def bitAddr (b k : Nat) : Nat := 12 * b + k

/-- R9, R176 MASK: the flat index of slot `k`, ascending. -/
def maskIndex (k : Fin 12) : Fin 64 :=
  (#v[4, 5, 6, 7, 11, 12, 13, 14, 15, 18, 19, 20] : Vector (Fin 64) 12)[k]

/-- The slot of a flat index, for the twelve that have one (R176). -/
def maskSlot (i : Fin 64) : Option (Fin 12) := (List.finRange 12).find? fun k => decide (maskIndex k = i)

/-- A register of the map (R50). -/
inductive RegName where
  | cmd
  | status
  | errInfo
  | ctrl
  | width
  | height
  | bitLen
  | bidx
  | nblk
  | key
  | stepSize
  | bits
  | dthLo (k : Fin 12)
  | dthHi (k : Fin 12)
  | blk (i : Fin 64)
  | reserved
deriving DecidableEq, Repr

/-- The registers below the DTH window, by offset (R50). -/
def lowRegister (offset : Nat) : RegName :=
  match offset with
  | 0x000 => .cmd
  | 0x008 => .status
  | 0x010 => .errInfo
  | 0x018 => .ctrl
  | 0x020 => .width
  | 0x028 => .height
  | 0x030 => .bitLen
  | 0x038 => .bidx
  | 0x040 => .nblk
  | 0x048 => .key
  | 0x050 => .stepSize
  | 0x058 => .bits
  | _ => .reserved

/-- R50: the register at an offset of the window. The DTH window is 0x100 to 0x1BF, the BLK window 0x200 to 0x3FF;
what the map does not list is reserved. -/
def registerAt (offset : BitVec 10) : RegName :=
  if h : 0x200 ≤ offset.toNat then .blk ⟨(offset.toNat - 0x200) / 8, by have := offset.isLt; omega⟩
  else if h' : 0x100 ≤ offset.toNat ∧ offset.toNat < 0x1C0 then
    if offset.toNat % 16 < 8 then .dthLo ⟨(offset.toNat - 0x100) / 16, by omega⟩
    else .dthHi ⟨(offset.toNat - 0x100) / 16, by omega⟩
  else lowRegister offset.toNat

/-- R49: the accesses the register interface has: 64 bits wide, at a multiple of 8. -/
def registerAccessOK (width : AccessWidth) (offset : BitVec 10) : Bool :=
  decide (width = .dword) && decide (offset.toNat % 8 = 0)

/-- The offset of CMD (R48). -/
def cmdOffset : BitVec 10 := 0x000#10

end Sys2Proof.Machine
end

