-- ==== Sys2Proof/Machine/Flags.lean ====
section
/-! DEFINITION. The predicates the commands test (41_blockgrid.md R120, 43_dither.md R161, 45_pipeline.md R199), the
valid flag BV (10_state.md R40), the STATUS view (R46) and the interrupt line (60_exceptions.md R236). The engine has
no arithmetic condition codes (R46). -/

namespace Sys2Proof.Machine

/-- NBLK of the present WIDTH and HEIGHT (R33). -/
def State.nblk (s : State) : Nat := blockCount s.width s.height

/-- R120 DimsOK: W mod 8 = 0 and H mod 8 = 0 and NBLK ≤ MAXBLK. -/
def State.dimsOK (s : State) : Bool :=
  decide (s.width.toNat % 8 = 0) && decide (s.height.toNat % 8 = 0) && decide (s.nblk ≤ s.cfg.maxBlk)

/-- R120 IdxOK: BIDX < NBLK. -/
def State.idxOK (s : State) : Bool := decide (s.bidx.toNat < s.nblk)

/-- R120 GrpOK: 12·BIDX + 12 ≤ BITLEN. -/
def State.grpOK (s : State) : Bool := decide (12 * s.bidx.toNat + 12 ≤ s.bitLen.toNat)

/-- R199 LenOK: BITLEN = 12·NBLK. -/
def State.lenOK (s : State) : Bool := decide (s.bitLen.toNat = 12 * s.nblk)

/-- R161: the pattern is that of a finite value greater than zero. -/
def legalStep (w : Word) : Bool :=
  match unpack w with
  | .nan => false
  | .inf _ => false
  | .fin neg mag => !neg && decide (mag ≠ 0)

/-- R161 StepOK. -/
def State.stepOK (s : State) : Bool := legalStep s.stepSize

/-- R40 BV: all 64 bits of BLKV are 1. -/
def State.bv (s : State) : Bool := s.blkv.toList.all id

/-- R46: the STATUS view. Bit 0 FAULT, 1 DV, 2 GV, 3 BV, 15:8 ERR, the rest 0. -/
def State.status (s : State) : Word :=
  0#48 ++ (s.err ++ (0#4 ++ (BitVec.ofBool s.bv ++ (BitVec.ofBool s.gv ++
    (BitVec.ofBool s.dv ++ BitVec.ofBool s.fault)))))

/-- R236: IRQ = FAULT and CTRL.IE, a level. -/
def State.irq (s : State) : Bool := s.fault && s.ie

end Sys2Proof.Machine
end

