-- ==== Sys2Proof/Machine/Ops.lean ====
section
/-! DEFINITION. The named operations over memory and registers, raising an error (60_exceptions.md R232) and the reset
that is the only way back from one (R242, 70_reset_and_hazards.md R255), and the frame of every command (R14, R238,
R241). -/

namespace Sys2Proof.Machine

/-! ## The two memories -/

/-- The value of a written cell, `none` for a cell nobody has written since power-on (R78). -/
def cellAt {α : Type} (m : List (Nat × α)) (a : Nat) : Option α :=
  match m with
  | [] => none
  | (b, v) :: rest => if a = b then some v else cellAt rest a

/-- Write one cell, keeping the addresses strictly rising. -/
def setCell {α : Type} (m : List (Nat × α)) (a : Nat) (v : α) : List (Nat × α) :=
  match m with
  | [] => [(a, v)]
  | (b, u) :: rest =>
    if a < b then (a, v) :: (b, u) :: rest
    else if a = b then (a, v) :: rest
    else (b, u) :: setCell rest a v

/-- The canonical form: addresses strictly rising, so that equal memories are equal lists. An unlisted cell has no
value of its own (`cellAt` answers none), so no entry can repeat what an unlisted one holds. -/
abbrev Memory.wf {α : Type} (m : List (Nat × α)) : Prop := m.Pairwise fun x y => x.1 < y.1

/-- R13 `MemRead(PLANE, a, 1)`. A cell never written since power-on holds an unspecified value, fixed per cell (R78,
U4). -/
def readPlane (s : State) (a : Nat) : Byte := (cellAt s.plane a).getD (Config.initialPlane a)

/-- R13 `MemRead(BITMEM, i, 1)`; an unwritten cell as in `readPlane`. -/
def readBit (s : State) (i : Nat) : Bool := (cellAt s.bitmem i).getD (Config.initialBit i)

/-! ## Register updates: each changes what its name says and nothing else -/

def State.setWidth (s : State) (v : BitVec 16) : State := { s with width := v }

def State.setHeight (s : State) (v : BitVec 16) : State := { s with height := v }

def State.setBitLen (s : State) (v : BitVec 32) : State := { s with bitLen := v }

/-- R34, R45: a write to KEY clears DV, also when the value is the one held. -/
def State.setKey (s : State) (v : Word) : State := { s with key := v, dv := false }

/-- R35, R45: a write to STEP clears DV, also when the value is the one held. -/
def State.setStepSize (s : State) (v : Word) : State := { s with stepSize := v, dv := false }

/-- R36: CTRL keeps bit 0 alone. -/
def State.setIE (s : State) (v : Bool) : State := { s with ie := v }

def State.setBidx (s : State) (v : BitVec 32) : State := { s with bidx := v }

/-- R40: writing BLK[i] sets BLKV[i]. -/
def State.setBlkElement (s : State) (i : Fin 64) (v : Word) : State :=
  { s with blk := s.blk.set i v, blkv := s.blkv.set i true }

/-- R40: loading the whole block sets all 64 valid bits. -/
def State.loadBlk (s : State) (b : Vector Word 64) : State :=
  { s with blk := b, blkv := Vector.replicate 64 true }

/-- Replace the contents of BLK; the valid bits stay (R148, R149, R178). -/
def State.storeBlk (s : State) (b : Vector Word 64) : State := { s with blk := b }

/-- R42: a write to BITS sets GV. -/
def State.setBits (s : State) (v : BitVec 12) : State := { s with bits := v, gv := true }

/-- R44: a successful generation sets DV. -/
def State.setDither (s : State) (t : Vector DitherPair 12) : State := { s with dth := t, dv := true }

def State.setPlane (s : State) (m : List Host.Cell) : State := { s with plane := m }

def State.setBitmem (s : State) (m : List (Nat × Bool)) : State := { s with bitmem := m }

def State.setInputs (s : State) (l : List HostAction) : State := { s with inputs := l }

def State.setHostData (s : State) (v : Word) : State := { s with hostData := v }

/-- The model's own: `n` free values have been used. -/
def State.useFree (s : State) (n : Nat) : State := { s with freeCtr := s.freeCtr + n }

/-- R13 `MemWrite(PLANE, a, 1, v)`. -/
def State.writePlane (s : State) (a : Nat) (v : Byte) : State := s.setPlane (setCell s.plane a v)

/-- R13 `MemWrite(BITMEM, i, 1, v)`. -/
def State.writeBit (s : State) (i : Nat) (v : Bool) : State := s.setBitmem (setCell s.bitmem i v)

/-- R38: BIDX ← (BIDX + 1) mod 2^32. -/
def State.advance (s : State) : State := s.setBidx (s.bidx + 1)

/-! ## Raising an error, and leaving FAULTED -/

/-- R225: the code of an error, the value of STATUS.ERR after it. -/
def errorCode (e : CommandError) : BitVec 8 :=
  match e with
  | .dimensionMismatch => 1
  | .payloadLengthMismatch => 2
  | .invalidGridIndex => 3
  | .illegalCommand => 4
  | .notReady => 5
  | .badStep => 6

/-- R232 `raise E`: ERR, ERRINFO and FAULT are written and nothing else changes; there is no vector and nothing is
saved. -/
def raise (e : CommandError) (word : Word) (s : State) : State :=
  { s with err := errorCode e, errInfo := word, fault := true }

/-- How many free values a reset uses: 64 for BLK, 24 for DTH, one for BITS. -/
def resetFree : Nat := 89

/-- The unspecified BLK a reset leaves (R54). -/
@[irreducible] def freeBlock (ctr : Nat) : Vector Word 64 := Vector.ofFn fun i => Config.freeWord (ctr + i)

/-- The unspecified DTH a reset leaves (R54). -/
@[irreducible] def freeDither (ctr : Nat) : Vector DitherPair 12 :=
  Vector.ofFn fun k => { lo := Config.freeWord (ctr + 64 + 2 * k), hi := Config.freeWord (ctr + 65 + 2 * k) }

/-- R54, R255: the reset of the engine, by the reset line or by SRST. Every register R54 gives a value gets it, the
valid flags are cleared, BLK, DTH and BITS become unspecified, and the two memories are not touched. Nothing returns
from an error but this (R242). -/
def resetEngine (s : State) : State :=
  { s with
    width := 0, height := 0, bitLen := 0, key := 0, stepSize := 0, ie := false, bidx := 0
    blk := freeBlock s.freeCtr
    blkv := Vector.replicate 64 false
    dth := freeDither s.freeCtr
    dv := false
    bits := (Config.freeWord (s.freeCtr + 88)).setWidth 12
    gv := false
    fault := false, err := 0, errInfo := 0
    freeCtr := s.freeCtr + resetFree }

/-! ## The frame of a command -/

/-- R238: the first precondition in the list that does not hold decides the error. -/
def firstError (checks : List (Bool × CommandError)) : Option CommandError :=
  match checks with
  | [] => none
  | (holds, e) :: rest => if holds then firstError rest else some e

/-- Every command but SRST. In the FAULTED state it is dropped (R240, R241); in the READY state its preconditions are
tested in order before any effect (R14, R232, R238), and then `body` happens whole. -/
def runCommand (i : Instr) (checks : List (Bool × CommandError)) (body : State → State) (s : State) :
    Host.Outcome State Fault Refusal :=
  if s.fault then .next s
  else
    match firstError checks with
    | some e => .next (raise e (encode i) s)
    | none => .next (body s)

end Sys2Proof.Machine
end

