-- ==== Sys2Proof/Machine/Control.lean ====
section
/-! DEFINITION. The control commands NOP, CHECK, SEEK, NEXT and SRST (46_control.md). -/

namespace Sys2Proof.Machine

/-- R210 NOP: no state changes. -/
def execNop (s : State) : Host.Outcome State Fault Refusal := runCommand .nop [] id s

/-- R211 CHECK: the entry test of EMBALL and EXTALL; no state change. -/
def execCheck (s : State) : Host.Outcome State Fault Refusal :=
  runCommand .check
    [(s.dimsOK, .dimensionMismatch), (s.lenOK, .payloadLengthMismatch), (s.stepOK, .badStep)] id s

/-- R212 SEEK: BIDX ← zext_32(imm24), not compared with NBLK. -/
def seekBody (imm : Nat) (s : State) : State := s.setBidx (BitVec.ofNat 32 imm)

/-- R212 SEEK. -/
def execSeek (imm : Nat) (s : State) : Host.Outcome State Fault Refusal :=
  runCommand (.seek imm) [] (seekBody imm) s

/-- R213 NEXT: BIDX ← (BIDX + 1) mod 2^32. -/
def execNext (s : State) : Host.Outcome State Fault Refusal := runCommand .next [] State.advance s

/-- R214 SRST: the reset state, in READY and in FAULTED alike. -/
def execSrst (s : State) : Host.Outcome State Fault Refusal := .next (resetEngine s)

end Sys2Proof.Machine
end

