-- ==== Sys2Proof/Machine/BlockGrid.lean ====
section
/-! DEFINITION. The block grid commands BLD, BST, BITLD and BITST (41_blockgrid.md). -/

namespace Sys2Proof.Machine

/-- The PLANE address of element `i` of the block under the cursor (R121). -/
def State.blockAddr (s : State) (i : Nat) : Nat := planeAddr s.width.toNat s.bidx.toNat i

/-- The BITMEM address of bit `k` of the group under the cursor (R121). -/
def State.groupAddr (s : State) (k : Nat) : Nat := bitAddr s.bidx.toNat k

/-- R122: cvt_u8(PLANE[PAddr(BIDX, i)]) for each i. This and the other values a command computes are irreducible, so
that no proof runs them by accident when it compares two states; the laws give their elements. -/
@[irreducible] def State.loadedBlock (s : State) : Vector Word 64 :=
  Vector.ofFn fun i => cvtU8 (readPlane s (s.blockAddr i))

/-- R122, the effect of BLD: BLK is loaded and all valid bits are set. -/
def bldBody (s : State) : State := s.loadBlk s.loadedBlock

/-- R122 BLD. -/
def execBld (s : State) : Host.Outcome State Fault Refusal :=
  runCommand .bld [(s.dimsOK, .dimensionMismatch), (s.idxOK, .invalidGridIndex)] bldBody s

/-- R125: PLANE after PLANE[PAddr(BIDX, i)] ← ToByte(BLK[i]) for i = 0..63 in order (R76). -/
@[irreducible] def State.storedPlane (s : State) : List Host.Cell :=
  (List.finRange 64).foldl (fun m (i : Fin 64) => setCell m (s.blockAddr i) (toByte (unpack s.blk[i]))) s.plane

/-- R125, the effect of BST: PLANE is written, and nothing else. -/
def bstBody (s : State) : State := s.setPlane s.storedPlane

/-- R125 BST. -/
def execBst (s : State) : Host.Outcome State Fault Refusal :=
  runCommand .bst
    [(s.dimsOK, .dimensionMismatch), (s.idxOK, .invalidGridIndex), (s.bv, .notReady)] bstBody s

/-- R128: BITMEM[12·BIDX + k] for each k. -/
@[irreducible] def State.loadedGroup (s : State) : BitVec 12 :=
  BitVec.ofFnLE fun k : Fin 12 => readBit s (s.groupAddr k)

/-- R128, the effect of BITLD: BITS is loaded, GV ← 1. -/
def bitldBody (s : State) : State := s.setBits s.loadedGroup

/-- R128 BITLD. -/
def execBitld (s : State) : Host.Outcome State Fault Refusal :=
  runCommand .bitld
    [(s.dimsOK, .dimensionMismatch), (s.idxOK, .invalidGridIndex), (s.grpOK, .payloadLengthMismatch)] bitldBody s

/-- R129: BITMEM after BITMEM[12·BIDX + k] ← BITS[k] for k = 0..11 in order (R76). -/
@[irreducible] def State.storedBits (s : State) : List (Nat × Bool) :=
  (List.finRange 12).foldl (fun m (k : Fin 12) => setCell m (s.groupAddr k) (s.bits.getLsbD k)) s.bitmem

/-- R129, the effect of BITST: BITMEM is written, and nothing else. -/
def bitstBody (s : State) : State := s.setBitmem s.storedBits

/-- R129 BITST. -/
def execBitst (s : State) : Host.Outcome State Fault Refusal :=
  runCommand .bitst
    [(s.dimsOK, .dimensionMismatch), (s.idxOK, .invalidGridIndex), (s.grpOK, .payloadLengthMismatch),
      (s.gv, .notReady)] bitstBody s

end Sys2Proof.Machine
end

