-- ==== Sys2Proof/Machine/Dither.lean ====
section
/-! DEFINITION. The dither generator command DGEN (43_dither.md). -/

namespace Sys2Proof.Machine

/-- R162: the state after one step of SplitMix64. -/
def splitMixNext (s : Word) : Word := s + 0x9E3779B97F4A7C15#64

/-- R162: the output word of a step that ends in state `s`. -/
def splitMixOutput (s : Word) : Word :=
  let z1 := (s ^^^ (s >>> 30)) * 0xBF58476D1CE4E5B9#64
  let z2 := (z1 ^^^ (z1 >>> 27)) * 0x94D049BB133111EB#64
  z2 ^^^ (z2 >>> 31)

/-- The generator's state after `k` steps from KEY (R162: the state starts at KEY). -/
def splitMixState (key : Word) (k : Nat) : Word :=
  match k with
  | 0 => key
  | n + 1 => splitMixNext (splitMixState key n)

/-- R162: slot `k` uses the (k+1)-th output. -/
def ditherWord (key : Word) (k : Nat) : Word := splitMixOutput (splitMixState key (k + 1))

/-- R163 `DrawT(z, step)`: u = z >> 11, r = u·2^-53 exactly, t = fmul(fsub(r, 0.5), step). -/
def drawT (z : Word) (step : F64) : F64 :=
  fmul (fsub (fmul (ofInteger (z >>> 11).toNat) twoPowMinus53) half) step

/-- R160: the second member, (t, t − step/2) if t > 0, else (t, t + step/2). -/
def ditherHi (t step : F64) : F64 :=
  let halfStep := fmul step half
  if fgt t zero then fsub t halfStep else fadd t halfStep

/-- R160: the pair of slot `k`. For a legal step no member is a NaN, so the supplied pattern is not used (R164, log
entry 7). -/
def ditherPair (key stepSize : Word) (k : Nat) : DitherPair :=
  let step := unpack stepSize
  let t := drawT (ditherWord key k) step
  { lo := pack (Config.freeWord 0) t, hi := pack (Config.freeWord 0) (ditherHi t step) }

/-- R160, R165: the twelve pairs, a pure function of KEY and STEP. -/
@[irreducible] def ditherTable (key stepSize : Word) : Vector DitherPair 12 :=
  Vector.ofFn fun k => ditherPair key stepSize k

/-- R160, the effect of DGEN: DTH is written as a whole, DV ← 1. -/
def dgenBody (s : State) : State := s.setDither (ditherTable s.key s.stepSize)

/-- R160 DGEN. -/
def execDgen (s : State) : Host.Outcome State Fault Refusal :=
  runCommand .dgen [(s.stepOK, .badStep)] dgenBody s

end Sys2Proof.Machine
end

