-- ==== Sys2Proof/Machine/Quantizer.lean ====
section
/-! DEFINITION. The quantizer commands QEMB and QEXT (44_qim.md). -/

namespace Sys2Proof.Machine

/-- R177 `quantize(v, s)`: the magnitude to the nearest multiple of `s`, ties up, then the sign of `v`. -/
def quantize (v s : F64) : F64 :=
  let r := fmul s (ffloor (fadd (fdiv (fabs v) s) half))
  if flt v zero then fneg r else r

/-- R178: what a coefficient `c` becomes when dither `d` is embedded with step `s`. -/
def embedCoefficient (c d s : F64) : F64 := fsub (quantize (fadd c d) s) d

/-- R178: the dither a bit picks, hi for 1 and lo for 0. -/
def pickDither (p : DitherPair) (bit : Bool) : F64 := if bit then unpack p.hi else unpack p.lo

/-- R178: slot `k`'s new coefficient. -/
def State.embedded (s : State) (k : Fin 12) : F64 :=
  embedCoefficient (unpack s.blk[maskIndex k]) (pickDither s.dth[k] (s.bits.getLsbD k)) (unpack s.stepSize)

/-- R178: the twelve mask elements replaced, the 52 others as they are, bit for bit (R175, R184). An element that
becomes a NaN takes a free value (R17). -/
@[irreducible] def State.embeddedBlock (s : State) : Vector Word 64 :=
  Vector.ofFn fun i : Fin 64 =>
    match maskSlot i with
    | some k => pack (Config.freeWord (s.freeCtr + i)) (s.embedded k)
    | none => s.blk[i]

/-- R178, the effect of QEMB: BLK alone is written. -/
def qembBody (s : State) : State := (s.storeBlk s.embeddedBlock).useFree 64

/-- R178 QEMB. -/
def execQemb (s : State) : Host.Outcome State Fault Refusal :=
  runCommand .qemb [(s.dv && s.bv && s.gv, .notReady)] qembBody s

/-- R180: |quantize(probe, step) − probe| with probe = c + lo. -/
def probeDistance (c lo s : F64) : F64 :=
  let probe := fadd c lo
  fabs (fsub (quantize probe s) probe)

/-- R180: bit 0 if the distance is strictly below step/10, else bit 1; a NaN compares false, so it reads 1. -/
def extractBit (c lo s : F64) : Bool := !(flt (probeDistance c lo s) (fdiv s ten))

/-- R180: the bit slot `k` reads, from the lo member alone. -/
def State.extracted (s : State) (k : Fin 12) : Bool :=
  extractBit (unpack s.blk[maskIndex k]) (unpack s.dth[k].lo) (unpack s.stepSize)

/-- R180: the twelve bits. -/
@[irreducible] def State.extractedGroup (s : State) : BitVec 12 := BitVec.ofFnLE fun k : Fin 12 => s.extracted k

/-- R180, the effect of QEXT: BITS is written, GV ← 1; BLK is not changed. -/
def qextBody (s : State) : State := s.setBits s.extractedGroup

/-- R180 QEXT. -/
def execQext (s : State) : Host.Outcome State Fault Refusal :=
  runCommand .qext [(s.dv && s.bv, .notReady)] qextBody s

end Sys2Proof.Machine
end

