-- ==== Sys2Proof/Machine/Transform.lean ====
section
/-! DEFINITION. The transform commands FDCT and IDCT (42_dct.md), in the bit-exact reference datapath of R142 to
R146. -/

namespace Sys2Proof.Machine

/-- R142: cos(jπ/16) rounded to binary64, j = 0..7, by its pattern. -/
def cosPattern (j : Fin 8) : Word :=
  (#v[0x3FF0000000000000#64, 0x3FEF6297CFF75CB0#64, 0x3FED906BCF328D46#64, 0x3FEA9B66290EA1A3#64,
      0x3FE6A09E667F3BCD#64, 0x3FE1C73B39AE68C8#64, 0x3FD87DE2A6AEA963#64, 0x3FC8F8B83C69A60B#64] :
    Vector Word 8)[j]

/-- c[j] (R142), for j below 8. -/
def cosConst (j : Nat) : F64 := unpack (cosPattern (Fin.ofNat 8 j))

/-- R143: C[k][n] = cos(π(2n+1)k/16), from the table by j = ((2n+1)·k) mod 32; j = 8 and j = 24 never occur. -/
def coefficient (k n : Fin 8) : F64 :=
  let j := ((2 * n.val + 1) * k.val) % 32
  if j < 8 then cosConst j
  else if j ≤ 16 then fneg (cosConst (16 - j))
  else if j < 24 then fneg (cosConst (j - 16))
  else cosConst (32 - j)

/-- The indices 1..7, in order. -/
def oneToSeven : List (Fin 8) := [1, 2, 3, 4, 5, 6, 7]

/-- R144: X[k], the left-to-right sum of the products x[n]·C[k][n], each product and each sum rounded once. -/
def dct2Term (x : Vector F64 8) (k : Fin 8) : F64 :=
  oneToSeven.foldl (fun acc n => fadd acc (fmul x[n] (coefficient k n))) (fmul x[0] (coefficient k 0))

/-- R144 `dct2_8`. -/
def dct2 (x : Vector F64 8) : Vector F64 8 := Vector.ofFn (dct2Term x)

/-- R145: y[n], the left-to-right sum of X[0]·0.5 and the products X[k]·C[k][n]. -/
def dct3Term (x : Vector F64 8) (n : Fin 8) : F64 :=
  oneToSeven.foldl (fun acc k => fadd acc (fmul x[k] (coefficient k n))) (fmul x[0] half)

/-- R145 `dct3_8`. -/
def dct3 (x : Vector F64 8) : Vector F64 8 := Vector.ofFn (dct3Term x)

/-- The flat index 8r + c (R39). -/
def flatIndex (r c : Fin 8) : Fin 64 := ⟨8 * r.val + c.val, by omega⟩

/-- The row and the column of a flat index (R39). -/
def rowOf (i : Fin 64) : Fin 8 := ⟨i.val / 8, by omega⟩

def colOf (i : Fin 64) : Fin 8 := ⟨i.val % 8, by omega⟩

/-- Row `r` of a block. -/
def blockRow (b : Vector F64 64) (r : Fin 8) : Vector F64 8 := Vector.ofFn fun c => b[flatIndex r c]

/-- R146 `RowPass(f, B)`. -/
def rowPass (f : Vector F64 8 → Vector F64 8) (b : Vector F64 64) : Vector F64 64 :=
  let rows : Vector (Vector F64 8) 8 := Vector.ofFn fun r => f (blockRow b r)
  Vector.ofFn fun i => rows[rowOf i][colOf i]

/-- R146 `Transpose(B)`: B'[8r + c] ← B[8c + r]. -/
def transpose (b : Vector F64 64) : Vector F64 64 :=
  Vector.ofFn fun i => b[flatIndex (colOf i) (rowOf i)]

/-- The two passes with a transpose after each (R148, R149). -/
def twoPass (f : Vector F64 8 → Vector F64 8) (b : Vector F64 64) : Vector F64 64 :=
  transpose (rowPass f (transpose (rowPass f b)))

/-- R148 `forward2D` on a block. -/
def forward2D (b : Vector F64 64) : Vector F64 64 := twoPass dct2 b

/-- R149 `inverse2D` on a block: one scale by 1/16, after the final transpose. -/
def inverse2D (b : Vector F64 64) : Vector F64 64 :=
  let t := twoPass dct3 b
  Vector.ofFn fun i => fmul t[i] sixteenth

/-- The value BLK holds (R15, R39). -/
def State.block (s : State) : Vector F64 64 := Vector.ofFn fun i => unpack s.blk[i]

/-- The patterns of a computed block. Element `i` takes a free value of its own if it is a NaN (R17, U6). -/
@[irreducible] def packBlock (ctr : Nat) (b : Vector F64 64) : Vector Word 64 :=
  Vector.ofFn fun i => pack (Config.freeWord (ctr + i)) b[i]

/-- Store a computed block into BLK; the valid bits stay as they are. -/
def State.putBlock (s : State) (b : Vector F64 64) : State :=
  (s.storeBlk (packBlock s.freeCtr b)).useFree 64

/-- R148, the effect of FDCT. -/
def fdctBody (s : State) : State := s.putBlock (forward2D s.block)

/-- R148 FDCT. -/
def execFdct (s : State) : Host.Outcome State Fault Refusal :=
  runCommand .fdct [(s.bv, .notReady)] fdctBody s

/-- R149, the effect of IDCT. -/
def idctBody (s : State) : State := s.putBlock (inverse2D s.block)

/-- R149 IDCT. -/
def execIdct (s : State) : Host.Outcome State Fault Refusal :=
  runCommand .idct [(s.bv, .notReady)] idctBody s

end Sys2Proof.Machine
end

