-- ==== Sys2Proof/Machine/Pipeline.lean ====
section
/-! DEFINITION. The pipeline commands EMBBLK, EXTBLK, EMBALL and EXTALL (45_pipeline.md): chains of the effects of the
primitive commands (R199). -/

namespace Sys2Proof.Machine

/-- R195, the effect of EMBBLK: BLD, FDCT, BITLD, QEMB, IDCT, BST, then the cursor moves on. -/
def embblkBody (s : State) : State :=
  (bstBody (idctBody (qembBody (bitldBody (fdctBody (bldBody s)))))).advance

/-- R195 EMBBLK. -/
def execEmbblk (s : State) : Host.Outcome State Fault Refusal :=
  runCommand .embblk
    [(s.dimsOK, .dimensionMismatch), (s.idxOK, .invalidGridIndex), (s.grpOK, .payloadLengthMismatch),
      (s.dv, .notReady)] embblkBody s

/-- R196, the effect of EXTBLK: BLD, FDCT, QEXT, BITST, then the cursor moves on. -/
def extblkBody (s : State) : State := (bitstBody (qextBody (fdctBody (bldBody s)))).advance

/-- R196 EXTBLK. -/
def execExtblk (s : State) : Host.Outcome State Fault Refusal :=
  runCommand .extblk
    [(s.dimsOK, .dimensionMismatch), (s.idxOK, .invalidGridIndex), (s.grpOK, .payloadLengthMismatch),
      (s.dv, .notReady)] extblkBody s

/-- R197, R198: `while BIDX < NBLK: body`, at most `fuel` times round. -/
def whileBlocks (body : State → State) (fuel : Nat) (s : State) : State :=
  match fuel with
  | 0 => s
  | n + 1 => if s.idxOK then whileBlocks body n (body s) else s

/-- R197, R198: DGEN, BIDX ← 0, then `body` on every block; NBLK times round is enough, for each body adds 1 to
BIDX. -/
def allBlocks (body : State → State) (s : State) : State :=
  whileBlocks body s.nblk ((dgenBody s).setBidx 0)

/-- R197, the effect of EMBALL. -/
def emballBody (s : State) : State := allBlocks embblkBody s

/-- R197 EMBALL. -/
def execEmball (s : State) : Host.Outcome State Fault Refusal :=
  runCommand .emball
    [(s.dimsOK, .dimensionMismatch), (s.lenOK, .payloadLengthMismatch), (s.stepOK, .badStep)] emballBody s

/-- R198, the effect of EXTALL. -/
def extallBody (s : State) : State := allBlocks extblkBody s

/-- R198 EXTALL. -/
def execExtall (s : State) : Host.Outcome State Fault Refusal :=
  runCommand .extall
    [(s.dimsOK, .dimensionMismatch), (s.lenOK, .payloadLengthMismatch), (s.stepOK, .badStep)] extallBody s

end Sys2Proof.Machine
end

