-- ==== Sys2Proof/Machine/Dispatch.lean ====
section
/-! DEFINITION. The meaning of every command, one arm for each constructor of `Instr`. -/

namespace Sys2Proof.Machine

/-- One command, whole (R100, R232). -/
def exec (i : Instr) (s : State) : Host.Outcome State Fault Refusal :=
  match i with
  | .nop => Sys2Proof.Machine.execNop s
  | .check => Sys2Proof.Machine.execCheck s
  | .seek imm => Sys2Proof.Machine.execSeek imm s
  | .next => Sys2Proof.Machine.execNext s
  | .srst => Sys2Proof.Machine.execSrst s
  | .bld => Sys2Proof.Machine.execBld s
  | .bst => Sys2Proof.Machine.execBst s
  | .bitld => Sys2Proof.Machine.execBitld s
  | .bitst => Sys2Proof.Machine.execBitst s
  | .fdct => Sys2Proof.Machine.execFdct s
  | .idct => Sys2Proof.Machine.execIdct s
  | .dgen => Sys2Proof.Machine.execDgen s
  | .qemb => Sys2Proof.Machine.execQemb s
  | .qext => Sys2Proof.Machine.execQext s
  | .embblk => Sys2Proof.Machine.execEmbblk s
  | .extblk => Sys2Proof.Machine.execExtblk s
  | .emball => Sys2Proof.Machine.execEmball s
  | .extall => Sys2Proof.Machine.execExtall s

end Sys2Proof.Machine
end

