-- ==== Sys2Proof/Machine/HostPort.lean ====
section
/-! DEFINITION. What a host action does: register reads and writes (10_state.md R31 to R50), the command port
(30_encoding.md R100, 60_exceptions.md R241), host accesses to the memories (20_memory.md R80) and the reset input
(70_reset_and_hazards.md R255). -/

namespace Sys2Proof.Machine

/-- R100, R241: a word written to CMD. In FAULTED it is compared with SRST's and otherwise dropped, not decoded; in
READY it is decoded, and a word that is no command raises IllegalCommand (R229). -/
def issue (w : Word) (s : State) : Host.Outcome State Fault Refusal :=
  if s.fault then
    if w = srstWord then exec .srst s else .next s
  else
    match decode w with
    | .ok i => exec i s
    | .error _ => .next (raise .illegalCommand w s)

/-- R17: a host read of a float element answers its pattern, and for a NaN "some NaN pattern". -/
def readFloat (any w : Word) : Word := if isNaN (unpack w) then nanPattern any else w

/-- The 64-bit value a register reads as (R49, R50): CMD and reserved offsets read 0, a narrow register is
zero-extended, and storage whose valid flag is clear reads as a free value (R40, R42, R44, U1, U2, U3). -/
def registerValue (r : RegName) (s : State) : Word :=
  match r with
  | .cmd => 0
  | .status => s.status
  | .errInfo => s.errInfo
  | .ctrl => (BitVec.ofBool s.ie).setWidth 64
  | .width => s.width.setWidth 64
  | .height => s.height.setWidth 64
  | .bitLen => s.bitLen.setWidth 64
  | .bidx => s.bidx.setWidth 64
  | .nblk => BitVec.ofNat 64 s.nblk
  | .key => s.key
  | .stepSize => s.stepSize
  | .bits => (if s.gv then s.bits else (Config.freeWord s.freeCtr).setWidth 12).setWidth 64
  | .dthLo k => if s.dv then readFloat (Config.freeWord s.freeCtr) s.dth[k].lo else Config.freeWord s.freeCtr
  | .dthHi k => if s.dv then readFloat (Config.freeWord s.freeCtr) s.dth[k].hi else Config.freeWord s.freeCtr
  | .blk i => if s.blkv[i] then readFloat (Config.freeWord s.freeCtr) s.blk[i] else Config.freeWord s.freeCtr
  | .reserved => 0

/-- A write to a register other than CMD, in READY (R31 to R50): the register keeps the low bits it has; read-only
registers and reserved offsets ignore it. -/
def writeRegister (r : RegName) (v : Word) (s : State) : State :=
  match r with
  | .cmd => s
  | .status => s
  | .errInfo => s
  | .ctrl => s.setIE (v.getLsbD 0)
  | .width => s.setWidth (v.setWidth 16)
  | .height => s.setHeight (v.setWidth 16)
  | .bitLen => s.setBitLen (v.setWidth 32)
  | .bidx => s.setBidx (v.setWidth 32)
  | .nblk => s
  | .key => s.setKey v
  | .stepSize => s.setStepSize v
  | .bits => s.setBits (v.setWidth 12)
  | .dthLo _ => s
  | .dthHi _ => s
  | .blk i => s.setBlkElement i v
  | .reserved => s

/-- R49, R241: an aligned 64-bit register write. A write to CMD issues the word (R48); in FAULTED every other write
is ignored. -/
def hostWrite (r : RegName) (v : Word) (s : State) : Host.Outcome State Fault Refusal :=
  match r with
  | .cmd => issue v s
  | other => if s.fault then .next s else .next (writeRegister other v s)

/-- R49, R241: an aligned 64-bit register read; it works in both states and changes nothing of the engine. -/
def hostRead (r : RegName) (s : State) : State := (s.setHostData (registerValue r s)).useFree 1

/-- R51: the number of PLANE cells. -/
def State.planeCells (s : State) : Nat := 64 * s.cfg.maxBlk

/-- R51: the number of BITMEM cells. -/
def State.bitCells (s : State) : Nat := 12 * s.cfg.maxBlk

/-- One host action (R8). Accesses to the memories work in both states (R241 (d)); an address that does not exist is
a fault (U9), a register access that is not an aligned 64-bit one a refusal (R49, U7). -/
def perform (a : HostAction) (s : State) : Host.Outcome State Fault Refusal :=
  match a with
  | .writeReg width offset v =>
    if registerAccessOK width offset then hostWrite (registerAt offset) v s
    else .refused (.registerAccess width offset)
  | .readReg width offset =>
    if registerAccessOK width offset then .next (hostRead (registerAt offset) s)
    else .refused (.registerAccess width offset)
  | .writePlane address v =>
    if address < s.planeCells then .next (s.writePlane address v) else .fault (.planeAddress address)
  | .readPlane address =>
    if address < s.planeCells then .next (s.setHostData ((readPlane s address).setWidth 64))
    else .fault (.planeAddress address)
  | .writeBit address v =>
    if address < s.bitCells then .next (s.writeBit address v) else .fault (.bitAddress address)
  | .readBit address =>
    if address < s.bitCells then .next (s.setHostData ((BitVec.ofBool (readBit s address)).setWidth 64))
    else .fault (.bitAddress address)
  | .resetLine => .next (resetEngine s)

/-- R73 (a): byte `n` (0 to 7) of a register on a platform that shows the host bytes, bits 7:0 at the lowest
address. A view: the register interface itself moves whole words (log entry 19). -/
def registerByte (s : State) (r : RegName) (n : Fin 8) : Byte := (registerValue r s).extractLsb' (8 * n) 8

/-- R73 (b): byte `n` of BITMEM on such a platform, cell `i` in byte `i div 8` at bit `i mod 8`. A view likewise. -/
def bitmemByte (s : State) (n : Nat) : Byte := BitVec.ofFnLE fun k : Fin 8 => readBit s (8 * n + k)

/-- The host action that issues a word: a 64-bit write to CMD (R48, R100). -/
def issueAction (w : Word) : HostAction := .writeReg .dword cmdOffset w

end Sys2Proof.Machine
end

