-- ==== Sys2Proof/Machine/Step.lean ====
section
/-! DEFINITION. One step of the system: one host action, whole (00_scope.md R8). -/

namespace Sys2Proof.Machine

/-- R8: "The model takes one step per host action". With no action pending the engine idles and holds its state
(R248, log entry 2). -/
def step (s : State) : Host.Outcome State Fault Refusal :=
  match s.inputs with
  | [] => .next s
  | a :: rest => perform a (s.setInputs rest)

/-- `s` with the command word `w` as the host's next action, so that the very next step issues it (log entry 2). -/
def State.withFetchWord (s : State) (nbits w : Nat) : State :=
  s.setInputs (issueAction (BitVec.ofNat 64 (w % 2 ^ nbits)) :: s.inputs)

end Sys2Proof.Machine
end

