-- ==== Sys2Proof/Safety.lean ====
section
/-! DEFINITION. The terms in which claims speak of the machine: what a well-kept state is, the preconditions of a
command as a table (46_control.md R217), a sequence of commands, and what two states have in common. -/

namespace Sys2Proof.Machine

/-! ## What every step keeps -/

/-- Both memories are in canonical form and hold no cell that does not exist (R51, R77). -/
def State.memoryOK (s : State) : Prop :=
  Memory.wf s.plane ∧ Memory.wf s.bitmem ∧
    (∀ c ∈ s.plane, c.1 < s.planeCells) ∧ (∀ c ∈ s.bitmem, c.1 < s.bitCells)

/-- R46, R47: ERR and ERRINFO are 0 while FAULT = 0; while FAULT = 1, ERR is the code of one of the six errors. -/
def State.faultRecordOK (s : State) : Prop :=
  (s.fault = false → s.err = 0 ∧ s.errInfo = 0) ∧ (s.fault = true → ∃ e, s.err = errorCode e)

/-- R44: DV = 1 means that STEP is legal and DTH holds the pairs R160 gives for the present KEY and STEP. -/
def State.ditherOK (s : State) : Prop :=
  s.dv = true → s.stepOK = true ∧ s.dth = ditherTable s.key s.stepSize

/-- The invariant of the machine: a legal MAXBLK (R10), well-kept memories, fault record and dither table. -/
def State.Inv (s : State) : Prop :=
  s.cfg.legal ∧ s.memoryOK ∧ s.faultRecordOK ∧ s.ditherOK

/-! ## The preconditions of a command -/

/-- A test a command makes before any effect: the columns of R217. -/
inductive Precondition where
  | dims
  | idx
  | grp
  | len
  | legalStep
  | blockValid
  | groupValid
  | ditherValid
deriving DecidableEq, Repr

/-- What a test asks (R120, R161, R199, R40, R42, R44). -/
def Precondition.holds (p : Precondition) (s : State) : Prop :=
  match p with
  | .dims => s.width.toNat % 8 = 0 ∧ s.height.toNat % 8 = 0 ∧ s.nblk ≤ s.cfg.maxBlk
  | .idx => s.bidx.toNat < s.nblk
  | .grp => 12 * s.bidx.toNat + 12 ≤ s.bitLen.toNat
  | .len => s.bitLen.toNat = 12 * s.nblk
  | .legalStep => ∃ mag, unpack s.stepSize = .fin false mag ∧ mag ≠ 0
  | .blockValid => ∀ i : Fin 64, s.blkv[i] = true
  | .groupValid => s.gv = true
  | .ditherValid => s.dv = true

/-- The error a failed test raises: the numbers in the column heads of R217. -/
def Precondition.error (p : Precondition) : CommandError :=
  match p with
  | .dims => .dimensionMismatch
  | .idx => .invalidGridIndex
  | .grp => .payloadLengthMismatch
  | .len => .payloadLengthMismatch
  | .legalStep => .badStep
  | .blockValid => .notReady
  | .groupValid => .notReady
  | .ditherValid => .notReady

/-- R217: the tests of each command, in test order. -/
def preconditions (i : Instr) : List Precondition :=
  match i with
  | .nop => []
  | .check => [.dims, .len, .legalStep]
  | .seek _ => []
  | .next => []
  | .srst => []
  | .bld => [.dims, .idx]
  | .bst => [.dims, .idx, .blockValid]
  | .bitld => [.dims, .idx, .grp]
  | .bitst => [.dims, .idx, .grp, .groupValid]
  | .fdct => [.blockValid]
  | .idct => [.blockValid]
  | .dgen => [.legalStep]
  | .qemb => [.ditherValid, .blockValid, .groupValid]
  | .qext => [.ditherValid, .blockValid]
  | .embblk => [.dims, .idx, .grp, .ditherValid]
  | .extblk => [.dims, .idx, .grp, .ditherValid]
  | .emball => [.dims, .len, .legalStep]
  | .extall => [.dims, .len, .legalStep]

/-- The command is issued in READY with every one of its preconditions met. -/
def ReadyFor (i : Instr) (s : State) : Prop :=
  s.fault = false ∧ ∀ p ∈ preconditions i, p.holds s

/-! ## Sequences of commands -/

/-- One command after another, up to the first that does not answer a next state. -/
def execSeq (cmds : List Instr) (s : State) : Host.Outcome State Fault Refusal :=
  match cmds with
  | [] => .next s
  | i :: rest =>
    match exec i s with
    | .next t => execSeq rest t
    | .fault r => .fault r
    | .refused r => .refused r

/-! ## What two states have in common -/

/-- WIDTH, HEIGHT, BITLEN, KEY, STEP and CTRL are the same, and so is the parameter MAXBLK. -/
def SameConfiguration (s t : State) : Prop :=
  t.width = s.width ∧ t.height = s.height ∧ t.bitLen = s.bitLen ∧ t.key = s.key ∧
    t.stepSize = s.stepSize ∧ t.ie = s.ie ∧ t.cfg = s.cfg

/-- BLK and BLKV are the same. -/
def SameBlock (s t : State) : Prop := t.blk = s.blk ∧ t.blkv = s.blkv

/-- BITS and GV are the same. -/
def SameGroup (s t : State) : Prop := t.bits = s.bits ∧ t.gv = s.gv

/-- DTH and DV are the same. -/
def SameDither (s t : State) : Prop := t.dth = s.dth ∧ t.dv = s.dv

/-- FAULT, ERR and ERRINFO are the same. -/
def SameFaultRecord (s t : State) : Prop := t.fault = s.fault ∧ t.err = s.err ∧ t.errInfo = s.errInfo

/-- Every cell of PLANE reads the same. -/
def SamePlane (s t : State) : Prop := ∀ a, readPlane t a = readPlane s a

/-- Every cell of BITMEM reads the same. -/
def SameBitmem (s t : State) : Prop := ∀ a, readBit t a = readBit s a

/-- The host's pending actions and the answer to its latest read are the same. -/
def SameHost (s t : State) : Prop := t.inputs = s.inputs ∧ t.hostData = s.hostData

/-- The fault record and the free-value counter aside, every register, flag and memory cell is the same: what an
error leaves (R232). -/
def SameButFault (s t : State) : Prop :=
  SameConfiguration s t ∧ t.bidx = s.bidx ∧ SameBlock s t ∧ SameGroup s t ∧ SameDither s t ∧ SamePlane s t ∧
    SameBitmem s t ∧ SameHost s t

/-- The free-value counter aside, every register, flag and memory cell is the same. -/
def SameState (s t : State) : Prop := SameButFault s t ∧ SameFaultRecord s t

/-! ## Reset -/

/-- The rows of R54 that have a value: what every reset leaves in the engine. -/
def EngineAtReset (t : State) : Prop :=
  t.width = 0 ∧ t.height = 0 ∧ t.bitLen = 0 ∧ t.bidx = 0 ∧ t.key = 0 ∧ t.stepSize = 0x0000000000000000#64 ∧
    t.ie = false ∧ t.fault = false ∧ t.err = 0 ∧ t.errInfo = 0 ∧ t.dv = false ∧ t.gv = false ∧
    (∀ i : Fin 64, t.blkv[i] = false) ∧ t.nblk = 0 ∧ t.status = 0

end Sys2Proof.Machine
end

