-- ==== Sys2Proof/Certificates/Slice0/Obligations.lean ====
section
/-! DEFINITION. The statements about CWM-CORE, from the numbered rules of spec/. -/

section Statements

open Sys2Proof Sys2Proof.Machine

/-! ## Encoding (30_encoding.md) -/

/-- R101 to R104: a word decodes to a command exactly when it is the command's own word and the command has one, so
decoding an encoding gives the command back and no bit of a word is dropped. -/
def Obligations.DecodeAndEncodeAgree : Prop :=
  ∀ (w : Word) (i : Instr), decode w = .ok i ↔ WellFormed i ∧ encode i = w

/-- The same of a list of bytes, lowest address first; only a list of eight bytes is a command. The byte form is the
model's own (log entry 18): R73 (a) orders the bytes of a register on a platform with a byte view, R73 also says that
instruction byte order does not exist, and no step reads a command from bytes. -/
def Obligations.EightBytesDecodeAsTheirWord : Prop :=
  ∀ (bytes : List Byte) (i : Instr), decodeBytes bytes = .ok i ↔ WellFormed i ∧ bytes = wordBytes (encode i)

/-- R104: the 17 words without an operand, the words of SEEK (imm24 · 2^8 + 2, R212), and nothing else; every other
word raises IllegalCommand in the READY state. -/
def Obligations.EveryWordIsClassified : Prop :=
  let table : List (Word × Instr) :=
    [(0x00#64, .nop), (0x01#64, .check), (0x03#64, .next), (0x0F#64, .srst), (0x10#64, .bld), (0x11#64, .bst),
      (0x12#64, .bitld), (0x13#64, .bitst), (0x20#64, .fdct), (0x21#64, .idct), (0x30#64, .dgen), (0x40#64, .qemb),
      (0x41#64, .qext), (0x50#64, .embblk), (0x51#64, .extblk), (0x58#64, .emball), (0x59#64, .extall)]
  (∀ p ∈ table, decode p.1 = .ok p.2) ∧
    (∀ imm, imm < 2 ^ 24 → decode (BitVec.ofNat 64 (imm * 2 ^ 8 + 2)) = .ok (.seek imm)) ∧
    ∀ w : Word, (∀ p ∈ table, w ≠ p.1) → (∀ imm, imm < 2 ^ 24 → w ≠ BitVec.ofNat 64 (imm * 2 ^ 8 + 2)) →
      (∃ e, decode w = .error e) ∧
        ∀ s : State, s.fault = false → issue w s = .next (raise .illegalCommand w s)

/-- A few words of R103 and R212, one for each family. -/
def Obligations.SampleWordsDecode : Prop :=
  decode 0x0000000000000502#64 = .ok (.seek 5) ∧ decode 0x00000000FFFFFF02#64 = .ok (.seek 16777215) ∧
    decode 0x000000000000000F#64 = .ok .srst ∧ decode 0x0000000000000011#64 = .ok .bst ∧
    decode 0x0000000000000021#64 = .ok .idct ∧ decode 0x0000000000000030#64 = .ok .dgen ∧
    decode 0x0000000000000041#64 = .ok .qext ∧ decode 0x0000000000000058#64 = .ok .emball

/-! ## A step of the machine (00_scope.md R8, 30_encoding.md R100) -/

/-- R8, R100, R48: a 64-bit write to CMD runs the command its word decodes to, on the state without that action; the
very next step of `s.withFetchWord` is that write. Around `exec` a step only removes the action from the host's list.
-/
def Obligations.StepRunsTheDecodedCommand : Prop :=
  (∀ (s : State) (w : Word) (i : Instr) (rest : List HostAction),
      s.inputs = .writeReg .dword 0x000#10 w :: rest → s.fault = false → decode w = .ok i →
        step s = exec i (s.setInputs rest)) ∧
    ∀ (s : State) (w : Word) (i : Instr), s.fault = false → decode w = .ok i →
      step (s.withFetchWord 64 w.toNat) = exec i s

/-- The model's choice (log entry 2): with no host action pending a step changes nothing. -/
def Obligations.IdleStepHoldsTheState : Prop := ∀ s : State, s.inputs = [] → step s = .next s

/-! ## Errors and the FAULTED state (60_exceptions.md) -/

/-- R229: in READY a word that `decode` does not accept raises IllegalCommand, code 4, records the word and changes
nothing else; in FAULTED no word is decoded and none raises anything. -/
def Obligations.IllegalWordRaisesIllegalCommand : Prop :=
  ∀ (s : State) (w : Word) (rest : List HostAction), s.inputs = .writeReg .dword 0x000#10 w :: rest →
    (∀ e : DecodeError, decode w = .error e → s.fault = false →
      ∃ t, step s = .next t ∧ t.fault = true ∧ t.err = 4 ∧ t.errInfo = w ∧ t.freeCtr = s.freeCtr ∧
        SameButFault (s.setInputs rest) t) ∧
    (s.fault = true → step s =
      if w = 0x000000000000000F#64 then .next (resetEngine (s.setInputs rest)) else .next (s.setInputs rest))

/-- R217, R232, R238: of a command's preconditions in test order, the first that does not hold gives the error; the
record is the error's code and the command's word, and nothing else changes. -/
def Obligations.FirstFailedPreconditionIsReported : Prop :=
  ∀ (i : Instr) (s : State) (before : List Precondition) (p : Precondition) (after : List Precondition),
    s.fault = false → preconditions i = before ++ p :: after → (∀ q ∈ before, q.holds s) → ¬ p.holds s →
      ∃ t, exec i s = .next t ∧ t.fault = true ∧ t.err = errorCode p.error ∧ t.errInfo = encode i ∧
        t.freeCtr = s.freeCtr ∧ SameButFault s t

/-- R201, R217, R233, R240: a command all of whose preconditions hold completes without an error; no numeric
condition and no state met inside it raises one. -/
def Obligations.MetPreconditionsComplete : Prop :=
  ∀ (i : Instr) (s : State), ReadyFor i s → ∃ t, exec i s = .next t ∧ t.fault = false

/-- R232, R234: whenever a step leaves READY for FAULTED, it was the write of some word to CMD, the record holds one
of the six codes and that very word, and everything else is as it was before the write. -/
def Obligations.ErrorsArePreciseAndSynchronous : Prop :=
  ∀ s t : State, s.fault = false → step s = .next t → t.fault = true →
    ∃ (w : Word) (rest : List HostAction) (e : CommandError),
      s.inputs = .writeReg .dword 0x000#10 w :: rest ∧ t.err = errorCode e ∧ t.errInfo = w ∧
        t.freeCtr = s.freeCtr ∧ SameButFault (s.setInputs rest) t

/-- R241 (a) to (d): what each host action does in the FAULTED state. The model's own part is where a read's answer
stands (`hostData`) and the list of actions (log entry 2), and that a register read moves the free-value counter on by
one (log entry 5). -/
def Obligations.FaultedStateIgnoresWritesAndCommands : Prop :=
  ∀ (s : State) (rest : List HostAction), s.fault = true →
    (∀ (offset : BitVec 10) (v : Word), offset.toNat % 8 = 0 → offset ≠ 0x000#10 →
      s.inputs = .writeReg .dword offset v :: rest → step s = .next (s.setInputs rest)) ∧
    (∀ w : Word, s.inputs = .writeReg .dword 0x000#10 w :: rest →
      step s = if w = 0x000000000000000F#64 then exec .srst (s.setInputs rest) else .next (s.setInputs rest)) ∧
    (∀ offset : BitVec 10, offset.toNat % 8 = 0 → s.inputs = .readReg .dword offset :: rest →
      step s = .next { s with
        inputs := rest, hostData := registerValue (registerAt offset) s, freeCtr := s.freeCtr + 1 }) ∧
    (∀ (a : Nat) (v : Byte), a < 64 * s.cfg.maxBlk → s.inputs = .writePlane a v :: rest →
      ∃ t, step s = .next t ∧ readPlane t a = v ∧ (∀ b, b ≠ a → readPlane t b = readPlane s b) ∧
        t = { s with inputs := rest, plane := t.plane }) ∧
    (∀ (a : Nat) (v : Bool), a < 12 * s.cfg.maxBlk → s.inputs = .writeBit a v :: rest →
      ∃ t, step s = .next t ∧ readBit t a = v ∧ (∀ b, b ≠ a → readBit t b = readBit s b) ∧
        t = { s with inputs := rest, bitmem := t.bitmem }) ∧
    (∀ a : Nat, a < 64 * s.cfg.maxBlk → s.inputs = .readPlane a :: rest →
      step s = .next { s with inputs := rest, hostData := (readPlane s a).setWidth 64 }) ∧
    ∀ a : Nat, a < 12 * s.cfg.maxBlk → s.inputs = .readBit a :: rest →
      step s = .next { s with inputs := rest, hostData := (BitVec.ofBool (readBit s a)).setWidth 64 }

/-- R241 (b): in the FAULTED state every command but SRST is dropped, whatever its preconditions. -/
def Obligations.FaultedStateDropsCommands : Prop :=
  ∀ (i : Instr) (s : State), i ≠ .srst → s.fault = true → exec i s = .next s

/-- R240, R242: a step from FAULTED either is a reset, by the reset line or by the exact word of SRST, or leaves
every register and flag of the engine as it is. -/
def Obligations.OnlyResetLeavesFaulted : Prop :=
  ∀ s t : State, s.fault = true → step s = .next t →
    (∃ rest, (s.inputs = .resetLine :: rest ∨
        s.inputs = .writeReg .dword 0x000#10 0x000000000000000F#64 :: rest) ∧ EngineAtReset t) ∨
      (SameConfiguration s t ∧ t.bidx = s.bidx ∧ SameBlock s t ∧ SameGroup s t ∧ SameDither s t ∧ SameFaultRecord s t)

/-- R236: the line is FAULT and IE together; once high it stays high until a reset, which lowers it. -/
def Obligations.InterruptLineIsALevel : Prop :=
  (∀ s : State, s.irq = true ↔ s.fault = true ∧ s.ie = true) ∧
    ∀ s t : State, s.irq = true → step s = .next t →
      t.irq = true ∨ (EngineAtReset t ∧ t.irq = false ∧ ∃ rest, s.inputs = .resetLine :: rest ∨
        s.inputs = .writeReg .dword 0x000#10 0x000000000000000F#64 :: rest)

/-! ## Reset (10_state.md R54, 70_reset_and_hazards.md R255) -/

/-- R54, R214, R255: the state after reset has the listed values, and SRST (in READY and in FAULTED) and the reset
line bring the engine there and touch neither memory. -/
def Obligations.ResetGivesTheListedValues : Prop :=
  EngineAtReset State.reset ∧
    (∀ s : State, ∃ t, exec .srst s = .next t ∧ EngineAtReset t ∧ SamePlane s t ∧ SameBitmem s t ∧ SameHost s t ∧
      t.cfg = s.cfg) ∧
    ∀ (s : State) (rest : List HostAction), s.inputs = .resetLine :: rest → step s = exec .srst (s.setInputs rest)

/-! ## The register interface (10_state.md) -/

/-- R45: a host write to KEY or STEP clears DV, also when it writes the value held. Besides that register and DV it
changes at most the contents of DTH, which the rule leaves unspecified then (this model keeps them, log entry 9). -/
def Obligations.WritingKeyOrStepClearsDV : Prop :=
  ∀ (s : State) (rest : List HostAction) (v : Word), s.fault = false →
    (s.inputs = .writeReg .dword 0x048#10 v :: rest →
      ∃ dth, step s = .next { s with inputs := rest, key := v, dv := false, dth := dth }) ∧
    (s.inputs = .writeReg .dword 0x050#10 v :: rest →
      ∃ dth, step s = .next { s with inputs := rest, stepSize := v, dv := false, dth := dth })

/-- R31, R32, R36, R38, R40, R41, R42, R49, R50: in READY a write to each other register keeps the bits the map
gives it, sets the valid flag the map names, and changes nothing else; a read-only or reserved offset ignores it. -/
def Obligations.RegisterWritesFollowTheMap : Prop :=
  ∀ (s : State) (rest : List HostAction) (v : Word), s.fault = false →
    (s.inputs = .writeReg .dword 0x018#10 v :: rest →
      step s = .next { s with inputs := rest, ie := v.getLsbD 0 }) ∧
    (s.inputs = .writeReg .dword 0x020#10 v :: rest →
      step s = .next { s with inputs := rest, width := v.extractLsb' 0 16 }) ∧
    (s.inputs = .writeReg .dword 0x028#10 v :: rest →
      step s = .next { s with inputs := rest, height := v.extractLsb' 0 16 }) ∧
    (s.inputs = .writeReg .dword 0x030#10 v :: rest →
      step s = .next { s with inputs := rest, bitLen := v.extractLsb' 0 32 }) ∧
    (s.inputs = .writeReg .dword 0x038#10 v :: rest →
      step s = .next { s with inputs := rest, bidx := v.extractLsb' 0 32 }) ∧
    (s.inputs = .writeReg .dword 0x058#10 v :: rest →
      step s = .next { s with inputs := rest, bits := v.extractLsb' 0 12, gv := true }) ∧
    (∀ i : Fin 64, s.inputs = .writeReg .dword (BitVec.ofNat 10 (0x200 + 8 * i.val)) v :: rest →
      step s = .next { s with inputs := rest, blk := s.blk.set i v, blkv := s.blkv.set i true }) ∧
    ∀ offset : BitVec 10,
      (offset = 0x008#10 ∨ offset = 0x010#10 ∨ offset = 0x040#10 ∨
        (offset.toNat % 8 = 0 ∧ 0x060 ≤ offset.toNat ∧ offset.toNat < 0x200)) →
      s.inputs = .writeReg .dword offset v :: rest → step s = .next (s.setInputs rest)

/-- R46, R49, R50: an aligned read works in both states, changes nothing but what the host has been answered (and the
model's free-value counter), and answers what the map says; the STATUS bits are those of R46. `hostData` and
the counter are the model's own (log entries 2 and 5). -/
def Obligations.RegisterReadsFollowTheMap : Prop :=
  ∀ (s : State) (rest : List HostAction) (offset : BitVec 10), offset.toNat % 8 = 0 →
    s.inputs = .readReg .dword offset :: rest →
      ∃ v : Word, step s = .next { s with inputs := rest, hostData := v, freeCtr := s.freeCtr + 1 } ∧
        (offset = 0x000#10 → v = 0) ∧
        (offset = 0x008#10 → v.getLsbD 0 = s.fault ∧ v.getLsbD 1 = s.dv ∧ v.getLsbD 2 = s.gv ∧
          (v.getLsbD 3 = true ↔ ∀ i : Fin 64, s.blkv[i] = true) ∧ v.extractLsb' 4 4 = 0 ∧
          v.extractLsb' 8 8 = s.err ∧ v.extractLsb' 16 48 = 0) ∧
        (offset = 0x010#10 → v = s.errInfo) ∧
        (offset = 0x018#10 → v.getLsbD 0 = s.ie ∧ v.extractLsb' 1 63 = 0) ∧
        (offset = 0x020#10 → v.toNat = s.width.toNat) ∧
        (offset = 0x028#10 → v.toNat = s.height.toNat) ∧
        (offset = 0x030#10 → v.toNat = s.bitLen.toNat) ∧
        (offset = 0x038#10 → v.toNat = s.bidx.toNat) ∧
        (offset = 0x040#10 → v.toNat = (s.width.toNat / 8) * (s.height.toNat / 8)) ∧
        (offset = 0x048#10 → v = s.key) ∧
        (offset = 0x050#10 → v = s.stepSize) ∧
        (offset = 0x058#10 → v.extractLsb' 12 52 = 0 ∧ (s.gv = true → v.extractLsb' 0 12 = s.bits)) ∧
        (0x060 ≤ offset.toNat → offset.toNat < 0x100 → v = 0) ∧
        (∀ k : Fin 12, offset.toNat = 0x100 + 16 * k.val → s.dv = true →
          unpack v = unpack s.dth[k].lo ∧ (isNaN (unpack v) = false → v = s.dth[k].lo)) ∧
        (∀ k : Fin 12, offset.toNat = 0x108 + 16 * k.val → s.dv = true →
          unpack v = unpack s.dth[k].hi ∧ (isNaN (unpack v) = false → v = s.dth[k].hi)) ∧
        (0x1C0 ≤ offset.toNat → offset.toNat < 0x200 → v = 0) ∧
        ∀ i : Fin 64, offset.toNat = 0x200 + 8 * i.val → s.blkv[i] = true →
          unpack v = unpack s.blk[i] ∧ (isNaN (unpack v) = false → v = s.blk[i])

/-- R33: NBLK is the product of the two block counts, at most 67 092 481, and 0 after reset; a write to its offset is
ignored. -/
def Obligations.BlockCountIsAView : Prop :=
  (∀ s : State, s.nblk = (s.width.toNat / 8) * (s.height.toNat / 8) ∧ s.nblk ≤ 67092481 ∧ 67092481 < 2 ^ 32) ∧
    (∀ s : State, registerValue (registerAt 0x040#10) s = BitVec.ofNat 64 s.nblk) ∧
    (∀ (s : State) (v : Word) (rest : List HostAction),
      s.inputs = .writeReg .dword 0x040#10 v :: rest → step s = .next (s.setInputs rest)) ∧
    State.reset.nblk = 0

/-- R49, U7: a register access that is narrower than 64 bits, or at an offset that is no multiple of 8, is refused;
the machine offers no other. -/
def Obligations.OddRegisterAccessIsRefused : Prop :=
  ∀ (s : State) (rest : List HostAction) (width : AccessWidth) (offset : BitVec 10) (v : Word),
    (width ≠ .dword ∨ offset.toNat % 8 ≠ 0) →
      (s.inputs = .writeReg width offset v :: rest → step s = .refused (.registerAccess width offset)) ∧
      (s.inputs = .readReg width offset :: rest → step s = .refused (.registerAccess width offset))

/-- R51, R70, R71, R80, R81: in both states a host access to a cell of PLANE or BITMEM that exists reads or writes
that cell and no other; one that does not exist (U9) stops the machine, a fault being the model's choice (log entry
10). -/
def Obligations.HostMemoryAccessIsOneCell : Prop :=
  ∀ (s : State) (rest : List HostAction) (a : Nat),
    (∀ v : Byte, s.inputs = .writePlane a v :: rest →
      (a < 64 * s.cfg.maxBlk → ∃ t, step s = .next t ∧ readPlane t a = v ∧
        (∀ b, b ≠ a → readPlane t b = readPlane s b) ∧ t = { s with inputs := rest, plane := t.plane }) ∧
      (64 * s.cfg.maxBlk ≤ a → step s = .fault (.planeAddress a))) ∧
    (∀ v : Bool, s.inputs = .writeBit a v :: rest →
      (a < 12 * s.cfg.maxBlk → ∃ t, step s = .next t ∧ readBit t a = v ∧
        (∀ b, b ≠ a → readBit t b = readBit s b) ∧ t = { s with inputs := rest, bitmem := t.bitmem }) ∧
      (12 * s.cfg.maxBlk ≤ a → step s = .fault (.bitAddress a))) ∧
    (s.inputs = .readPlane a :: rest →
      (a < 64 * s.cfg.maxBlk → step s = .next { s with inputs := rest, hostData := (readPlane s a).setWidth 64 }) ∧
      (64 * s.cfg.maxBlk ≤ a → step s = .fault (.planeAddress a))) ∧
    (s.inputs = .readBit a :: rest →
      (a < 12 * s.cfg.maxBlk →
        step s = .next { s with inputs := rest, hostData := (BitVec.ofBool (readBit s a)).setWidth 64 }) ∧
      (12 * s.cfg.maxBlk ≤ a → step s = .fault (.bitAddress a)))

/-! ## Addresses (20_memory.md, 41_blockgrid.md) -/

/-- R72, R77, R121, R125: over a plane whose sides are multiples of 8, blocks and elements number the cells below
W·H without repetition: every address is inside the plane, no two agree, and every cell is met. -/
def Obligations.BlocksTileThePlane : Prop :=
  ∀ w h : Nat, w % 8 = 0 → h % 8 = 0 →
    (∀ b i, b < (w / 8) * (h / 8) → i < 64 → planeAddr w b i < w * h) ∧
    (∀ b i c j, b < (w / 8) * (h / 8) → c < (w / 8) * (h / 8) → i < 64 → j < 64 →
      planeAddr w b i = planeAddr w c j → b = c ∧ i = j) ∧
    ∀ y x, y < h → x < w → planeAddr w ((y / 8) * (w / 8) + x / 8) (8 * (y % 8) + x % 8) = y * w + x

/-! ## Control commands (46_control.md) -/

/-- R210: NOP changes nothing, in READY and in FAULTED, and every other word with its opcode is illegal. -/
def Obligations.NopChangesNothing : Prop :=
  encode .nop = 0x0000000000000000#64 ∧ (∀ s : State, exec .nop s = .next s) ∧
    ∀ w : Word, w.extractLsb' 0 8 = 0x00#8 → w ≠ 0 → ∃ e, decode w = .error e

/-- R211: CHECK with its tests met changes nothing, and it succeeds exactly where EMBALL and EXTALL pass their
entry. -/
def Obligations.CheckIsTheEntryTest : Prop :=
  (∀ s : State, ReadyFor .check s → exec .check s = .next s) ∧
    ∀ s : State, s.fault = false →
      (exec .check s = .next s ↔ ∃ t, exec .emball s = .next t ∧ t.fault = false) ∧
      (exec .check s = .next s ↔ ∃ t, exec .extall s = .next t ∧ t.fault = false)

/-- R212: SEEK sets the cursor to its operand, compared with nothing, and changes nothing else. -/
def Obligations.SeekSetsTheCursor : Prop :=
  ∀ (imm : Nat) (s : State), imm < 2 ^ 24 → s.fault = false →
    ∃ t, exec (.seek imm) s = .next t ∧ t.bidx.toNat = imm ∧ t.freeCtr = s.freeCtr ∧ SameConfiguration s t ∧
      SameBlock s t ∧ SameGroup s t ∧ SameDither s t ∧ SameFaultRecord s t ∧ SamePlane s t ∧ SameBitmem s t ∧
      SameHost s t

/-- R213: NEXT adds 1 to the cursor modulo 2^32 and changes nothing else. -/
def Obligations.NextAdvancesTheCursor : Prop :=
  ∀ s : State, s.fault = false →
    ∃ t, exec .next s = .next t ∧ t.bidx.toNat = (s.bidx.toNat + 1) % 2 ^ 32 ∧ t.freeCtr = s.freeCtr ∧
      SameConfiguration s t ∧ SameBlock s t ∧ SameGroup s t ∧ SameDither s t ∧ SameFaultRecord s t ∧ SamePlane s t ∧
      SameBitmem s t ∧ SameHost s t

/-! ## Block grid commands (41_blockgrid.md) -/

/-- R122: BLD loads element i with the value of the sample at PAddr(BIDX, i) (R121, written out), sets all valid bits
and changes nothing else. -/
def Obligations.BldLoadsTheBlock : Prop :=
  ∀ s : State, ReadyFor .bld s →
    ∃ t, exec .bld s = .next t ∧
      (∀ i : Fin 64,
        unpack t.blk[i] = ofInteger (readPlane s ((8 * (s.bidx.toNat / (s.width.toNat / 8)) + i.val / 8) * s.width.toNat +
          8 * (s.bidx.toNat % (s.width.toNat / 8)) + i.val % 8)).toNat ∧
        t.blkv[i] = true) ∧
      t.freeCtr = s.freeCtr ∧ SameConfiguration s t ∧ t.bidx = s.bidx ∧ SameGroup s t ∧ SameDither s t ∧
      SameFaultRecord s t ∧ SamePlane s t ∧ SameBitmem s t ∧ SameHost s t

/-- R125: BST stores ToByte of element i at `blockAddr i`, the meaning's PAddr(BIDX, i), leaves every other cell as
it is, and changes nothing else. -/
def Obligations.BstStoresTheBlock : Prop :=
  ∀ s : State, ReadyFor .bst s →
    ∃ t, exec .bst s = .next t ∧
      (∀ i : Fin 64, readPlane t (s.blockAddr i) = toByte (unpack s.blk[i])) ∧
      (∀ a, (∀ i : Fin 64, s.blockAddr i ≠ a) → readPlane t a = readPlane s a) ∧
      t.freeCtr = s.freeCtr ∧ SameConfiguration s t ∧ t.bidx = s.bidx ∧ SameBlock s t ∧ SameGroup s t ∧
      SameDither s t ∧ SameFaultRecord s t ∧ SameBitmem s t ∧ SameHost s t

/-- R127 (a): BLD then BST completes and leaves every cell of the plane as it was. -/
def Obligations.BldThenBstKeepsThePlane : Prop :=
  ∀ s : State, ReadyFor .bld s →
    ∃ t u, exec .bld s = .next t ∧ exec .bst t = .next u ∧ u.fault = false ∧ SamePlane s u

/-- R128: BITLD loads bit k from cell 12·BIDX + k, sets GV and changes nothing else. -/
def Obligations.BitldLoadsTheGroup : Prop :=
  ∀ s : State, ReadyFor .bitld s →
    ∃ t, exec .bitld s = .next t ∧
      (∀ k : Fin 12, t.bits.getLsbD k = readBit s (12 * s.bidx.toNat + k.val)) ∧ t.gv = true ∧
      t.freeCtr = s.freeCtr ∧ SameConfiguration s t ∧ t.bidx = s.bidx ∧ SameBlock s t ∧ SameDither s t ∧
      SameFaultRecord s t ∧ SamePlane s t ∧ SameBitmem s t ∧ SameHost s t

/-- R129: BITST stores bit k at `groupAddr k`, the meaning's 12·BIDX + k, leaves every other cell as it is, and
changes nothing else. -/
def Obligations.BitstStoresTheGroup : Prop :=
  ∀ s : State, ReadyFor .bitst s →
    ∃ t, exec .bitst s = .next t ∧
      (∀ k : Fin 12, s.groupAddr k = 12 * s.bidx.toNat + k.val ∧ readBit t (s.groupAddr k) = s.bits.getLsbD k) ∧
      (∀ a, (∀ k : Fin 12, s.groupAddr k ≠ a) → readBit t a = readBit s a) ∧
      t.freeCtr = s.freeCtr ∧ SameConfiguration s t ∧ t.bidx = s.bidx ∧ SameBlock s t ∧ SameGroup s t ∧
      SameDither s t ∧ SameFaultRecord s t ∧ SamePlane s t ∧ SameHost s t

/-- R128, R129: BITST then BITLD, with the cursor at rest, completes and gives BITS back. -/
def Obligations.BitstThenBitldKeepsTheGroup : Prop :=
  ∀ s : State, ReadyFor .bitst s →
    ∃ t u, exec .bitst s = .next t ∧ exec .bitld t = .next u ∧ u.bits = s.bits ∧ u.gv = true ∧ u.fault = false

/-! ## Transform commands (42_dct.md) -/

/-- R143: the coefficient matrix as the rule writes it out, row k and column n: the sign and the index of the cosine
constant. -/
def Obligations.CoefficientMatrixIsTheTable : Prop :=
  let table : List (List (Bool × Nat)) :=
    [[(false, 0), (false, 0), (false, 0), (false, 0), (false, 0), (false, 0), (false, 0), (false, 0)],
     [(false, 1), (false, 3), (false, 5), (false, 7), (true, 7), (true, 5), (true, 3), (true, 1)],
     [(false, 2), (false, 6), (true, 6), (true, 2), (true, 2), (true, 6), (false, 6), (false, 2)],
     [(false, 3), (true, 7), (true, 1), (true, 5), (false, 5), (false, 1), (false, 7), (true, 3)],
     [(false, 4), (true, 4), (true, 4), (false, 4), (false, 4), (true, 4), (true, 4), (false, 4)],
     [(false, 5), (true, 1), (false, 7), (false, 3), (true, 3), (true, 7), (false, 1), (true, 5)],
     [(false, 6), (true, 2), (false, 2), (true, 6), (true, 6), (false, 2), (true, 2), (false, 6)],
     [(false, 7), (true, 5), (false, 3), (true, 1), (false, 1), (true, 3), (false, 5), (true, 7)]]
  let constants : List Word :=
    [0x3FF0000000000000#64, 0x3FEF6297CFF75CB0#64, 0x3FED906BCF328D46#64, 0x3FEA9B66290EA1A3#64,
      0x3FE6A09E667F3BCD#64, 0x3FE1C73B39AE68C8#64, 0x3FD87DE2A6AEA963#64, 0x3FC8F8B83C69A60B#64]
  ∀ k n : Fin 8, ∃ row entry pattern, table[k.val]? = some row ∧ row[n.val]? = some entry ∧
    constants[entry.2]? = some pattern ∧
    coefficient k n = if entry.1 then fneg (unpack pattern) else unpack pattern

/-- R144, R145: each output of the two 1D transforms is the left-to-right sum the rule writes, every product and
every sum rounded once. -/
def Obligations.TransformSumsRunLeftToRight : Prop :=
  ∀ (x : Vector F64 8) (m : Fin 8),
    dct2Term x m = fadd (fadd (fadd (fadd (fadd (fadd (fadd (fmul x[0] (coefficient m 0)) (fmul x[1] (coefficient m 1)))
      (fmul x[2] (coefficient m 2))) (fmul x[3] (coefficient m 3))) (fmul x[4] (coefficient m 4)))
      (fmul x[5] (coefficient m 5))) (fmul x[6] (coefficient m 6))) (fmul x[7] (coefficient m 7)) ∧
    dct3Term x m = fadd (fadd (fadd (fadd (fadd (fadd (fadd (fmul x[0] (unpack 0x3FE0000000000000#64))
      (fmul x[1] (coefficient 1 m))) (fmul x[2] (coefficient 2 m))) (fmul x[3] (coefficient 3 m)))
      (fmul x[4] (coefficient 4 m))) (fmul x[5] (coefficient 5 m))) (fmul x[6] (coefficient 6 m)))
      (fmul x[7] (coefficient 7 m))

/-- R148: FDCT transforms the rows, `T[8r+v] = dct2_8(row r)[v]`, then the columns, `BLK[8u+v] = dct2_8(column v of
T)[u]`, and changes nothing else. -/
def Obligations.FdctTransformsRowsThenColumns : Prop :=
  ∀ s : State, ReadyFor .fdct s →
    ∃ t, exec .fdct s = .next t ∧
      (∀ u v : Fin 8, unpack t.blk[flatIndex u v] =
        dct2Term (Vector.ofFn fun r : Fin 8 =>
          dct2Term (Vector.ofFn fun c : Fin 8 => unpack s.blk[flatIndex r c]) v) u) ∧
      t.blkv = s.blkv ∧ SameConfiguration s t ∧ t.bidx = s.bidx ∧ SameGroup s t ∧ SameDither s t ∧
      SameFaultRecord s t ∧ SamePlane s t ∧ SameBitmem s t ∧ SameHost s t

/-- R149: IDCT is the same with dct3_8, and one multiplication of every element by 1/16 at the end. -/
def Obligations.IdctTransformsAndScalesOnce : Prop :=
  ∀ s : State, ReadyFor .idct s →
    ∃ t, exec .idct s = .next t ∧
      (∀ u v : Fin 8, unpack t.blk[flatIndex u v] =
        fmul (dct3Term (Vector.ofFn fun r : Fin 8 =>
          dct3Term (Vector.ofFn fun c : Fin 8 => unpack s.blk[flatIndex r c]) v) u) (unpack 0x3FB0000000000000#64)) ∧
      t.blkv = s.blkv ∧ SameConfiguration s t ∧ t.bidx = s.bidx ∧ SameGroup s t ∧ SameDither s t ∧
      SameFaultRecord s t ∧ SamePlane s t ∧ SameBitmem s t ∧ SameHost s t

/-- R151: BLD, FDCT, IDCT and BST in that order complete without an error and leave every cell of the plane as it was,
whatever the 64 samples are. -/
def Obligations.TransformRoundTripKeepsThePlane : Prop :=
  ∀ s : State, ReadyFor .bld s →
    ∃ t, execSeq [.bld, .fdct, .idct, .bst] s = .next t ∧ t.fault = false ∧ SamePlane s t

/-! ## The dither generator (43_dither.md) -/

/-- R162: the two examples of the rule. -/
def Obligations.SplitMixExamples : Prop :=
  splitMixNext 123456#64 = 0x9E3779B97F4C5E55#64 ∧ splitMixOutput 0x9E3779B97F4C5E55#64 = 0x39E65B817D6592E9#64 ∧
    splitMixNext 0#64 = 0x9E3779B97F4A7C15#64 ∧ splitMixOutput 0x9E3779B97F4A7C15#64 = 0xE220A8397B1DCDAF#64

/-- R160, R163: DGEN writes pair k from the (k+1)-th word of the stream that starts at KEY: lo is `fmul(fsub(r, 0.5),
STEP)` with r the word's top 53 bits times 2^-53, hi is lo less or more half a step; it sets DV and changes nothing
else. -/
def Obligations.DgenWritesTheTable : Prop :=
  ∀ s : State, ReadyFor .dgen s →
    ∃ t, exec .dgen s = .next t ∧ t.dv = true ∧
      (∀ k : Fin 12,
        let z := splitMixOutput (s.key + BitVec.ofNat 64 (k.val + 1) * 0x9E3779B97F4A7C15#64)
        let step := unpack s.stepSize
        let lo := unpack t.dth[k].lo
        let halfStep := fmul step (unpack 0x3FE0000000000000#64)
        lo = fmul (fsub (fmul (ofInteger (z.toNat / 2 ^ 11)) (unpack 0x3CA0000000000000#64))
          (unpack 0x3FE0000000000000#64)) step ∧
        unpack t.dth[k].hi = if fgt lo (unpack 0#64) then fsub lo halfStep else fadd lo halfStep) ∧
      t.freeCtr = s.freeCtr ∧ SameConfiguration s t ∧ t.bidx = s.bidx ∧ SameBlock s t ∧ SameGroup s t ∧
      SameFaultRecord s t ∧ SamePlane s t ∧ SameBitmem s t ∧ SameHost s t

/-- R165: the pairs are a pure function of KEY and STEP: two states that agree in these give the same table, bit for
bit. -/
def Obligations.DgenIsPure : Prop :=
  ∀ s t s' t' : State, s.key = t.key → s.stepSize = t.stepSize → ReadyFor .dgen s → ReadyFor .dgen t →
    exec .dgen s = .next s' → exec .dgen t = .next t' → s'.dth = t'.dth

/-- R164, for steps of at least 2^-1021 (a magnitude of 2^53 least subnormals; NOTES.md says why the bound): every
first member lies in [-step/2, step/2) and every second in [-step/2, step/2]. The magnitudes are those of the values,
in least subnormals. -/
def Obligations.DithersLieWithinHalfAStep : Prop :=
  ∀ (s t : State) (mag : Nat), unpack s.stepSize = .fin false mag → 2 ^ 53 ≤ mag → exec .dgen s = .next t →
    s.fault = false → ∀ k : Fin 12,
      (∃ neg m, unpack t.dth[k].lo = .fin neg m ∧ -(mag : Int) ≤ 2 * signedMag neg m ∧ 2 * signedMag neg m < mag) ∧
      ∃ neg m, unpack t.dth[k].hi = .fin neg m ∧ 2 * m ≤ mag

/-! ## The quantizer (44_qim.md) -/

/-- R109, R176: the mask, ascending, by slot. -/
def Obligations.MaskIsTheSlotTable : Prop :=
  (List.finRange 12).map (fun k => (maskIndex k).val) = [4, 5, 6, 7, 11, 12, 13, 14, 15, 18, 19, 20] ∧
    ∀ i : Fin 64, (0x00000000001CF8F0#64).getLsbD i = true ↔ ∃ k, maskIndex k = i

/-- R184, the first sentence: the quantizer is odd, for every value that is neither a zero nor a NaN. -/
def Obligations.QuantizerIsOdd : Prop :=
  ∀ v s : F64, isNaN v = false → (∀ neg, v ≠ .fin neg 0) → quantize (fneg v) s = fneg (quantize v s)

/-- R178, R184: QEMB puts `quantize(c + d, STEP) - d` at each mask index, d being hi for a bit 1 and lo for a bit 0,
leaves the 52 other elements bit for bit, and changes nothing else. -/
def Obligations.QembEmbedsTwelveBits : Prop :=
  ∀ s : State, ReadyFor .qemb s →
    ∃ t, exec .qemb s = .next t ∧
      (∀ k : Fin 12,
        let d := if s.bits.getLsbD k then unpack s.dth[k].hi else unpack s.dth[k].lo
        unpack t.blk[maskIndex k] =
          fsub (quantize (fadd (unpack s.blk[maskIndex k]) d) (unpack s.stepSize)) d) ∧
      (∀ i : Fin 64, (∀ k, maskIndex k ≠ i) → t.blk[i] = s.blk[i]) ∧
      t.blkv = s.blkv ∧ SameConfiguration s t ∧ t.bidx = s.bidx ∧ SameGroup s t ∧ SameDither s t ∧
      SameFaultRecord s t ∧ SamePlane s t ∧ SameBitmem s t ∧ SameHost s t

/-- R180: QEXT reads bit 0 exactly where the probe's distance from the lo lattice is strictly below STEP/10, else bit
1; it sets GV and changes nothing else. -/
def Obligations.QextExtractsTwelveBits : Prop :=
  ∀ s : State, ReadyFor .qext s →
    ∃ t, exec .qext s = .next t ∧
      (∀ k : Fin 12,
        let probe := fadd (unpack s.blk[maskIndex k]) (unpack s.dth[k].lo)
        t.bits.getLsbD k = false ↔ flt (fabs (fsub (quantize probe (unpack s.stepSize)) probe))
          (fdiv (unpack s.stepSize) (unpack 0x4024000000000000#64)) = true) ∧
      t.gv = true ∧ t.freeCtr = s.freeCtr ∧ SameConfiguration s t ∧ t.bidx = s.bidx ∧ SameBlock s t ∧
      SameDither s t ∧ SameFaultRecord s t ∧ SamePlane s t ∧ SameBitmem s t ∧ SameHost s t

/-- R182, with the bound on the coefficients that the rule asks a model to state (2^20) and a step from 10 to 2^900: QEMB
and then QEXT complete and leave BITS as it was. DTH is the table of the present KEY and STEP, as DV = 1 means
(R44). Magnitudes are in least subnormals, of which `unit` make 1. -/
def Obligations.QextReadsBackWhatQembEmbedded : Prop :=
  ∀ (s : State) (mag : Nat), ReadyFor .qemb s → s.ditherOK → unpack s.stepSize = .fin false mag →
    10 * unit ≤ mag → mag ≤ 2 ^ 900 * unit →
    (∀ k : Fin 12, ∃ neg m, unpack s.blk[maskIndex k] = .fin neg m ∧ m ≤ 2 ^ 20 * unit) →
      ∃ t u, exec .qemb s = .next t ∧ exec .qext t = .next u ∧ u.bits = s.bits ∧ u.fault = false

/-- R183, under the same bounds: if each embedded coefficient is moved by noise of at most (1 - 2^-20) · STEP/10, QEXT
still gives the embedded bits. The margin of 2^-20 of STEP/10 is this statement's own and far wider than the few units
in the last place that the rule leaves out; noise between the two is not covered here. -/
def Obligations.ExtractionToleratesNoise : Prop :=
  ∀ (s t w : State) (mag : Nat), ReadyFor .qemb s → s.ditherOK → unpack s.stepSize = .fin false mag →
    10 * unit ≤ mag → mag ≤ 2 ^ 900 * unit →
    (∀ k : Fin 12, ∃ neg m, unpack s.blk[maskIndex k] = .fin neg m ∧ m ≤ 2 ^ 20 * unit) →
    exec .qemb s = .next t → ReadyFor .qext w → w.stepSize = s.stepSize → w.dth = s.dth →
    (∀ k : Fin 12, ∃ na a nb b, unpack t.blk[maskIndex k] = .fin na a ∧ unpack w.blk[maskIndex k] = .fin nb b ∧
      10 * 2 ^ 20 * |signedMag nb b - signedMag na a| ≤ (2 ^ 20 - 1) * (mag : Int)) →
      ∃ u, exec .qext w = .next u ∧ u.bits = s.bits

/-! ## Pipeline commands (45_pipeline.md) -/

/-- R195, R200, R201: with its preconditions met EMBBLK completes without an error, exactly as the primitive sequence
does; it moves the cursor on by one, and leaves every plane cell outside the block and every BITMEM cell. -/
def Obligations.EmbblkIsItsSequence : Prop :=
  ∀ s : State, ReadyFor .embblk s →
    exec .embblk s = execSeq [.bld, .fdct, .bitld, .qemb, .idct, .bst, .next] s ∧
      ∃ t, exec .embblk s = .next t ∧ t.bidx.toNat = s.bidx.toNat + 1 ∧
        (∀ i : Fin 64, t.blkv[i] = true ∧ readPlane t (s.blockAddr i) = toByte (unpack t.blk[i])) ∧
        (∀ k : Fin 12, t.bits.getLsbD k = readBit s (12 * s.bidx.toNat + k.val)) ∧ t.gv = true ∧
        (∀ a, (∀ i : Fin 64, s.blockAddr i ≠ a) → readPlane t a = readPlane s a) ∧
        SameConfiguration s t ∧ SameDither s t ∧ SameFaultRecord s t ∧ SameBitmem s t ∧ SameHost s t

/-- R196, R200, R201: likewise EXTBLK, which leaves PLANE and every BITMEM cell outside the group. -/
def Obligations.ExtblkIsItsSequence : Prop :=
  ∀ s : State, ReadyFor .extblk s →
    exec .extblk s = execSeq [.bld, .fdct, .qext, .bitst, .next] s ∧
      ∃ t, exec .extblk s = .next t ∧ t.bidx.toNat = s.bidx.toNat + 1 ∧ (∀ i : Fin 64, t.blkv[i] = true) ∧
        (∀ k : Fin 12, readBit t (s.groupAddr k) = t.bits.getLsbD k) ∧ t.gv = true ∧
        (∀ a, (∀ k : Fin 12, s.groupAddr k ≠ a) → readBit t a = readBit s a) ∧
        SameConfiguration s t ∧ SameDither s t ∧ SameFaultRecord s t ∧ SamePlane s t ∧ SameHost s t

/-- R197, R200, R201: with its preconditions met EMBALL completes without an error, exactly as DGEN, SEEK 0 and then
EMBBLK once per block; the cursor ends at NBLK, and every plane cell from W·H on and every BITMEM cell stays. -/
def Obligations.EmballIsItsSequence : Prop :=
  ∀ s : State, ReadyFor .emball s →
    exec .emball s = execSeq (.dgen :: .seek 0 :: List.replicate s.nblk .embblk) s ∧
      ∃ t, exec .emball s = .next t ∧ t.bidx.toNat = s.nblk ∧ t.dv = true ∧ t.dth = ditherTable s.key s.stepSize ∧
        (∀ a, s.width.toNat * s.height.toNat ≤ a → readPlane t a = readPlane s a) ∧
        (s.nblk = 0 → SameBlock s t ∧ SameGroup s t) ∧
        (0 < s.nblk → t.gv = true ∧ ∀ i : Fin 64, t.blkv[i] = true) ∧
        SameConfiguration s t ∧ SameFaultRecord s t ∧ SameBitmem s t ∧ SameHost s t

/-- R198, R200, R201: likewise EXTALL with EXTBLK, which leaves PLANE and every BITMEM cell from BITLEN on. -/
def Obligations.ExtallIsItsSequence : Prop :=
  ∀ s : State, ReadyFor .extall s →
    exec .extall s = execSeq (.dgen :: .seek 0 :: List.replicate s.nblk .extblk) s ∧
      ∃ t, exec .extall s = .next t ∧ t.bidx.toNat = s.nblk ∧ t.dv = true ∧ t.dth = ditherTable s.key s.stepSize ∧
        (∀ a, s.bitLen.toNat ≤ a → readBit t a = readBit s a) ∧
        (s.nblk = 0 → SameBlock s t ∧ SameGroup s t) ∧
        (0 < s.nblk → t.gv = true ∧ ∀ i : Fin 64, t.blkv[i] = true) ∧
        SameConfiguration s t ∧ SameFaultRecord s t ∧ SamePlane s t ∧ SameHost s t

/-- R197, R198, R211, R228 (the source's boundary property): with legal dimensions and a BITLEN other than 12·NBLK, too
short or too long, EMBALL, EXTALL and CHECK raise PayloadLengthMismatch, record their word, and change nothing else.
-/
def Obligations.WrongStreamLengthFailsAtEntry : Prop :=
  ∀ (i : Instr) (s : State), (i = .emball ∨ i = .extall ∨ i = .check) → s.fault = false →
    s.width.toNat % 8 = 0 → s.height.toNat % 8 = 0 → (s.width.toNat / 8) * (s.height.toNat / 8) ≤ s.cfg.maxBlk →
    s.bitLen.toNat ≠ 12 * ((s.width.toNat / 8) * (s.height.toNat / 8)) →
      ∃ t, exec i s = .next t ∧ t.fault = true ∧ t.err = 2 ∧ t.errInfo = encode i ∧ SameButFault s t

/-! ## The whole machine -/

/-- R31 to R38, R40 to R44, R75, R217: a command other than SRST writes only what the last column of R217 lists for
it, whether it completes or raises an error. -/
def Obligations.CommandsWriteOnlyWhatTheyList : Prop :=
  ∀ (i : Instr) (s t : State), i ≠ .srst → exec i s = .next t →
    SameConfiguration s t ∧ SameHost s t ∧
    ((∀ imm, i ≠ .seek imm) → i ∉ [.next, .embblk, .extblk, .emball, .extall] → t.bidx = s.bidx) ∧
    (i ∉ [.bld, .fdct, .idct, .qemb, .embblk, .extblk, .emball, .extall] → t.blk = s.blk) ∧
    (i ∉ [.bld, .embblk, .extblk, .emball, .extall] → t.blkv = s.blkv) ∧
    (i ∉ [.bitld, .qext, .embblk, .extblk, .emball, .extall] → SameGroup s t) ∧
    (i ∉ [.dgen, .emball, .extall] → SameDither s t) ∧
    (i ∉ [.bst, .embblk, .emball] → SamePlane s t) ∧
    (i ∉ [.bitst, .extblk, .extall] → SameBitmem s t)

/-- R40, R42, R44, R45: a step clears a valid flag only if it is a reset or, for DV, a register write to KEY or
STEP. -/
def Obligations.ValidFlagsAreClearedOnlyByResetOrInvalidation : Prop :=
  ∀ s t : State, step s = .next t →
    (∃ rest, s.inputs = .resetLine :: rest ∨
      s.inputs = .writeReg .dword 0x000#10 0x000000000000000F#64 :: rest) ∨
    ((∀ i : Fin 64, s.blkv[i] = true → t.blkv[i] = true) ∧ (s.gv = true → t.gv = true) ∧
      (s.dv = true → t.dv = true ∨ (s.fault = false ∧ ∃ v rest, s.inputs = .writeReg .dword 0x048#10 v :: rest ∨
        s.inputs = .writeReg .dword 0x050#10 v :: rest)))

/-- R10, R44, R46, R47, R51: every step keeps the machine well: a legal MAXBLK, both memories in canonical form with
no cell outside them, ERR and ERRINFO zero in READY and ERR one of the six codes in FAULTED, and the dither table that
of the present KEY and a legal STEP while DV = 1. -/
def Obligations.StepKeepsTheInvariant : Prop := ∀ s t : State, s.Inv → step s = .next t → t.Inv

/-- The invariant every step keeps (`State.Inv`) holds of the state after reset. -/
def Obligations.ResetIsWellKept : Prop := State.reset.Inv

/-! ## Numerics (00_scope.md R16, 41_blockgrid.md R123, R126) -/

/-- R16, roundTiesToEven: a finite result of the one rounding is representable, no representable magnitude is nearer
to the exact num / 2^d, and of two equally near the even one is taken. Where the rounding overflows to an infinity it
says nothing. -/
def Obligations.RoundingIsToNearestEven : Prop :=
  ∀ (neg : Bool) (num d : Nat) (neg' : Bool) (mag : Nat), roundNearest neg num d = .fin neg' mag →
    neg' = neg ∧ magRepresentable mag ∧
      ∀ b, magRepresentable b →
        |(num : Int) - mag * 2 ^ d| ≤ |(num : Int) - b * 2 ^ d| ∧
        (b ≠ mag → |(num : Int) - mag * 2 ^ d| = |(num : Int) - b * 2 ^ d| →
          mag / 2 ^ (Nat.log2 mag - 52) % 2 = 0)

/-- R16: where the quotient of two finite values is finite, no representable magnitude is nearer to the exact quotient.
It says nothing of ties (met among the subnormal quotients) and of overflow. That the sign of a quotient of zero, too,
is the exclusive or of the signs is the model's, after IEEE 754 (log entry 15). -/
def Obligations.DivisionIsRoundedOnce : Prop :=
  ∀ (na nb : Bool) (x y : Nat) (neg : Bool) (mag : Nat), y ≠ 0 → fdiv (.fin na x) (.fin nb y) = .fin neg mag →
    neg = (na ^^ nb) ∧ magRepresentable mag ∧
      ∀ b, magRepresentable b →
        |((x * unit : Nat) : Int) - (mag * y : Nat)| ≤ |((x * unit : Nat) : Int) - (b * y : Nat)|

/-- R123: cvt_u8 is exact and has no level shift, with the patterns the rule lists. -/
def Obligations.SampleConversionIsExact : Prop :=
  (∀ n : Byte, unpack (cvtU8 n) = .fin false (n.toNat * unit)) ∧ cvtU8 0 = 0x0000000000000000#64 ∧
    cvtU8 1 = 0x3FF0000000000000#64 ∧ cvtU8 128 = 0x4060000000000000#64 ∧ cvtU8 255 = 0x406FE00000000000#64

/-- R126: ToByte takes a NaN and -infinity to 0, +infinity to 255, what is below 0.5 to 0, what is from 254.5 on to
255, and between them the value to the n with n - 0.5 ≤ x < n + 0.5; the largest value below 0.5 goes to 0. -/
def Obligations.ToByteRoundsAndClamps : Prop :=
  toByte .nan = 0 ∧ toByte (.inf false) = 255 ∧ toByte (.inf true) = 0 ∧
    (∀ (neg : Bool) (mag : Nat), 2 * signedMag neg mag < unit → toByte (.fin neg mag) = 0) ∧
    (∀ (neg : Bool) (mag : Nat), 509 * (unit : Int) ≤ 2 * signedMag neg mag → toByte (.fin neg mag) = 255) ∧
    (∀ (neg : Bool) (mag n : Nat), n ≤ 255 → (2 * (n : Int) - 1) * unit ≤ 2 * signedMag neg mag →
      2 * signedMag neg mag < (2 * n + 1) * unit → (toByte (.fin neg mag)).toNat = n) ∧
    toByte (unpack 0x3FDFFFFFFFFFFFFF#64) = 0

end Statements
end

