-- ==== Sys2Proof/Laws/State.lean ====
section
/-! SUPPORT. What each named update of the state does to each field: one lemma per field per update, true by rfl. -/

namespace Sys2Proof.Machine

variable (s : State)

/-! ### setWidth -/

@[simp] theorem State.setWidth_width (v : BitVec 16) : (s.setWidth v).width = v := rfl
@[simp] theorem State.setWidth_height (v : BitVec 16) : (s.setWidth v).height = s.height := rfl
@[simp] theorem State.setWidth_bitLen (v : BitVec 16) : (s.setWidth v).bitLen = s.bitLen := rfl
@[simp] theorem State.setWidth_key (v : BitVec 16) : (s.setWidth v).key = s.key := rfl
@[simp] theorem State.setWidth_stepSize (v : BitVec 16) : (s.setWidth v).stepSize = s.stepSize := rfl
@[simp] theorem State.setWidth_ie (v : BitVec 16) : (s.setWidth v).ie = s.ie := rfl
@[simp] theorem State.setWidth_bidx (v : BitVec 16) : (s.setWidth v).bidx = s.bidx := rfl
@[simp] theorem State.setWidth_blk (v : BitVec 16) : (s.setWidth v).blk = s.blk := rfl
@[simp] theorem State.setWidth_blkv (v : BitVec 16) : (s.setWidth v).blkv = s.blkv := rfl
@[simp] theorem State.setWidth_bits (v : BitVec 16) : (s.setWidth v).bits = s.bits := rfl
@[simp] theorem State.setWidth_gv (v : BitVec 16) : (s.setWidth v).gv = s.gv := rfl
@[simp] theorem State.setWidth_dth (v : BitVec 16) : (s.setWidth v).dth = s.dth := rfl
@[simp] theorem State.setWidth_dv (v : BitVec 16) : (s.setWidth v).dv = s.dv := rfl
@[simp] theorem State.setWidth_fault (v : BitVec 16) : (s.setWidth v).fault = s.fault := rfl
@[simp] theorem State.setWidth_err (v : BitVec 16) : (s.setWidth v).err = s.err := rfl
@[simp] theorem State.setWidth_errInfo (v : BitVec 16) : (s.setWidth v).errInfo = s.errInfo := rfl
@[simp] theorem State.setWidth_plane (v : BitVec 16) : (s.setWidth v).plane = s.plane := rfl
@[simp] theorem State.setWidth_bitmem (v : BitVec 16) : (s.setWidth v).bitmem = s.bitmem := rfl
@[simp] theorem State.setWidth_cfg (v : BitVec 16) : (s.setWidth v).cfg = s.cfg := rfl
@[simp] theorem State.setWidth_inputs (v : BitVec 16) : (s.setWidth v).inputs = s.inputs := rfl
@[simp] theorem State.setWidth_hostData (v : BitVec 16) : (s.setWidth v).hostData = s.hostData := rfl
@[simp] theorem State.setWidth_freeCtr (v : BitVec 16) : (s.setWidth v).freeCtr = s.freeCtr := rfl

/-! ### setHeight -/

@[simp] theorem State.setHeight_width (v : BitVec 16) : (s.setHeight v).width = s.width := rfl
@[simp] theorem State.setHeight_height (v : BitVec 16) : (s.setHeight v).height = v := rfl
@[simp] theorem State.setHeight_bitLen (v : BitVec 16) : (s.setHeight v).bitLen = s.bitLen := rfl
@[simp] theorem State.setHeight_key (v : BitVec 16) : (s.setHeight v).key = s.key := rfl
@[simp] theorem State.setHeight_stepSize (v : BitVec 16) : (s.setHeight v).stepSize = s.stepSize := rfl
@[simp] theorem State.setHeight_ie (v : BitVec 16) : (s.setHeight v).ie = s.ie := rfl
@[simp] theorem State.setHeight_bidx (v : BitVec 16) : (s.setHeight v).bidx = s.bidx := rfl
@[simp] theorem State.setHeight_blk (v : BitVec 16) : (s.setHeight v).blk = s.blk := rfl
@[simp] theorem State.setHeight_blkv (v : BitVec 16) : (s.setHeight v).blkv = s.blkv := rfl
@[simp] theorem State.setHeight_bits (v : BitVec 16) : (s.setHeight v).bits = s.bits := rfl
@[simp] theorem State.setHeight_gv (v : BitVec 16) : (s.setHeight v).gv = s.gv := rfl
@[simp] theorem State.setHeight_dth (v : BitVec 16) : (s.setHeight v).dth = s.dth := rfl
@[simp] theorem State.setHeight_dv (v : BitVec 16) : (s.setHeight v).dv = s.dv := rfl
@[simp] theorem State.setHeight_fault (v : BitVec 16) : (s.setHeight v).fault = s.fault := rfl
@[simp] theorem State.setHeight_err (v : BitVec 16) : (s.setHeight v).err = s.err := rfl
@[simp] theorem State.setHeight_errInfo (v : BitVec 16) : (s.setHeight v).errInfo = s.errInfo := rfl
@[simp] theorem State.setHeight_plane (v : BitVec 16) : (s.setHeight v).plane = s.plane := rfl
@[simp] theorem State.setHeight_bitmem (v : BitVec 16) : (s.setHeight v).bitmem = s.bitmem := rfl
@[simp] theorem State.setHeight_cfg (v : BitVec 16) : (s.setHeight v).cfg = s.cfg := rfl
@[simp] theorem State.setHeight_inputs (v : BitVec 16) : (s.setHeight v).inputs = s.inputs := rfl
@[simp] theorem State.setHeight_hostData (v : BitVec 16) : (s.setHeight v).hostData = s.hostData := rfl
@[simp] theorem State.setHeight_freeCtr (v : BitVec 16) : (s.setHeight v).freeCtr = s.freeCtr := rfl

/-! ### setBitLen -/

@[simp] theorem State.setBitLen_width (v : BitVec 32) : (s.setBitLen v).width = s.width := rfl
@[simp] theorem State.setBitLen_height (v : BitVec 32) : (s.setBitLen v).height = s.height := rfl
@[simp] theorem State.setBitLen_bitLen (v : BitVec 32) : (s.setBitLen v).bitLen = v := rfl
@[simp] theorem State.setBitLen_key (v : BitVec 32) : (s.setBitLen v).key = s.key := rfl
@[simp] theorem State.setBitLen_stepSize (v : BitVec 32) : (s.setBitLen v).stepSize = s.stepSize := rfl
@[simp] theorem State.setBitLen_ie (v : BitVec 32) : (s.setBitLen v).ie = s.ie := rfl
@[simp] theorem State.setBitLen_bidx (v : BitVec 32) : (s.setBitLen v).bidx = s.bidx := rfl
@[simp] theorem State.setBitLen_blk (v : BitVec 32) : (s.setBitLen v).blk = s.blk := rfl
@[simp] theorem State.setBitLen_blkv (v : BitVec 32) : (s.setBitLen v).blkv = s.blkv := rfl
@[simp] theorem State.setBitLen_bits (v : BitVec 32) : (s.setBitLen v).bits = s.bits := rfl
@[simp] theorem State.setBitLen_gv (v : BitVec 32) : (s.setBitLen v).gv = s.gv := rfl
@[simp] theorem State.setBitLen_dth (v : BitVec 32) : (s.setBitLen v).dth = s.dth := rfl
@[simp] theorem State.setBitLen_dv (v : BitVec 32) : (s.setBitLen v).dv = s.dv := rfl
@[simp] theorem State.setBitLen_fault (v : BitVec 32) : (s.setBitLen v).fault = s.fault := rfl
@[simp] theorem State.setBitLen_err (v : BitVec 32) : (s.setBitLen v).err = s.err := rfl
@[simp] theorem State.setBitLen_errInfo (v : BitVec 32) : (s.setBitLen v).errInfo = s.errInfo := rfl
@[simp] theorem State.setBitLen_plane (v : BitVec 32) : (s.setBitLen v).plane = s.plane := rfl
@[simp] theorem State.setBitLen_bitmem (v : BitVec 32) : (s.setBitLen v).bitmem = s.bitmem := rfl
@[simp] theorem State.setBitLen_cfg (v : BitVec 32) : (s.setBitLen v).cfg = s.cfg := rfl
@[simp] theorem State.setBitLen_inputs (v : BitVec 32) : (s.setBitLen v).inputs = s.inputs := rfl
@[simp] theorem State.setBitLen_hostData (v : BitVec 32) : (s.setBitLen v).hostData = s.hostData := rfl
@[simp] theorem State.setBitLen_freeCtr (v : BitVec 32) : (s.setBitLen v).freeCtr = s.freeCtr := rfl

/-! ### setKey -/

@[simp] theorem State.setKey_width (v : Word) : (s.setKey v).width = s.width := rfl
@[simp] theorem State.setKey_height (v : Word) : (s.setKey v).height = s.height := rfl
@[simp] theorem State.setKey_bitLen (v : Word) : (s.setKey v).bitLen = s.bitLen := rfl
@[simp] theorem State.setKey_key (v : Word) : (s.setKey v).key = v := rfl
@[simp] theorem State.setKey_stepSize (v : Word) : (s.setKey v).stepSize = s.stepSize := rfl
@[simp] theorem State.setKey_ie (v : Word) : (s.setKey v).ie = s.ie := rfl
@[simp] theorem State.setKey_bidx (v : Word) : (s.setKey v).bidx = s.bidx := rfl
@[simp] theorem State.setKey_blk (v : Word) : (s.setKey v).blk = s.blk := rfl
@[simp] theorem State.setKey_blkv (v : Word) : (s.setKey v).blkv = s.blkv := rfl
@[simp] theorem State.setKey_bits (v : Word) : (s.setKey v).bits = s.bits := rfl
@[simp] theorem State.setKey_gv (v : Word) : (s.setKey v).gv = s.gv := rfl
@[simp] theorem State.setKey_dth (v : Word) : (s.setKey v).dth = s.dth := rfl
@[simp] theorem State.setKey_dv (v : Word) : (s.setKey v).dv = false := rfl
@[simp] theorem State.setKey_fault (v : Word) : (s.setKey v).fault = s.fault := rfl
@[simp] theorem State.setKey_err (v : Word) : (s.setKey v).err = s.err := rfl
@[simp] theorem State.setKey_errInfo (v : Word) : (s.setKey v).errInfo = s.errInfo := rfl
@[simp] theorem State.setKey_plane (v : Word) : (s.setKey v).plane = s.plane := rfl
@[simp] theorem State.setKey_bitmem (v : Word) : (s.setKey v).bitmem = s.bitmem := rfl
@[simp] theorem State.setKey_cfg (v : Word) : (s.setKey v).cfg = s.cfg := rfl
@[simp] theorem State.setKey_inputs (v : Word) : (s.setKey v).inputs = s.inputs := rfl
@[simp] theorem State.setKey_hostData (v : Word) : (s.setKey v).hostData = s.hostData := rfl
@[simp] theorem State.setKey_freeCtr (v : Word) : (s.setKey v).freeCtr = s.freeCtr := rfl

/-! ### setStepSize -/

@[simp] theorem State.setStepSize_width (v : Word) : (s.setStepSize v).width = s.width := rfl
@[simp] theorem State.setStepSize_height (v : Word) : (s.setStepSize v).height = s.height := rfl
@[simp] theorem State.setStepSize_bitLen (v : Word) : (s.setStepSize v).bitLen = s.bitLen := rfl
@[simp] theorem State.setStepSize_key (v : Word) : (s.setStepSize v).key = s.key := rfl
@[simp] theorem State.setStepSize_stepSize (v : Word) : (s.setStepSize v).stepSize = v := rfl
@[simp] theorem State.setStepSize_ie (v : Word) : (s.setStepSize v).ie = s.ie := rfl
@[simp] theorem State.setStepSize_bidx (v : Word) : (s.setStepSize v).bidx = s.bidx := rfl
@[simp] theorem State.setStepSize_blk (v : Word) : (s.setStepSize v).blk = s.blk := rfl
@[simp] theorem State.setStepSize_blkv (v : Word) : (s.setStepSize v).blkv = s.blkv := rfl
@[simp] theorem State.setStepSize_bits (v : Word) : (s.setStepSize v).bits = s.bits := rfl
@[simp] theorem State.setStepSize_gv (v : Word) : (s.setStepSize v).gv = s.gv := rfl
@[simp] theorem State.setStepSize_dth (v : Word) : (s.setStepSize v).dth = s.dth := rfl
@[simp] theorem State.setStepSize_dv (v : Word) : (s.setStepSize v).dv = false := rfl
@[simp] theorem State.setStepSize_fault (v : Word) : (s.setStepSize v).fault = s.fault := rfl
@[simp] theorem State.setStepSize_err (v : Word) : (s.setStepSize v).err = s.err := rfl
@[simp] theorem State.setStepSize_errInfo (v : Word) : (s.setStepSize v).errInfo = s.errInfo := rfl
@[simp] theorem State.setStepSize_plane (v : Word) : (s.setStepSize v).plane = s.plane := rfl
@[simp] theorem State.setStepSize_bitmem (v : Word) : (s.setStepSize v).bitmem = s.bitmem := rfl
@[simp] theorem State.setStepSize_cfg (v : Word) : (s.setStepSize v).cfg = s.cfg := rfl
@[simp] theorem State.setStepSize_inputs (v : Word) : (s.setStepSize v).inputs = s.inputs := rfl
@[simp] theorem State.setStepSize_hostData (v : Word) : (s.setStepSize v).hostData = s.hostData := rfl
@[simp] theorem State.setStepSize_freeCtr (v : Word) : (s.setStepSize v).freeCtr = s.freeCtr := rfl

/-! ### setIE -/

@[simp] theorem State.setIE_width (v : Bool) : (s.setIE v).width = s.width := rfl
@[simp] theorem State.setIE_height (v : Bool) : (s.setIE v).height = s.height := rfl
@[simp] theorem State.setIE_bitLen (v : Bool) : (s.setIE v).bitLen = s.bitLen := rfl
@[simp] theorem State.setIE_key (v : Bool) : (s.setIE v).key = s.key := rfl
@[simp] theorem State.setIE_stepSize (v : Bool) : (s.setIE v).stepSize = s.stepSize := rfl
@[simp] theorem State.setIE_ie (v : Bool) : (s.setIE v).ie = v := rfl
@[simp] theorem State.setIE_bidx (v : Bool) : (s.setIE v).bidx = s.bidx := rfl
@[simp] theorem State.setIE_blk (v : Bool) : (s.setIE v).blk = s.blk := rfl
@[simp] theorem State.setIE_blkv (v : Bool) : (s.setIE v).blkv = s.blkv := rfl
@[simp] theorem State.setIE_bits (v : Bool) : (s.setIE v).bits = s.bits := rfl
@[simp] theorem State.setIE_gv (v : Bool) : (s.setIE v).gv = s.gv := rfl
@[simp] theorem State.setIE_dth (v : Bool) : (s.setIE v).dth = s.dth := rfl
@[simp] theorem State.setIE_dv (v : Bool) : (s.setIE v).dv = s.dv := rfl
@[simp] theorem State.setIE_fault (v : Bool) : (s.setIE v).fault = s.fault := rfl
@[simp] theorem State.setIE_err (v : Bool) : (s.setIE v).err = s.err := rfl
@[simp] theorem State.setIE_errInfo (v : Bool) : (s.setIE v).errInfo = s.errInfo := rfl
@[simp] theorem State.setIE_plane (v : Bool) : (s.setIE v).plane = s.plane := rfl
@[simp] theorem State.setIE_bitmem (v : Bool) : (s.setIE v).bitmem = s.bitmem := rfl
@[simp] theorem State.setIE_cfg (v : Bool) : (s.setIE v).cfg = s.cfg := rfl
@[simp] theorem State.setIE_inputs (v : Bool) : (s.setIE v).inputs = s.inputs := rfl
@[simp] theorem State.setIE_hostData (v : Bool) : (s.setIE v).hostData = s.hostData := rfl
@[simp] theorem State.setIE_freeCtr (v : Bool) : (s.setIE v).freeCtr = s.freeCtr := rfl

/-! ### setBidx -/

@[simp] theorem State.setBidx_width (v : BitVec 32) : (s.setBidx v).width = s.width := rfl
@[simp] theorem State.setBidx_height (v : BitVec 32) : (s.setBidx v).height = s.height := rfl
@[simp] theorem State.setBidx_bitLen (v : BitVec 32) : (s.setBidx v).bitLen = s.bitLen := rfl
@[simp] theorem State.setBidx_key (v : BitVec 32) : (s.setBidx v).key = s.key := rfl
@[simp] theorem State.setBidx_stepSize (v : BitVec 32) : (s.setBidx v).stepSize = s.stepSize := rfl
@[simp] theorem State.setBidx_ie (v : BitVec 32) : (s.setBidx v).ie = s.ie := rfl
@[simp] theorem State.setBidx_bidx (v : BitVec 32) : (s.setBidx v).bidx = v := rfl
@[simp] theorem State.setBidx_blk (v : BitVec 32) : (s.setBidx v).blk = s.blk := rfl
@[simp] theorem State.setBidx_blkv (v : BitVec 32) : (s.setBidx v).blkv = s.blkv := rfl
@[simp] theorem State.setBidx_bits (v : BitVec 32) : (s.setBidx v).bits = s.bits := rfl
@[simp] theorem State.setBidx_gv (v : BitVec 32) : (s.setBidx v).gv = s.gv := rfl
@[simp] theorem State.setBidx_dth (v : BitVec 32) : (s.setBidx v).dth = s.dth := rfl
@[simp] theorem State.setBidx_dv (v : BitVec 32) : (s.setBidx v).dv = s.dv := rfl
@[simp] theorem State.setBidx_fault (v : BitVec 32) : (s.setBidx v).fault = s.fault := rfl
@[simp] theorem State.setBidx_err (v : BitVec 32) : (s.setBidx v).err = s.err := rfl
@[simp] theorem State.setBidx_errInfo (v : BitVec 32) : (s.setBidx v).errInfo = s.errInfo := rfl
@[simp] theorem State.setBidx_plane (v : BitVec 32) : (s.setBidx v).plane = s.plane := rfl
@[simp] theorem State.setBidx_bitmem (v : BitVec 32) : (s.setBidx v).bitmem = s.bitmem := rfl
@[simp] theorem State.setBidx_cfg (v : BitVec 32) : (s.setBidx v).cfg = s.cfg := rfl
@[simp] theorem State.setBidx_inputs (v : BitVec 32) : (s.setBidx v).inputs = s.inputs := rfl
@[simp] theorem State.setBidx_hostData (v : BitVec 32) : (s.setBidx v).hostData = s.hostData := rfl
@[simp] theorem State.setBidx_freeCtr (v : BitVec 32) : (s.setBidx v).freeCtr = s.freeCtr := rfl

/-! ### setBlkElement -/

@[simp] theorem State.setBlkElement_width (i : Fin 64) (v : Word) : (s.setBlkElement i v).width = s.width := rfl
@[simp] theorem State.setBlkElement_height (i : Fin 64) (v : Word) : (s.setBlkElement i v).height = s.height := rfl
@[simp] theorem State.setBlkElement_bitLen (i : Fin 64) (v : Word) : (s.setBlkElement i v).bitLen = s.bitLen := rfl
@[simp] theorem State.setBlkElement_key (i : Fin 64) (v : Word) : (s.setBlkElement i v).key = s.key := rfl
@[simp] theorem State.setBlkElement_stepSize (i : Fin 64) (v : Word) : (s.setBlkElement i v).stepSize = s.stepSize := rfl
@[simp] theorem State.setBlkElement_ie (i : Fin 64) (v : Word) : (s.setBlkElement i v).ie = s.ie := rfl
@[simp] theorem State.setBlkElement_bidx (i : Fin 64) (v : Word) : (s.setBlkElement i v).bidx = s.bidx := rfl
@[simp] theorem State.setBlkElement_blk (i : Fin 64) (v : Word) : (s.setBlkElement i v).blk = s.blk.set i v := rfl
@[simp] theorem State.setBlkElement_blkv (i : Fin 64) (v : Word) : (s.setBlkElement i v).blkv = s.blkv.set i true := rfl
@[simp] theorem State.setBlkElement_bits (i : Fin 64) (v : Word) : (s.setBlkElement i v).bits = s.bits := rfl
@[simp] theorem State.setBlkElement_gv (i : Fin 64) (v : Word) : (s.setBlkElement i v).gv = s.gv := rfl
@[simp] theorem State.setBlkElement_dth (i : Fin 64) (v : Word) : (s.setBlkElement i v).dth = s.dth := rfl
@[simp] theorem State.setBlkElement_dv (i : Fin 64) (v : Word) : (s.setBlkElement i v).dv = s.dv := rfl
@[simp] theorem State.setBlkElement_fault (i : Fin 64) (v : Word) : (s.setBlkElement i v).fault = s.fault := rfl
@[simp] theorem State.setBlkElement_err (i : Fin 64) (v : Word) : (s.setBlkElement i v).err = s.err := rfl
@[simp] theorem State.setBlkElement_errInfo (i : Fin 64) (v : Word) : (s.setBlkElement i v).errInfo = s.errInfo := rfl
@[simp] theorem State.setBlkElement_plane (i : Fin 64) (v : Word) : (s.setBlkElement i v).plane = s.plane := rfl
@[simp] theorem State.setBlkElement_bitmem (i : Fin 64) (v : Word) : (s.setBlkElement i v).bitmem = s.bitmem := rfl
@[simp] theorem State.setBlkElement_cfg (i : Fin 64) (v : Word) : (s.setBlkElement i v).cfg = s.cfg := rfl
@[simp] theorem State.setBlkElement_inputs (i : Fin 64) (v : Word) : (s.setBlkElement i v).inputs = s.inputs := rfl
@[simp] theorem State.setBlkElement_hostData (i : Fin 64) (v : Word) : (s.setBlkElement i v).hostData = s.hostData := rfl
@[simp] theorem State.setBlkElement_freeCtr (i : Fin 64) (v : Word) : (s.setBlkElement i v).freeCtr = s.freeCtr := rfl

/-! ### loadBlk -/

@[simp] theorem State.loadBlk_width (b : Vector Word 64) : (s.loadBlk b).width = s.width := rfl
@[simp] theorem State.loadBlk_height (b : Vector Word 64) : (s.loadBlk b).height = s.height := rfl
@[simp] theorem State.loadBlk_bitLen (b : Vector Word 64) : (s.loadBlk b).bitLen = s.bitLen := rfl
@[simp] theorem State.loadBlk_key (b : Vector Word 64) : (s.loadBlk b).key = s.key := rfl
@[simp] theorem State.loadBlk_stepSize (b : Vector Word 64) : (s.loadBlk b).stepSize = s.stepSize := rfl
@[simp] theorem State.loadBlk_ie (b : Vector Word 64) : (s.loadBlk b).ie = s.ie := rfl
@[simp] theorem State.loadBlk_bidx (b : Vector Word 64) : (s.loadBlk b).bidx = s.bidx := rfl
@[simp] theorem State.loadBlk_blk (b : Vector Word 64) : (s.loadBlk b).blk = b := rfl
@[simp] theorem State.loadBlk_blkv (b : Vector Word 64) : (s.loadBlk b).blkv = Vector.replicate 64 true := rfl
@[simp] theorem State.loadBlk_bits (b : Vector Word 64) : (s.loadBlk b).bits = s.bits := rfl
@[simp] theorem State.loadBlk_gv (b : Vector Word 64) : (s.loadBlk b).gv = s.gv := rfl
@[simp] theorem State.loadBlk_dth (b : Vector Word 64) : (s.loadBlk b).dth = s.dth := rfl
@[simp] theorem State.loadBlk_dv (b : Vector Word 64) : (s.loadBlk b).dv = s.dv := rfl
@[simp] theorem State.loadBlk_fault (b : Vector Word 64) : (s.loadBlk b).fault = s.fault := rfl
@[simp] theorem State.loadBlk_err (b : Vector Word 64) : (s.loadBlk b).err = s.err := rfl
@[simp] theorem State.loadBlk_errInfo (b : Vector Word 64) : (s.loadBlk b).errInfo = s.errInfo := rfl
@[simp] theorem State.loadBlk_plane (b : Vector Word 64) : (s.loadBlk b).plane = s.plane := rfl
@[simp] theorem State.loadBlk_bitmem (b : Vector Word 64) : (s.loadBlk b).bitmem = s.bitmem := rfl
@[simp] theorem State.loadBlk_cfg (b : Vector Word 64) : (s.loadBlk b).cfg = s.cfg := rfl
@[simp] theorem State.loadBlk_inputs (b : Vector Word 64) : (s.loadBlk b).inputs = s.inputs := rfl
@[simp] theorem State.loadBlk_hostData (b : Vector Word 64) : (s.loadBlk b).hostData = s.hostData := rfl
@[simp] theorem State.loadBlk_freeCtr (b : Vector Word 64) : (s.loadBlk b).freeCtr = s.freeCtr := rfl

/-! ### storeBlk -/

@[simp] theorem State.storeBlk_width (b : Vector Word 64) : (s.storeBlk b).width = s.width := rfl
@[simp] theorem State.storeBlk_height (b : Vector Word 64) : (s.storeBlk b).height = s.height := rfl
@[simp] theorem State.storeBlk_bitLen (b : Vector Word 64) : (s.storeBlk b).bitLen = s.bitLen := rfl
@[simp] theorem State.storeBlk_key (b : Vector Word 64) : (s.storeBlk b).key = s.key := rfl
@[simp] theorem State.storeBlk_stepSize (b : Vector Word 64) : (s.storeBlk b).stepSize = s.stepSize := rfl
@[simp] theorem State.storeBlk_ie (b : Vector Word 64) : (s.storeBlk b).ie = s.ie := rfl
@[simp] theorem State.storeBlk_bidx (b : Vector Word 64) : (s.storeBlk b).bidx = s.bidx := rfl
@[simp] theorem State.storeBlk_blk (b : Vector Word 64) : (s.storeBlk b).blk = b := rfl
@[simp] theorem State.storeBlk_blkv (b : Vector Word 64) : (s.storeBlk b).blkv = s.blkv := rfl
@[simp] theorem State.storeBlk_bits (b : Vector Word 64) : (s.storeBlk b).bits = s.bits := rfl
@[simp] theorem State.storeBlk_gv (b : Vector Word 64) : (s.storeBlk b).gv = s.gv := rfl
@[simp] theorem State.storeBlk_dth (b : Vector Word 64) : (s.storeBlk b).dth = s.dth := rfl
@[simp] theorem State.storeBlk_dv (b : Vector Word 64) : (s.storeBlk b).dv = s.dv := rfl
@[simp] theorem State.storeBlk_fault (b : Vector Word 64) : (s.storeBlk b).fault = s.fault := rfl
@[simp] theorem State.storeBlk_err (b : Vector Word 64) : (s.storeBlk b).err = s.err := rfl
@[simp] theorem State.storeBlk_errInfo (b : Vector Word 64) : (s.storeBlk b).errInfo = s.errInfo := rfl
@[simp] theorem State.storeBlk_plane (b : Vector Word 64) : (s.storeBlk b).plane = s.plane := rfl
@[simp] theorem State.storeBlk_bitmem (b : Vector Word 64) : (s.storeBlk b).bitmem = s.bitmem := rfl
@[simp] theorem State.storeBlk_cfg (b : Vector Word 64) : (s.storeBlk b).cfg = s.cfg := rfl
@[simp] theorem State.storeBlk_inputs (b : Vector Word 64) : (s.storeBlk b).inputs = s.inputs := rfl
@[simp] theorem State.storeBlk_hostData (b : Vector Word 64) : (s.storeBlk b).hostData = s.hostData := rfl
@[simp] theorem State.storeBlk_freeCtr (b : Vector Word 64) : (s.storeBlk b).freeCtr = s.freeCtr := rfl

/-! ### setBits -/

@[simp] theorem State.setBits_width (v : BitVec 12) : (s.setBits v).width = s.width := rfl
@[simp] theorem State.setBits_height (v : BitVec 12) : (s.setBits v).height = s.height := rfl
@[simp] theorem State.setBits_bitLen (v : BitVec 12) : (s.setBits v).bitLen = s.bitLen := rfl
@[simp] theorem State.setBits_key (v : BitVec 12) : (s.setBits v).key = s.key := rfl
@[simp] theorem State.setBits_stepSize (v : BitVec 12) : (s.setBits v).stepSize = s.stepSize := rfl
@[simp] theorem State.setBits_ie (v : BitVec 12) : (s.setBits v).ie = s.ie := rfl
@[simp] theorem State.setBits_bidx (v : BitVec 12) : (s.setBits v).bidx = s.bidx := rfl
@[simp] theorem State.setBits_blk (v : BitVec 12) : (s.setBits v).blk = s.blk := rfl
@[simp] theorem State.setBits_blkv (v : BitVec 12) : (s.setBits v).blkv = s.blkv := rfl
@[simp] theorem State.setBits_bits (v : BitVec 12) : (s.setBits v).bits = v := rfl
@[simp] theorem State.setBits_gv (v : BitVec 12) : (s.setBits v).gv = true := rfl
@[simp] theorem State.setBits_dth (v : BitVec 12) : (s.setBits v).dth = s.dth := rfl
@[simp] theorem State.setBits_dv (v : BitVec 12) : (s.setBits v).dv = s.dv := rfl
@[simp] theorem State.setBits_fault (v : BitVec 12) : (s.setBits v).fault = s.fault := rfl
@[simp] theorem State.setBits_err (v : BitVec 12) : (s.setBits v).err = s.err := rfl
@[simp] theorem State.setBits_errInfo (v : BitVec 12) : (s.setBits v).errInfo = s.errInfo := rfl
@[simp] theorem State.setBits_plane (v : BitVec 12) : (s.setBits v).plane = s.plane := rfl
@[simp] theorem State.setBits_bitmem (v : BitVec 12) : (s.setBits v).bitmem = s.bitmem := rfl
@[simp] theorem State.setBits_cfg (v : BitVec 12) : (s.setBits v).cfg = s.cfg := rfl
@[simp] theorem State.setBits_inputs (v : BitVec 12) : (s.setBits v).inputs = s.inputs := rfl
@[simp] theorem State.setBits_hostData (v : BitVec 12) : (s.setBits v).hostData = s.hostData := rfl
@[simp] theorem State.setBits_freeCtr (v : BitVec 12) : (s.setBits v).freeCtr = s.freeCtr := rfl

/-! ### setDither -/

@[simp] theorem State.setDither_width (t : Vector DitherPair 12) : (s.setDither t).width = s.width := rfl
@[simp] theorem State.setDither_height (t : Vector DitherPair 12) : (s.setDither t).height = s.height := rfl
@[simp] theorem State.setDither_bitLen (t : Vector DitherPair 12) : (s.setDither t).bitLen = s.bitLen := rfl
@[simp] theorem State.setDither_key (t : Vector DitherPair 12) : (s.setDither t).key = s.key := rfl
@[simp] theorem State.setDither_stepSize (t : Vector DitherPair 12) : (s.setDither t).stepSize = s.stepSize := rfl
@[simp] theorem State.setDither_ie (t : Vector DitherPair 12) : (s.setDither t).ie = s.ie := rfl
@[simp] theorem State.setDither_bidx (t : Vector DitherPair 12) : (s.setDither t).bidx = s.bidx := rfl
@[simp] theorem State.setDither_blk (t : Vector DitherPair 12) : (s.setDither t).blk = s.blk := rfl
@[simp] theorem State.setDither_blkv (t : Vector DitherPair 12) : (s.setDither t).blkv = s.blkv := rfl
@[simp] theorem State.setDither_bits (t : Vector DitherPair 12) : (s.setDither t).bits = s.bits := rfl
@[simp] theorem State.setDither_gv (t : Vector DitherPair 12) : (s.setDither t).gv = s.gv := rfl
@[simp] theorem State.setDither_dth (t : Vector DitherPair 12) : (s.setDither t).dth = t := rfl
@[simp] theorem State.setDither_dv (t : Vector DitherPair 12) : (s.setDither t).dv = true := rfl
@[simp] theorem State.setDither_fault (t : Vector DitherPair 12) : (s.setDither t).fault = s.fault := rfl
@[simp] theorem State.setDither_err (t : Vector DitherPair 12) : (s.setDither t).err = s.err := rfl
@[simp] theorem State.setDither_errInfo (t : Vector DitherPair 12) : (s.setDither t).errInfo = s.errInfo := rfl
@[simp] theorem State.setDither_plane (t : Vector DitherPair 12) : (s.setDither t).plane = s.plane := rfl
@[simp] theorem State.setDither_bitmem (t : Vector DitherPair 12) : (s.setDither t).bitmem = s.bitmem := rfl
@[simp] theorem State.setDither_cfg (t : Vector DitherPair 12) : (s.setDither t).cfg = s.cfg := rfl
@[simp] theorem State.setDither_inputs (t : Vector DitherPair 12) : (s.setDither t).inputs = s.inputs := rfl
@[simp] theorem State.setDither_hostData (t : Vector DitherPair 12) : (s.setDither t).hostData = s.hostData := rfl
@[simp] theorem State.setDither_freeCtr (t : Vector DitherPair 12) : (s.setDither t).freeCtr = s.freeCtr := rfl

/-! ### setPlane -/

@[simp] theorem State.setPlane_width (m : List Host.Cell) : (s.setPlane m).width = s.width := rfl
@[simp] theorem State.setPlane_height (m : List Host.Cell) : (s.setPlane m).height = s.height := rfl
@[simp] theorem State.setPlane_bitLen (m : List Host.Cell) : (s.setPlane m).bitLen = s.bitLen := rfl
@[simp] theorem State.setPlane_key (m : List Host.Cell) : (s.setPlane m).key = s.key := rfl
@[simp] theorem State.setPlane_stepSize (m : List Host.Cell) : (s.setPlane m).stepSize = s.stepSize := rfl
@[simp] theorem State.setPlane_ie (m : List Host.Cell) : (s.setPlane m).ie = s.ie := rfl
@[simp] theorem State.setPlane_bidx (m : List Host.Cell) : (s.setPlane m).bidx = s.bidx := rfl
@[simp] theorem State.setPlane_blk (m : List Host.Cell) : (s.setPlane m).blk = s.blk := rfl
@[simp] theorem State.setPlane_blkv (m : List Host.Cell) : (s.setPlane m).blkv = s.blkv := rfl
@[simp] theorem State.setPlane_bits (m : List Host.Cell) : (s.setPlane m).bits = s.bits := rfl
@[simp] theorem State.setPlane_gv (m : List Host.Cell) : (s.setPlane m).gv = s.gv := rfl
@[simp] theorem State.setPlane_dth (m : List Host.Cell) : (s.setPlane m).dth = s.dth := rfl
@[simp] theorem State.setPlane_dv (m : List Host.Cell) : (s.setPlane m).dv = s.dv := rfl
@[simp] theorem State.setPlane_fault (m : List Host.Cell) : (s.setPlane m).fault = s.fault := rfl
@[simp] theorem State.setPlane_err (m : List Host.Cell) : (s.setPlane m).err = s.err := rfl
@[simp] theorem State.setPlane_errInfo (m : List Host.Cell) : (s.setPlane m).errInfo = s.errInfo := rfl
@[simp] theorem State.setPlane_plane (m : List Host.Cell) : (s.setPlane m).plane = m := rfl
@[simp] theorem State.setPlane_bitmem (m : List Host.Cell) : (s.setPlane m).bitmem = s.bitmem := rfl
@[simp] theorem State.setPlane_cfg (m : List Host.Cell) : (s.setPlane m).cfg = s.cfg := rfl
@[simp] theorem State.setPlane_inputs (m : List Host.Cell) : (s.setPlane m).inputs = s.inputs := rfl
@[simp] theorem State.setPlane_hostData (m : List Host.Cell) : (s.setPlane m).hostData = s.hostData := rfl
@[simp] theorem State.setPlane_freeCtr (m : List Host.Cell) : (s.setPlane m).freeCtr = s.freeCtr := rfl

/-! ### setBitmem -/

@[simp] theorem State.setBitmem_width (m : List (Nat × Bool)) : (s.setBitmem m).width = s.width := rfl
@[simp] theorem State.setBitmem_height (m : List (Nat × Bool)) : (s.setBitmem m).height = s.height := rfl
@[simp] theorem State.setBitmem_bitLen (m : List (Nat × Bool)) : (s.setBitmem m).bitLen = s.bitLen := rfl
@[simp] theorem State.setBitmem_key (m : List (Nat × Bool)) : (s.setBitmem m).key = s.key := rfl
@[simp] theorem State.setBitmem_stepSize (m : List (Nat × Bool)) : (s.setBitmem m).stepSize = s.stepSize := rfl
@[simp] theorem State.setBitmem_ie (m : List (Nat × Bool)) : (s.setBitmem m).ie = s.ie := rfl
@[simp] theorem State.setBitmem_bidx (m : List (Nat × Bool)) : (s.setBitmem m).bidx = s.bidx := rfl
@[simp] theorem State.setBitmem_blk (m : List (Nat × Bool)) : (s.setBitmem m).blk = s.blk := rfl
@[simp] theorem State.setBitmem_blkv (m : List (Nat × Bool)) : (s.setBitmem m).blkv = s.blkv := rfl
@[simp] theorem State.setBitmem_bits (m : List (Nat × Bool)) : (s.setBitmem m).bits = s.bits := rfl
@[simp] theorem State.setBitmem_gv (m : List (Nat × Bool)) : (s.setBitmem m).gv = s.gv := rfl
@[simp] theorem State.setBitmem_dth (m : List (Nat × Bool)) : (s.setBitmem m).dth = s.dth := rfl
@[simp] theorem State.setBitmem_dv (m : List (Nat × Bool)) : (s.setBitmem m).dv = s.dv := rfl
@[simp] theorem State.setBitmem_fault (m : List (Nat × Bool)) : (s.setBitmem m).fault = s.fault := rfl
@[simp] theorem State.setBitmem_err (m : List (Nat × Bool)) : (s.setBitmem m).err = s.err := rfl
@[simp] theorem State.setBitmem_errInfo (m : List (Nat × Bool)) : (s.setBitmem m).errInfo = s.errInfo := rfl
@[simp] theorem State.setBitmem_plane (m : List (Nat × Bool)) : (s.setBitmem m).plane = s.plane := rfl
@[simp] theorem State.setBitmem_bitmem (m : List (Nat × Bool)) : (s.setBitmem m).bitmem = m := rfl
@[simp] theorem State.setBitmem_cfg (m : List (Nat × Bool)) : (s.setBitmem m).cfg = s.cfg := rfl
@[simp] theorem State.setBitmem_inputs (m : List (Nat × Bool)) : (s.setBitmem m).inputs = s.inputs := rfl
@[simp] theorem State.setBitmem_hostData (m : List (Nat × Bool)) : (s.setBitmem m).hostData = s.hostData := rfl
@[simp] theorem State.setBitmem_freeCtr (m : List (Nat × Bool)) : (s.setBitmem m).freeCtr = s.freeCtr := rfl

/-! ### setInputs -/

@[simp] theorem State.setInputs_width (l : List HostAction) : (s.setInputs l).width = s.width := rfl
@[simp] theorem State.setInputs_height (l : List HostAction) : (s.setInputs l).height = s.height := rfl
@[simp] theorem State.setInputs_bitLen (l : List HostAction) : (s.setInputs l).bitLen = s.bitLen := rfl
@[simp] theorem State.setInputs_key (l : List HostAction) : (s.setInputs l).key = s.key := rfl
@[simp] theorem State.setInputs_stepSize (l : List HostAction) : (s.setInputs l).stepSize = s.stepSize := rfl
@[simp] theorem State.setInputs_ie (l : List HostAction) : (s.setInputs l).ie = s.ie := rfl
@[simp] theorem State.setInputs_bidx (l : List HostAction) : (s.setInputs l).bidx = s.bidx := rfl
@[simp] theorem State.setInputs_blk (l : List HostAction) : (s.setInputs l).blk = s.blk := rfl
@[simp] theorem State.setInputs_blkv (l : List HostAction) : (s.setInputs l).blkv = s.blkv := rfl
@[simp] theorem State.setInputs_bits (l : List HostAction) : (s.setInputs l).bits = s.bits := rfl
@[simp] theorem State.setInputs_gv (l : List HostAction) : (s.setInputs l).gv = s.gv := rfl
@[simp] theorem State.setInputs_dth (l : List HostAction) : (s.setInputs l).dth = s.dth := rfl
@[simp] theorem State.setInputs_dv (l : List HostAction) : (s.setInputs l).dv = s.dv := rfl
@[simp] theorem State.setInputs_fault (l : List HostAction) : (s.setInputs l).fault = s.fault := rfl
@[simp] theorem State.setInputs_err (l : List HostAction) : (s.setInputs l).err = s.err := rfl
@[simp] theorem State.setInputs_errInfo (l : List HostAction) : (s.setInputs l).errInfo = s.errInfo := rfl
@[simp] theorem State.setInputs_plane (l : List HostAction) : (s.setInputs l).plane = s.plane := rfl
@[simp] theorem State.setInputs_bitmem (l : List HostAction) : (s.setInputs l).bitmem = s.bitmem := rfl
@[simp] theorem State.setInputs_cfg (l : List HostAction) : (s.setInputs l).cfg = s.cfg := rfl
@[simp] theorem State.setInputs_inputs (l : List HostAction) : (s.setInputs l).inputs = l := rfl
@[simp] theorem State.setInputs_hostData (l : List HostAction) : (s.setInputs l).hostData = s.hostData := rfl
@[simp] theorem State.setInputs_freeCtr (l : List HostAction) : (s.setInputs l).freeCtr = s.freeCtr := rfl

/-! ### setHostData -/

@[simp] theorem State.setHostData_width (v : Word) : (s.setHostData v).width = s.width := rfl
@[simp] theorem State.setHostData_height (v : Word) : (s.setHostData v).height = s.height := rfl
@[simp] theorem State.setHostData_bitLen (v : Word) : (s.setHostData v).bitLen = s.bitLen := rfl
@[simp] theorem State.setHostData_key (v : Word) : (s.setHostData v).key = s.key := rfl
@[simp] theorem State.setHostData_stepSize (v : Word) : (s.setHostData v).stepSize = s.stepSize := rfl
@[simp] theorem State.setHostData_ie (v : Word) : (s.setHostData v).ie = s.ie := rfl
@[simp] theorem State.setHostData_bidx (v : Word) : (s.setHostData v).bidx = s.bidx := rfl
@[simp] theorem State.setHostData_blk (v : Word) : (s.setHostData v).blk = s.blk := rfl
@[simp] theorem State.setHostData_blkv (v : Word) : (s.setHostData v).blkv = s.blkv := rfl
@[simp] theorem State.setHostData_bits (v : Word) : (s.setHostData v).bits = s.bits := rfl
@[simp] theorem State.setHostData_gv (v : Word) : (s.setHostData v).gv = s.gv := rfl
@[simp] theorem State.setHostData_dth (v : Word) : (s.setHostData v).dth = s.dth := rfl
@[simp] theorem State.setHostData_dv (v : Word) : (s.setHostData v).dv = s.dv := rfl
@[simp] theorem State.setHostData_fault (v : Word) : (s.setHostData v).fault = s.fault := rfl
@[simp] theorem State.setHostData_err (v : Word) : (s.setHostData v).err = s.err := rfl
@[simp] theorem State.setHostData_errInfo (v : Word) : (s.setHostData v).errInfo = s.errInfo := rfl
@[simp] theorem State.setHostData_plane (v : Word) : (s.setHostData v).plane = s.plane := rfl
@[simp] theorem State.setHostData_bitmem (v : Word) : (s.setHostData v).bitmem = s.bitmem := rfl
@[simp] theorem State.setHostData_cfg (v : Word) : (s.setHostData v).cfg = s.cfg := rfl
@[simp] theorem State.setHostData_inputs (v : Word) : (s.setHostData v).inputs = s.inputs := rfl
@[simp] theorem State.setHostData_hostData (v : Word) : (s.setHostData v).hostData = v := rfl
@[simp] theorem State.setHostData_freeCtr (v : Word) : (s.setHostData v).freeCtr = s.freeCtr := rfl

/-! ### useFree -/

@[simp] theorem State.useFree_width (n : Nat) : (s.useFree n).width = s.width := rfl
@[simp] theorem State.useFree_height (n : Nat) : (s.useFree n).height = s.height := rfl
@[simp] theorem State.useFree_bitLen (n : Nat) : (s.useFree n).bitLen = s.bitLen := rfl
@[simp] theorem State.useFree_key (n : Nat) : (s.useFree n).key = s.key := rfl
@[simp] theorem State.useFree_stepSize (n : Nat) : (s.useFree n).stepSize = s.stepSize := rfl
@[simp] theorem State.useFree_ie (n : Nat) : (s.useFree n).ie = s.ie := rfl
@[simp] theorem State.useFree_bidx (n : Nat) : (s.useFree n).bidx = s.bidx := rfl
@[simp] theorem State.useFree_blk (n : Nat) : (s.useFree n).blk = s.blk := rfl
@[simp] theorem State.useFree_blkv (n : Nat) : (s.useFree n).blkv = s.blkv := rfl
@[simp] theorem State.useFree_bits (n : Nat) : (s.useFree n).bits = s.bits := rfl
@[simp] theorem State.useFree_gv (n : Nat) : (s.useFree n).gv = s.gv := rfl
@[simp] theorem State.useFree_dth (n : Nat) : (s.useFree n).dth = s.dth := rfl
@[simp] theorem State.useFree_dv (n : Nat) : (s.useFree n).dv = s.dv := rfl
@[simp] theorem State.useFree_fault (n : Nat) : (s.useFree n).fault = s.fault := rfl
@[simp] theorem State.useFree_err (n : Nat) : (s.useFree n).err = s.err := rfl
@[simp] theorem State.useFree_errInfo (n : Nat) : (s.useFree n).errInfo = s.errInfo := rfl
@[simp] theorem State.useFree_plane (n : Nat) : (s.useFree n).plane = s.plane := rfl
@[simp] theorem State.useFree_bitmem (n : Nat) : (s.useFree n).bitmem = s.bitmem := rfl
@[simp] theorem State.useFree_cfg (n : Nat) : (s.useFree n).cfg = s.cfg := rfl
@[simp] theorem State.useFree_inputs (n : Nat) : (s.useFree n).inputs = s.inputs := rfl
@[simp] theorem State.useFree_hostData (n : Nat) : (s.useFree n).hostData = s.hostData := rfl
@[simp] theorem State.useFree_freeCtr (n : Nat) : (s.useFree n).freeCtr = s.freeCtr + n := rfl

/-! ### raise -/

@[simp] theorem raise_width (e : CommandError) (w : Word) : (raise e w s).width = s.width := rfl
@[simp] theorem raise_height (e : CommandError) (w : Word) : (raise e w s).height = s.height := rfl
@[simp] theorem raise_bitLen (e : CommandError) (w : Word) : (raise e w s).bitLen = s.bitLen := rfl
@[simp] theorem raise_key (e : CommandError) (w : Word) : (raise e w s).key = s.key := rfl
@[simp] theorem raise_stepSize (e : CommandError) (w : Word) : (raise e w s).stepSize = s.stepSize := rfl
@[simp] theorem raise_ie (e : CommandError) (w : Word) : (raise e w s).ie = s.ie := rfl
@[simp] theorem raise_bidx (e : CommandError) (w : Word) : (raise e w s).bidx = s.bidx := rfl
@[simp] theorem raise_blk (e : CommandError) (w : Word) : (raise e w s).blk = s.blk := rfl
@[simp] theorem raise_blkv (e : CommandError) (w : Word) : (raise e w s).blkv = s.blkv := rfl
@[simp] theorem raise_bits (e : CommandError) (w : Word) : (raise e w s).bits = s.bits := rfl
@[simp] theorem raise_gv (e : CommandError) (w : Word) : (raise e w s).gv = s.gv := rfl
@[simp] theorem raise_dth (e : CommandError) (w : Word) : (raise e w s).dth = s.dth := rfl
@[simp] theorem raise_dv (e : CommandError) (w : Word) : (raise e w s).dv = s.dv := rfl
@[simp] theorem raise_fault (e : CommandError) (w : Word) : (raise e w s).fault = true := rfl
@[simp] theorem raise_err (e : CommandError) (w : Word) : (raise e w s).err = errorCode e := rfl
@[simp] theorem raise_errInfo (e : CommandError) (w : Word) : (raise e w s).errInfo = w := rfl
@[simp] theorem raise_plane (e : CommandError) (w : Word) : (raise e w s).plane = s.plane := rfl
@[simp] theorem raise_bitmem (e : CommandError) (w : Word) : (raise e w s).bitmem = s.bitmem := rfl
@[simp] theorem raise_cfg (e : CommandError) (w : Word) : (raise e w s).cfg = s.cfg := rfl
@[simp] theorem raise_inputs (e : CommandError) (w : Word) : (raise e w s).inputs = s.inputs := rfl
@[simp] theorem raise_hostData (e : CommandError) (w : Word) : (raise e w s).hostData = s.hostData := rfl
@[simp] theorem raise_freeCtr (e : CommandError) (w : Word) : (raise e w s).freeCtr = s.freeCtr := rfl

/-! ### resetEngine -/

@[simp] theorem resetEngine_width : (resetEngine s).width = 0 := rfl
@[simp] theorem resetEngine_height : (resetEngine s).height = 0 := rfl
@[simp] theorem resetEngine_bitLen : (resetEngine s).bitLen = 0 := rfl
@[simp] theorem resetEngine_key : (resetEngine s).key = 0 := rfl
@[simp] theorem resetEngine_stepSize : (resetEngine s).stepSize = 0 := rfl
@[simp] theorem resetEngine_ie : (resetEngine s).ie = false := rfl
@[simp] theorem resetEngine_bidx : (resetEngine s).bidx = 0 := rfl
@[simp] theorem resetEngine_blkv : (resetEngine s).blkv = Vector.replicate 64 false := rfl
@[simp] theorem resetEngine_gv : (resetEngine s).gv = false := rfl
@[simp] theorem resetEngine_dv : (resetEngine s).dv = false := rfl
@[simp] theorem resetEngine_fault : (resetEngine s).fault = false := rfl
@[simp] theorem resetEngine_err : (resetEngine s).err = 0 := rfl
@[simp] theorem resetEngine_errInfo : (resetEngine s).errInfo = 0 := rfl
@[simp] theorem resetEngine_plane : (resetEngine s).plane = s.plane := rfl
@[simp] theorem resetEngine_bitmem : (resetEngine s).bitmem = s.bitmem := rfl
@[simp] theorem resetEngine_cfg : (resetEngine s).cfg = s.cfg := rfl
@[simp] theorem resetEngine_inputs : (resetEngine s).inputs = s.inputs := rfl
@[simp] theorem resetEngine_hostData : (resetEngine s).hostData = s.hostData := rfl
@[simp] theorem resetEngine_freeCtr : (resetEngine s).freeCtr = s.freeCtr + resetFree := rfl

end Sys2Proof.Machine
end

