-- ==== Sys2Proof/Laws/Memory.lean ====
section
/-! SUPPORT. The laws of the two memories: reading after writing, and the canonical form. -/

namespace Sys2Proof.Machine

section Cells
variable {α : Type}

@[simp] theorem cellAt_nil (a : Nat) : cellAt ([] : List (Nat × α)) a = none := rfl

theorem cellAt_cons (b : Nat) (v : α) (rest : List (Nat × α)) (a : Nat) :
    cellAt ((b, v) :: rest) a = if a = b then some v else cellAt rest a := rfl

@[simp] theorem cellAt_setCell_same (m : List (Nat × α)) (a : Nat) (v : α) : cellAt (setCell m a v) a = some v := by
  induction m with
  | nil => simp [setCell, cellAt]
  | cons c rest ih =>
    obtain ⟨b, u⟩ := c
    unfold setCell
    split_ifs with h1 h2
    · simp [cellAt]
    · simp [cellAt]
    · simp [cellAt, h2, ih]

theorem cellAt_setCell_other (m : List (Nat × α)) (a b : Nat) (v : α) (h : b ≠ a) :
    cellAt (setCell m a v) b = cellAt m b := by
  induction m with
  | nil => simp [setCell, cellAt, h]
  | cons c rest ih =>
    obtain ⟨d, u⟩ := c
    unfold setCell
    split_ifs with h1 h2
    · simp [cellAt, h]
    · subst h2; simp [cellAt, h]
    · simp [cellAt, ih]

/-- A cell of a written memory is the one written, or it was there before. -/
theorem mem_setCell {m : List (Nat × α)} {a : Nat} {v : α} {c : Nat × α} (h : c ∈ setCell m a v) :
    c = (a, v) ∨ c ∈ m := by
  induction m with
  | nil => simpa [setCell] using h
  | cons d rest ih =>
    obtain ⟨b, u⟩ := d
    unfold setCell at h
    split_ifs at h with h1 h2
    · simpa using h
    · simp only [List.mem_cons] at h ⊢; tauto
    · simp only [List.mem_cons] at h ⊢; tauto

/-- A write keeps the canonical form. -/
theorem setCell_wf {m : List (Nat × α)} (a : Nat) (v : α) (h : Memory.wf m) : Memory.wf (setCell m a v) := by
  induction m with
  | nil => simp [setCell, Memory.wf]
  | cons c rest ih =>
    obtain ⟨b, u⟩ := c
    obtain ⟨hb, hr⟩ := List.pairwise_cons.mp h
    unfold setCell
    split_ifs with h1 h2
    · refine List.pairwise_cons.mpr ⟨?_, h⟩
      rintro d hd
      rcases List.mem_cons.mp hd with rfl | hd
      · exact h1
      · exact lt_trans h1 (hb d hd)
    · subst h2; exact List.pairwise_cons.mpr ⟨hb, hr⟩
    · refine List.pairwise_cons.mpr ⟨?_, ih hr⟩
      intro d hd
      rcases mem_setCell hd with rfl | hd
      · simp only; omega
      · exact hb d hd

/-- Every address of a written memory is the one written or was there before. -/
theorem setCell_bound {m : List (Nat × α)} {a n : Nat} {v : α} (ha : a < n) (h : ∀ c ∈ m, c.1 < n) :
    ∀ c ∈ setCell m a v, c.1 < n := by
  intro c hc
  rcases mem_setCell hc with rfl | hc
  · exact ha
  · exact h c hc

end Cells

/-! ### Reading a cell of the state -/

theorem readPlane_congr {s t : State} (h : t.plane = s.plane) (a : Nat) : readPlane t a = readPlane s a := by
  simp [readPlane, h]

theorem readBit_congr {s t : State} (h : t.bitmem = s.bitmem) (a : Nat) : readBit t a = readBit s a := by
  simp [readBit, h]

@[simp] theorem readPlane_writePlane_same (s : State) (a : Nat) (v : Byte) : readPlane (s.writePlane a v) a = v := by
  simp [readPlane, State.writePlane]

theorem readPlane_writePlane_other (s : State) {a b : Nat} (v : Byte) (h : b ≠ a) :
    readPlane (s.writePlane a v) b = readPlane s b := by
  simp [readPlane, State.writePlane, cellAt_setCell_other _ _ _ _ h]

@[simp] theorem readBit_writeBit_same (s : State) (a : Nat) (v : Bool) : readBit (s.writeBit a v) a = v := by
  simp [readBit, State.writeBit]

theorem readBit_writeBit_other (s : State) {a b : Nat} (v : Bool) (h : b ≠ a) :
    readBit (s.writeBit a v) b = readBit s b := by
  simp [readBit, State.writeBit, cellAt_setCell_other _ _ _ _ h]

@[simp] theorem readBit_writePlane (s : State) (a b : Nat) (v : Byte) : readBit (s.writePlane a v) b = readBit s b := rfl

@[simp] theorem readPlane_writeBit (s : State) (a b : Nat) (v : Bool) : readPlane (s.writeBit a v) b = readPlane s b := rfl

/-! ### Writing a run of cells -/

section Runs
variable {β : Type}

variable {α : Type}

/-- A cell that no write of the run addresses reads as before. -/
theorem cellAt_foldl_other (l : List β) (addr : β → Nat) (val : β → α) (m : List (Nat × α)) (a : Nat)
    (h : ∀ x ∈ l, addr x ≠ a) :
    cellAt (l.foldl (fun m x => setCell m (addr x) (val x)) m) a = cellAt m a := by
  induction l generalizing m with
  | nil => rfl
  | cons x xs ih =>
    simp only [List.foldl_cons]
    rw [ih _ fun y hy => h y (List.mem_cons_of_mem _ hy)]
    exact cellAt_setCell_other _ _ _ _ (h x List.mem_cons_self).symm

/-- Where the addresses of a run differ, each cell of it holds what the run wrote there. -/
theorem cellAt_foldl_mem (l : List β) (addr : β → Nat) (val : β → α) (m : List (Nat × α)) (x : β) (hx : x ∈ l)
    (hinj : ∀ y ∈ l, addr y = addr x → y = x) :
    cellAt (l.foldl (fun m x => setCell m (addr x) (val x)) m) (addr x) = some (val x) := by
  induction l generalizing m with
  | nil => cases hx
  | cons y ys ih =>
    simp only [List.foldl_cons]
    by_cases hin : x ∈ ys
    · exact ih _ hin fun z hz => hinj z (List.mem_cons_of_mem _ hz)
    · have hxy : x = y := by simpa [hin] using hx
      subst hxy
      rw [cellAt_foldl_other]
      · simp
      · intro z hz he
        exact hin (hinj z (List.mem_cons_of_mem _ hz) he ▸ hz)

theorem foldl_setCell_wf (l : List β) (addr : β → Nat) (val : β → α) (m : List (Nat × α)) (h : Memory.wf m) :
    Memory.wf (l.foldl (fun m x => setCell m (addr x) (val x)) m) := by
  induction l generalizing m with
  | nil => exact h
  | cons x xs ih => exact ih _ (setCell_wf _ _ h)

theorem foldl_setCell_bound (l : List β) (addr : β → Nat) (val : β → α) (m : List (Nat × α)) (n : Nat)
    (ha : ∀ x ∈ l, addr x < n) (h : ∀ c ∈ m, c.1 < n) :
    ∀ c ∈ l.foldl (fun m x => setCell m (addr x) (val x)) m, c.1 < n := by
  induction l generalizing m with
  | nil => exact h
  | cons x xs ih =>
    exact ih _ (fun y hy => ha y (List.mem_cons_of_mem _ hy)) (setCell_bound (ha x List.mem_cons_self) h)

end Runs

/-- The memory after reset is in canonical form. -/
theorem reset_memory_wf : Memory.wf State.reset.plane ∧ Memory.wf State.reset.bitmem :=
  ⟨List.Pairwise.nil, List.Pairwise.nil⟩

end Sys2Proof.Machine
end

