-- ==== Sys2Proof/Laws/Addresses.lean ====
section
/-! SUPPORT. The addressing modes (20_memory.md R72, R77): a block's cells lie inside the plane, and every cell of
the plane belongs to exactly one block. -/

namespace Sys2Proof.Machine

/-- The row and the column of the plane sample that element `i` of block `b` is, in a plane `8n` samples wide. -/
theorem planeAddr_eq (n b i : Nat) :
    planeAddr (8 * n) b i = (8 * (b / n) + i / 8) * (8 * n) + (8 * (b % n) + i % 8) := by
  have h : 8 * n / 8 = n := by omega
  simp only [planeAddr, h]
  omega

theorem planeAddr_row (n b i : Nat) (hn : 0 < n) : planeAddr (8 * n) b i / (8 * n) = 8 * (b / n) + i / 8 := by
  have hb := Nat.mod_lt b hn
  rw [planeAddr_eq n b i, Nat.add_comm, Nat.add_mul_div_right _ _ (by omega), Nat.div_eq_of_lt (by omega)]
  omega

theorem planeAddr_col (n b i : Nat) (hn : 0 < n) : planeAddr (8 * n) b i % (8 * n) = 8 * (b % n) + i % 8 := by
  have hb := Nat.mod_lt b hn
  rw [planeAddr_eq n b i, Nat.add_comm, Nat.add_mul_mod_self_right, Nat.mod_eq_of_lt (by omega)]

/-- R77: every address of a block is inside the plane. -/
theorem planeAddr_lt {w h b i : Nat} (hw : w % 8 = 0) (hh : h % 8 = 0) (hb : b < (w / 8) * (h / 8)) (hi : i < 64) :
    planeAddr w b i < w * h := by
  obtain ⟨n, rfl⟩ : ∃ n, w = 8 * n := ⟨w / 8, by omega⟩
  obtain ⟨m, rfl⟩ : ∃ m, h = 8 * m := ⟨h / 8, by omega⟩
  have e1 : 8 * n / 8 = n := by omega
  have e2 : 8 * m / 8 = m := by omega
  rw [e1, e2] at hb
  have hn : 0 < n := Nat.pos_of_ne_zero (by rintro rfl; simp at hb)
  have hrow : b / n < m := Nat.div_lt_of_lt_mul hb
  have hcol := Nat.mod_lt b hn
  rw [planeAddr_eq n b i]
  calc (8 * (b / n) + i / 8) * (8 * n) + (8 * (b % n) + i % 8)
      < (8 * (b / n) + i / 8) * (8 * n) + 8 * n := by omega
    _ = (8 * (b / n) + i / 8 + 1) * (8 * n) := by ring
    _ ≤ (8 * m) * (8 * n) := Nat.mul_le_mul_right _ (by omega)
    _ = 8 * n * (8 * m) := by ring

/-- Two elements of blocks of one plane at one address are the same element of the same block. -/
theorem planeAddr_inj {w b c i j : Nat} (hw : w % 8 = 0) (hw0 : 0 < w) (hi : i < 64) (hj : j < 64)
    (h : planeAddr w b i = planeAddr w c j) : b = c ∧ i = j := by
  obtain ⟨n, rfl⟩ : ∃ n, w = 8 * n := ⟨w / 8, by omega⟩
  have hn : 0 < n := by omega
  have hrow := planeAddr_row n b i hn
  have hcol := planeAddr_col n b i hn
  rw [h, planeAddr_row n c j hn] at hrow
  rw [h, planeAddr_col n c j hn] at hcol
  refine ⟨?_, by omega⟩
  rw [← Nat.div_add_mod b n, ← Nat.div_add_mod c n, show b / n = c / n by omega, show b % n = c % n by omega]

/-- Every address of the plane is that of an element of a block. -/
theorem planeAddr_surj {w h a : Nat} (hw : w % 8 = 0) (hh : h % 8 = 0) (ha : a < w * h) :
    ∃ b i, b < (w / 8) * (h / 8) ∧ i < 64 ∧ planeAddr w b i = a := by
  obtain ⟨n, rfl⟩ : ∃ n, w = 8 * n := ⟨w / 8, by omega⟩
  obtain ⟨m, rfl⟩ : ∃ m, h = 8 * m := ⟨h / 8, by omega⟩
  have hn : 0 < n := Nat.pos_of_ne_zero (by rintro rfl; simp at ha)
  have e1 : 8 * n / 8 = n := by omega
  have e2 : 8 * m / 8 = m := by omega
  have hrow : a / (8 * n) < 8 * m := Nat.div_lt_of_lt_mul ha
  have hcol : a % (8 * n) < 8 * n := Nat.mod_lt _ (by omega)
  refine ⟨a / (8 * n) / 8 * n + a % (8 * n) / 8, 8 * (a / (8 * n) % 8) + a % (8 * n) % 8, ?_, by omega, ?_⟩
  · rw [e1, e2]
    calc a / (8 * n) / 8 * n + a % (8 * n) / 8
        < a / (8 * n) / 8 * n + n := by omega
      _ = (a / (8 * n) / 8 + 1) * n := by ring
      _ ≤ m * n := Nat.mul_le_mul_right _ (by omega)
      _ = n * m := Nat.mul_comm _ _
  · rw [planeAddr_eq n _ _]
    have hq : (a / (8 * n) / 8 * n + a % (8 * n) / 8) / n = a / (8 * n) / 8 := by
      rw [Nat.add_comm, Nat.add_mul_div_right _ _ hn, Nat.div_eq_of_lt (by omega)]; omega
    have hr : (a / (8 * n) / 8 * n + a % (8 * n) / 8) % n = a % (8 * n) / 8 := by
      rw [Nat.add_comm, Nat.add_mul_mod_self_right, Nat.mod_eq_of_lt (by omega)]
    rw [hq, hr, show 8 * (a / (8 * n) / 8) + (8 * (a / (8 * n) % 8) + a % (8 * n) % 8) / 8 = a / (8 * n) by omega,
      show 8 * (a % (8 * n) / 8) + (8 * (a / (8 * n) % 8) + a % (8 * n) % 8) % 8 = a % (8 * n) by omega]
    exact Nat.div_add_mod' a (8 * n)

/-- Two bits of groups at one address are the same bit of the same group. -/
theorem bitAddr_inj {b c k l : Nat} (hk : k < 12) (hl : l < 12) (h : bitAddr b k = bitAddr c l) : b = c ∧ k = l := by
  simp only [bitAddr] at h; omega

/-! ### The block and the group under the cursor -/

/-- The tests DimsOK and IdxOK, as facts about numbers. -/
theorem dimsOK_iff (s : State) :
    s.dimsOK = true ↔ s.width.toNat % 8 = 0 ∧ s.height.toNat % 8 = 0 ∧ s.nblk ≤ s.cfg.maxBlk := by
  simp [State.dimsOK, and_assoc]

theorem idxOK_iff (s : State) : s.idxOK = true ↔ s.bidx.toNat < s.nblk := by simp [State.idxOK]

theorem grpOK_iff (s : State) : s.grpOK = true ↔ 12 * s.bidx.toNat + 12 ≤ s.bitLen.toNat := by simp [State.grpOK]

theorem lenOK_iff (s : State) : s.lenOK = true ↔ s.bitLen.toNat = 12 * s.nblk := by simp [State.lenOK]

theorem bv_iff (s : State) : s.bv = true ↔ ∀ i : Fin 64, s.blkv[i] = true := by
  simp only [State.bv, List.all_eq_true, id]
  constructor
  · intro h i; exact h _ (by simp)
  · intro h x hx
    obtain ⟨j, hj, rfl⟩ := List.getElem_of_mem hx
    have hj' : j < 64 := by simpa using hj
    have := h ⟨j, hj'⟩
    simpa using this

theorem stepOK_iff (s : State) : s.stepOK = true ↔ ∃ mag, unpack s.stepSize = .fin false mag ∧ mag ≠ 0 := by
  unfold State.stepOK legalStep
  cases h : unpack s.stepSize with
  | nan => simp
  | inf n => simp
  | fin n m => cases n <;> simp

/-- A width that has a block under the cursor is positive. -/
theorem width_pos_of_idx {s : State} (h : s.bidx.toNat < s.nblk) : 0 < s.width.toNat := by
  rcases Nat.eq_zero_or_pos s.width.toNat with h0 | h0
  · simp [State.nblk, blockCount, h0] at h
  · exact h0

/-- NBLK fits the cursor (R33). -/
theorem nblk_lt (s : State) : s.nblk < 2 ^ 32 := by
  have h1 := s.width.isLt
  have h2 := s.height.isLt
  calc s.nblk ≤ 8191 * 8191 := Nat.mul_le_mul (by omega) (by omega)
    _ < 2 ^ 32 := by norm_num

/-- R77: the addresses BST writes exist. -/
theorem blockAddr_lt {s : State} (hd : s.dimsOK = true) (hi : s.idxOK = true) (i : Fin 64) :
    s.blockAddr i < s.planeCells := by
  obtain ⟨h1, h2, h3⟩ := (dimsOK_iff s).mp hd
  have h4 := (idxOK_iff s).mp hi
  have h5 : s.blockAddr i < s.width.toNat * s.height.toNat := planeAddr_lt h1 h2 h4 i.isLt
  have h6 : s.width.toNat * s.height.toNat = 64 * s.nblk := by
    simp only [State.nblk, blockCount]
    calc s.width.toNat * s.height.toNat
        = (8 * (s.width.toNat / 8)) * (8 * (s.height.toNat / 8)) := by
          rw [Nat.mul_div_cancel' (Nat.dvd_of_mod_eq_zero h1), Nat.mul_div_cancel' (Nat.dvd_of_mod_eq_zero h2)]
      _ = _ := by ring
  simp only [State.planeCells]; omega

/-- R77: the addresses BITST writes exist. -/
theorem groupAddr_lt {s : State} (hd : s.dimsOK = true) (hi : s.idxOK = true) (k : Fin 12) :
    s.groupAddr k < s.bitCells := by
  obtain ⟨_, _, h3⟩ := (dimsOK_iff s).mp hd
  have h4 := (idxOK_iff s).mp hi
  have := k.isLt
  simp only [State.groupAddr, bitAddr, State.bitCells]; omega

/-! ### The tests depend on their registers alone -/

section Congruence
variable {s t : State}

theorem nblk_congr (hw : t.width = s.width) (hh : t.height = s.height) : t.nblk = s.nblk := by
  simp only [State.nblk, hw, hh]

theorem dimsOK_congr (hw : t.width = s.width) (hh : t.height = s.height) (hc : t.cfg = s.cfg) : t.dimsOK = s.dimsOK := by
  unfold State.dimsOK State.nblk; rw [hw, hh, hc]

theorem idxOK_congr (hw : t.width = s.width) (hh : t.height = s.height) (hb : t.bidx = s.bidx) : t.idxOK = s.idxOK := by
  unfold State.idxOK State.nblk; rw [hw, hh, hb]

theorem grpOK_congr (hl : t.bitLen = s.bitLen) (hb : t.bidx = s.bidx) : t.grpOK = s.grpOK := by
  simp only [State.grpOK, hl, hb]

theorem lenOK_congr (hw : t.width = s.width) (hh : t.height = s.height) (hl : t.bitLen = s.bitLen) :
    t.lenOK = s.lenOK := by
  unfold State.lenOK State.nblk; rw [hw, hh, hl]

theorem stepOK_congr (h : t.stepSize = s.stepSize) : t.stepOK = s.stepOK := by simp only [State.stepOK, h]

theorem bv_congr (h : t.blkv = s.blkv) : t.bv = s.bv := by simp only [State.bv, h]

theorem blockAddr_congr (hw : t.width = s.width) (hb : t.bidx = s.bidx) : t.blockAddr = s.blockAddr := by
  funext i; simp only [State.blockAddr, hw, hb]

theorem groupAddr_congr (hb : t.bidx = s.bidx) : t.groupAddr = s.groupAddr := by
  funext k; simp only [State.groupAddr, hb]

end Congruence

end Sys2Proof.Machine
end

