-- ==== Sys2Proof/Laws/Commands.lean ====
section
/-! SUPPORT. What the shared operations can do: the frame of a command, the effects of the storing commands, and the
loop of the whole-plane commands. -/

namespace Sys2Proof.Machine

/-! ### The frame of a command -/

theorem firstError_eq_none_iff (l : List (Bool × CommandError)) : firstError l = none ↔ ∀ c ∈ l, c.1 = true := by
  induction l with
  | nil => simp [firstError]
  | cons c rest ih => obtain ⟨b, e⟩ := c; cases b <;> simp [firstError, ih]

/-- The reported error is one of the list's, and its test does not hold. -/
theorem firstError_mem {l : List (Bool × CommandError)} {e : CommandError} (h : firstError l = some e) :
    (false, e) ∈ l := by
  induction l with
  | nil => cases h
  | cons c rest ih =>
    obtain ⟨b, e'⟩ := c
    cases b
    · simp only [firstError, Bool.false_eq_true, if_false, Option.some.injEq] at h; simp [h]
    · simp only [firstError, if_true] at h; exact List.mem_cons_of_mem _ (ih h)

section RunCommand
variable {i : Instr} {checks : List (Bool × CommandError)} {body : State → State} {s : State}

/-- R241: in FAULTED the command is dropped. -/
theorem runCommand_faulted (h : s.fault = true) : runCommand i checks body s = .next s := by
  simp [runCommand, h]

/-- R232: the first test that fails raises its error and nothing else happens. -/
theorem runCommand_error {e : CommandError} (h : s.fault = false) (he : firstError checks = some e) :
    runCommand i checks body s = .next (raise e (encode i) s) := by
  simp [runCommand, h, he]

/-- With every test met the command happens whole. -/
theorem runCommand_ok (h : s.fault = false) (hc : ∀ c ∈ checks, c.1 = true) :
    runCommand i checks body s = .next (body s) := by
  simp [runCommand, h, (firstError_eq_none_iff checks).mpr hc]

/-- Everything a command can do. -/
theorem runCommand_cases :
    (s.fault = true ∧ runCommand i checks body s = .next s) ∨
    (s.fault = false ∧ ∃ e, firstError checks = some e ∧ runCommand i checks body s = .next (raise e (encode i) s)) ∨
    (s.fault = false ∧ firstError checks = none ∧ runCommand i checks body s = .next (body s)) := by
  cases hf : s.fault
  · cases he : firstError checks with
    | none => exact .inr (.inr ⟨rfl, rfl, by simp [runCommand, hf, he]⟩)
    | some e => exact .inr (.inl ⟨rfl, e, rfl, runCommand_error hf he⟩)
  · exact .inl ⟨rfl, runCommand_faulted hf⟩

/-- A command always answers a next state. -/
theorem runCommand_next : ∃ t, runCommand i checks body s = .next t := by
  rcases runCommand_cases (i := i) (checks := checks) (body := body) (s := s) with ⟨_, h⟩ | ⟨_, e, _, h⟩ | ⟨_, _, h⟩ <;>
    exact ⟨_, h⟩

/-- The same, from the answer: what the next state is. -/
theorem runCommand_next_cases {t : State} (h : runCommand i checks body s = .next t) :
    t = s ∨ (∃ e, t = raise e (encode i) s) ∨ (s.fault = false ∧ (∀ c ∈ checks, c.1 = true) ∧ t = body s) := by
  rcases runCommand_cases (i := i) (checks := checks) (body := body) (s := s) with
    ⟨_, h'⟩ | ⟨_, e, _, h'⟩ | ⟨hf, hn, h'⟩ <;> rw [h] at h' <;> cases h'
  · exact .inl rfl
  · exact .inr (.inl ⟨e, rfl⟩)
  · exact .inr (.inr ⟨hf, (firstError_eq_none_iff _).mp hn, rfl⟩)

end RunCommand

/-! ### The storing commands -/

/-- R125: a cell of the block holds the converted element. -/
theorem readPlane_bstBody_same {s : State} (hd : s.dimsOK = true) (hi : s.idxOK = true) (i : Fin 64) :
    readPlane (bstBody s) (s.blockAddr i) = toByte (unpack s.blk[i]) := by
  obtain ⟨h1, _, _⟩ := (dimsOK_iff s).mp hd
  have h0 := width_pos_of_idx ((idxOK_iff s).mp hi)
  have := cellAt_foldl_mem (List.finRange 64) (fun i : Fin 64 => s.blockAddr i) (fun i => toByte (unpack s.blk[i]))
    s.plane i (List.mem_finRange i) fun j _ hj => Fin.ext (planeAddr_inj h1 h0 j.isLt i.isLt hj).2
  rw [bstBody, readPlane, State.setPlane_plane, State.storedPlane, this, Option.getD_some]

/-- R125: every cell outside the block reads as before. -/
theorem readPlane_bstBody_other (s : State) (a : Nat) (h : ∀ i : Fin 64, s.blockAddr i ≠ a) :
    readPlane (bstBody s) a = readPlane s a := by
  rw [bstBody, readPlane, State.setPlane_plane, State.storedPlane,
    cellAt_foldl_other (List.finRange 64) (fun i : Fin 64 => s.blockAddr i) _ s.plane a fun i _ => h i]
  rfl

/-- R129: a cell of the group holds its bit. -/
theorem readBit_bitstBody_same (s : State) (k : Fin 12) :
    readBit (bitstBody s) (s.groupAddr k) = s.bits.getLsbD k := by
  have := cellAt_foldl_mem (List.finRange 12) (fun k : Fin 12 => s.groupAddr k) (fun k => s.bits.getLsbD k)
    s.bitmem k (List.mem_finRange k) fun j _ hj => Fin.ext (bitAddr_inj j.isLt k.isLt hj).2
  rw [bitstBody, readBit, State.setBitmem_bitmem, State.storedBits, this, Option.getD_some]

/-- R129: every cell outside the group reads as before. -/
theorem readBit_bitstBody_other (s : State) (a : Nat) (h : ∀ k : Fin 12, s.groupAddr k ≠ a) :
    readBit (bitstBody s) a = readBit s a := by
  rw [bitstBody, readBit, State.setBitmem_bitmem, State.storedBits,
    cellAt_foldl_other (List.finRange 12) (fun k : Fin 12 => s.groupAddr k) _ s.bitmem a fun k _ => h k]
  rfl

/-! ### What the loading commands load -/

/-- R122: an element BLD loads. -/
theorem loadedBlock_getElem (s : State) (i : Fin 64) :
    s.loadedBlock[i] = cvtU8 (readPlane s (s.blockAddr i)) := by simp [State.loadedBlock]

theorem getLsbD_ofFnLE_fin (f : Fin 12 → Bool) (k : Fin 12) : (BitVec.ofFnLE f).getLsbD k = f k := by
  simp

/-- R128: a bit BITLD loads. -/
theorem loadedGroup_getLsbD (s : State) (k : Fin 12) : s.loadedGroup.getLsbD k = readBit s (s.groupAddr k) := by
  rw [State.loadedGroup]; exact getLsbD_ofFnLE_fin (fun k => readBit s (s.groupAddr k)) k

/-- R180: a bit QEXT reads. -/
theorem extractedGroup_getLsbD (s : State) (k : Fin 12) : s.extractedGroup.getLsbD k = s.extracted k := by
  rw [State.extractedGroup]; exact getLsbD_ofFnLE_fin (fun k => s.extracted k) k

/-! ### The loop of EMBALL and EXTALL -/

/-- What holds before the loop and is kept by each turn holds after it. -/
theorem whileBlocks_induction {P : State → Prop} {body : State → State}
    (hbody : ∀ s, P s → s.idxOK = true → P (body s)) (n : Nat) {s : State} (h : P s) :
    P (whileBlocks body n s) := by
  induction n generalizing s with
  | zero => exact h
  | succ n ih =>
    unfold whileBlocks
    split_ifs with hi
    · exact ih (hbody s h hi)
    · exact h

/-- A body that keeps the dimensions and moves the cursor by one is what the whole-plane loops need. -/
structure MovesOn (body : State → State) : Prop where
  nblk : ∀ s, (body s).nblk = s.nblk
  bidx : ∀ s, (body s).bidx = s.bidx + 1

theorem MovesOn.bidx_toNat {body : State → State} (h : MovesOn body) {s : State} (hi : s.idxOK = true) :
    (body s).bidx.toNat = s.bidx.toNat + 1 := by
  have h1 := (idxOK_iff s).mp hi
  have h2 := nblk_lt s
  rw [h.bidx, BitVec.toNat_add]
  simp only [BitVec.ofNat_eq_ofNat, BitVec.toNat_ofNat]
  omega

/-- R197, R198: after the loop the cursor is at NBLK. -/
theorem whileBlocks_bidx {body : State → State} (h : MovesOn body) (n : Nat) {s : State}
    (hs : s.bidx.toNat ≤ s.nblk) (hn : s.nblk ≤ s.bidx.toNat + n) :
    (whileBlocks body n s).bidx.toNat = s.nblk := by
  induction n generalizing s with
  | zero => simp only [whileBlocks]; omega
  | succ n ih =>
    unfold whileBlocks
    split_ifs with hi
    · have hb := h.bidx_toNat hi
      have h1 := (idxOK_iff s).mp hi
      have hk := h.nblk s
      rw [ih (by omega) (by omega), hk]
    · have : ¬ s.bidx.toNat < s.nblk := fun hlt => hi ((idxOK_iff s).mpr hlt)
      omega

theorem embblkBody_movesOn : MovesOn embblkBody where
  nblk s := by
    simp [embblkBody, State.advance, bstBody, idctBody, qembBody, bitldBody, fdctBody, bldBody, State.putBlock,
      State.nblk]
  bidx s := by
    simp [embblkBody, State.advance, bstBody, idctBody, qembBody, bitldBody, fdctBody, bldBody, State.putBlock]

theorem extblkBody_movesOn : MovesOn extblkBody where
  nblk s := by
    simp [extblkBody, State.advance, bitstBody, qextBody, fdctBody, bldBody, State.putBlock, State.nblk]
  bidx s := by
    simp [extblkBody, State.advance, bitstBody, qextBody, fdctBody, bldBody, State.putBlock]

end Sys2Proof.Machine
end

