-- ==== Sys2Proof/Laws/Dispatch.lean ====
section
/-! SUPPORT. Every command but SRST is the shared frame `runCommand` with its own tests and effect; what `exec` can
answer, said once. -/

namespace Sys2Proof.Machine

/-- The tests a command makes, as its meaning lists them. -/
def checksOf (i : Instr) (s : State) : List (Bool × CommandError) :=
  match i with
  | .nop => []
  | .check => [(s.dimsOK, .dimensionMismatch), (s.lenOK, .payloadLengthMismatch), (s.stepOK, .badStep)]
  | .seek _ => []
  | .next => []
  | .srst => []
  | .bld => [(s.dimsOK, .dimensionMismatch), (s.idxOK, .invalidGridIndex)]
  | .bst => [(s.dimsOK, .dimensionMismatch), (s.idxOK, .invalidGridIndex), (s.bv, .notReady)]
  | .bitld => [(s.dimsOK, .dimensionMismatch), (s.idxOK, .invalidGridIndex), (s.grpOK, .payloadLengthMismatch)]
  | .bitst => [(s.dimsOK, .dimensionMismatch), (s.idxOK, .invalidGridIndex), (s.grpOK, .payloadLengthMismatch),
      (s.gv, .notReady)]
  | .fdct => [(s.bv, .notReady)]
  | .idct => [(s.bv, .notReady)]
  | .dgen => [(s.stepOK, .badStep)]
  | .qemb => [(s.dv && s.bv && s.gv, .notReady)]
  | .qext => [(s.dv && s.bv, .notReady)]
  | .embblk => [(s.dimsOK, .dimensionMismatch), (s.idxOK, .invalidGridIndex), (s.grpOK, .payloadLengthMismatch),
      (s.dv, .notReady)]
  | .extblk => [(s.dimsOK, .dimensionMismatch), (s.idxOK, .invalidGridIndex), (s.grpOK, .payloadLengthMismatch),
      (s.dv, .notReady)]
  | .emball => [(s.dimsOK, .dimensionMismatch), (s.lenOK, .payloadLengthMismatch), (s.stepOK, .badStep)]
  | .extall => [(s.dimsOK, .dimensionMismatch), (s.lenOK, .payloadLengthMismatch), (s.stepOK, .badStep)]

/-- The effect of a command whose tests are met. -/
def effectOf (i : Instr) : State → State :=
  match i with
  | .nop => id
  | .check => id
  | .seek imm => seekBody imm
  | .next => State.advance
  | .srst => resetEngine
  | .bld => bldBody
  | .bst => bstBody
  | .bitld => bitldBody
  | .bitst => bitstBody
  | .fdct => fdctBody
  | .idct => idctBody
  | .dgen => dgenBody
  | .qemb => qembBody
  | .qext => qextBody
  | .embblk => embblkBody
  | .extblk => extblkBody
  | .emball => emballBody
  | .extall => extallBody

theorem exec_eq_runCommand {i : Instr} (h : i ≠ .srst) (s : State) :
    exec i s = runCommand i (checksOf i s) (effectOf i) s := by
  cases i <;> first | exact absurd rfl h | rfl

theorem exec_srst (s : State) : exec .srst s = .next (resetEngine s) := rfl

/-! ### The tests and R217's table -/

theorem holds_dims_iff (s : State) : Precondition.dims.holds s ↔ s.dimsOK = true := (dimsOK_iff s).symm

theorem holds_idx_iff (s : State) : Precondition.idx.holds s ↔ s.idxOK = true := (idxOK_iff s).symm

theorem holds_grp_iff (s : State) : Precondition.grp.holds s ↔ s.grpOK = true := (grpOK_iff s).symm

theorem holds_len_iff (s : State) : Precondition.len.holds s ↔ s.lenOK = true := (lenOK_iff s).symm

theorem holds_legalStep_iff (s : State) : Precondition.legalStep.holds s ↔ s.stepOK = true := (stepOK_iff s).symm

theorem holds_blockValid_iff (s : State) : Precondition.blockValid.holds s ↔ s.bv = true := (bv_iff s).symm

theorem holds_groupValid_iff (s : State) : Precondition.groupValid.holds s ↔ s.gv = true := Iff.rfl

theorem holds_ditherValid_iff (s : State) : Precondition.ditherValid.holds s ↔ s.dv = true := Iff.rfl

/-- A command's tests are met exactly when R217's preconditions hold. -/
theorem checksOf_met_iff (i : Instr) (s : State) :
    (∀ c ∈ checksOf i s, c.1 = true) ↔ ∀ p ∈ preconditions i, p.holds s := by
  cases i <;>
    simp [checksOf, preconditions, holds_dims_iff, holds_idx_iff, holds_grp_iff, holds_len_iff, holds_legalStep_iff,
      holds_blockValid_iff, holds_groupValid_iff, holds_ditherValid_iff, and_assoc]

/-! ### What exec answers -/

/-- With its preconditions met a command has its whole effect. -/
theorem exec_ready {i : Instr} {s : State} (h : ReadyFor i s) : exec i s = .next (effectOf i s) := by
  by_cases hi : i = .srst
  · subst hi; rfl
  · rw [exec_eq_runCommand hi, runCommand_ok h.1 ((checksOf_met_iff i s).mpr h.2)]

/-- Everything a command other than SRST can answer: the state as it is (in FAULTED), an error, or its effect. -/
theorem exec_next_cases {i : Instr} {s t : State} (hi : i ≠ .srst) (h : exec i s = .next t) :
    (s.fault = true ∧ t = s) ∨ (s.fault = false ∧ ∃ e, t = raise e (encode i) s) ∨
      (ReadyFor i s ∧ t = effectOf i s) := by
  rw [exec_eq_runCommand hi] at h
  rcases runCommand_cases (i := i) (checks := checksOf i s) (body := effectOf i) (s := s) with
    ⟨hf, h'⟩ | ⟨hf, e, _, h'⟩ | ⟨hf, hn, h'⟩ <;> rw [h] at h' <;> cases h'
  · exact .inl ⟨hf, rfl⟩
  · exact .inr (.inl ⟨hf, e, rfl⟩)
  · exact .inr (.inr ⟨⟨hf, (checksOf_met_iff i s).mp ((firstError_eq_none_iff _).mp hn)⟩, rfl⟩)

end Sys2Proof.Machine
end

