-- ==== Sys2Proof/Laws/Float64.lean ====
section
/-! SUPPORT. The laws of the binary64 arithmetic: rounding gives representable values and keeps order (00_scope.md
R16), and patterns and values correspond (R15). -/

namespace Sys2Proof.Machine

/-! ### Representable magnitudes -/

/-- At most 53 significant bits, said by the bits themselves. -/
theorem magRepresentable_iff (mag : Nat) :
    magRepresentable mag ↔ (∃ m e, m ≤ 2 ^ 53 ∧ mag = m * 2 ^ e) ∧ Nat.log2 mag < overflowExp := by
  constructor
  · rintro ⟨⟨m, hm⟩, hlt⟩
    refine ⟨⟨m, Nat.log2 mag - 52, ?_, by rw [Nat.mul_comm]; exact hm⟩, hlt⟩
    by_contra hgt
    have hgt : 2 ^ 53 < m := by omega
    have hne : mag ≠ 0 := by rintro rfl; simp at hm; omega
    have hlog : mag < 2 ^ (Nat.log2 mag + 1) := Nat.lt_log2_self
    by_cases h52 : Nat.log2 mag ≤ 52
    · have h0 : Nat.log2 mag - 52 = 0 := by omega
      rw [h0] at hm
      have : 2 ^ (Nat.log2 mag + 1) ≤ 2 ^ 53 := Nat.pow_le_pow_right (by norm_num) (by omega)
      omega
    · have hsplit : 2 ^ (Nat.log2 mag + 1) = 2 ^ (Nat.log2 mag - 52) * 2 ^ 53 := by
        rw [← pow_add]; congr 1; omega
      rw [hsplit] at hlog
      have : 2 ^ (Nat.log2 mag - 52) * 2 ^ 53 ≤ 2 ^ (Nat.log2 mag - 52) * m := Nat.mul_le_mul_left _ hgt.le
      omega
  · rintro ⟨⟨m, e, hm, rfl⟩, hlt⟩
    refine ⟨?_, hlt⟩
    rcases Nat.eq_zero_or_pos m with rfl | hpos
    · simp
    have hlog : Nat.log2 (m * 2 ^ e) = Nat.log2 m + e := by
      rw [Nat.log2_eq_iff (by positivity)]
      have h1 : 2 ^ Nat.log2 m ≤ m := Nat.log2_self_le hpos.ne'
      have h2 : m < 2 ^ (Nat.log2 m + 1) := Nat.lt_log2_self
      constructor
      · rw [pow_add]; exact Nat.mul_le_mul_right _ h1
      · rw [show Nat.log2 m + e + 1 = (Nat.log2 m + 1) + e by ring, pow_add]
        exact Nat.mul_lt_mul_of_pos_right h2 (by positivity)
    rw [hlog]
    rcases Nat.lt_or_ge m (2 ^ 53) with hlt53 | hge
    · have : Nat.log2 m < 53 := (Nat.log2_lt hpos.ne').mpr hlt53
      exact Dvd.dvd.mul_left (pow_dvd_pow 2 (by omega)) m
    · obtain rfl : m = 2 ^ 53 := by omega
      have : Nat.log2 (2 ^ 53) = 53 := by decide
      rw [this, ← pow_add]
      exact pow_dvd_pow 2 (by omega)

theorem magRepresentable_zero : magRepresentable 0 :=
  (magRepresentable_iff 0).mpr ⟨⟨0, 0, by norm_num, by norm_num⟩, by decide⟩

/-! ### Rounding -/

/-- What is left of `num` after the bits that rounding drops has at most 53 bits. -/
theorem shifted_lt (num s : Nat) (h : Nat.log2 num - 52 ≤ s) : num >>> s < 2 ^ 53 := by
  rw [Nat.shiftRight_eq_div_pow, Nat.div_lt_iff_lt_mul (by positivity), ← pow_add]
  calc num < 2 ^ (Nat.log2 num + 1) := Nat.lt_log2_self
    _ ≤ 2 ^ (53 + s) := Nat.pow_le_pow_right (by norm_num) (by omega)

/-- R16: rounding answers a value some pattern has. -/
theorem roundNearest_representable (neg : Bool) (num d : Nat) : (roundNearest neg num d).representable := by
  unfold roundNearest
  simp only
  split_ifs with h1 h2 h2
  · exact True.intro
  · refine (magRepresentable_iff _).mpr ⟨⟨_, _, ?_, Nat.shiftLeft_eq _ _⟩, not_le.mp h2⟩
    have := shifted_lt num (max d (Nat.log2 num - 52)) (le_max_right _ _)
    omega
  · exact True.intro
  · refine (magRepresentable_iff _).mpr ⟨⟨_, _, ?_, Nat.shiftLeft_eq _ _⟩, not_le.mp h2⟩
    have := shifted_lt num (max d (Nat.log2 num - 52)) (le_max_right _ _)
    omega

/-- A rounded value is finite or an infinity, of the sign it was given. -/
theorem roundNearest_sign (neg : Bool) (num d : Nat) :
    roundNearest neg num d = .inf neg ∨ ∃ mag, roundNearest neg num d = .fin neg mag := by
  unfold roundNearest
  simp only
  split_ifs
  · exact .inl rfl
  · exact .inr ⟨_, rfl⟩
  · exact .inl rfl
  · exact .inr ⟨_, rfl⟩

/-! ### Every operation answers a representable value -/

theorem fneg_representable {a : F64} (h : a.representable) : (fneg a).representable := by
  cases a <;> exact h

theorem fabs_representable {a : F64} (h : a.representable) : (fabs a).representable := by
  cases a <;> exact h

theorem fadd_representable (a b : F64) (ha : a.representable) (hb : b.representable) : (fadd a b).representable := by
  cases a <;> cases b <;> simp only [fadd] <;> (try exact True.intro)
  · split_ifs <;> exact True.intro
  · split_ifs
    · exact roundNearest_representable _ _ _
    · exact magRepresentable_zero
    · exact roundNearest_representable _ _ _
    · exact roundNearest_representable _ _ _

theorem fsub_representable (a b : F64) (ha : a.representable) (hb : b.representable) : (fsub a b).representable :=
  fadd_representable _ _ ha (fneg_representable hb)

theorem fmul_representable (a b : F64) : (fmul a b).representable := by
  cases a with
  | nan => cases b <;> exact True.intro
  | inf na =>
    cases b with
    | nan => exact True.intro
    | inf nb => exact True.intro
    | fin nb y => simp only [fmul]; split_ifs <;> exact True.intro
  | fin na x =>
    cases b with
    | nan => exact True.intro
    | inf nb => simp only [fmul]; split_ifs <;> exact True.intro
    | fin nb y => exact roundNearest_representable _ _ _

theorem fdiv_representable (a b : F64) : (fdiv a b).representable := by
  cases a with
  | nan => cases b <;> exact True.intro
  | inf na => cases b <;> exact True.intro
  | fin na x =>
    cases b with
    | nan => exact True.intro
    | inf nb => exact magRepresentable_zero
    | fin nb y =>
      simp only [fdiv]
      split_ifs
      · exact True.intro
      · exact True.intro
      · exact roundNearest_representable _ _ _
      · exact roundNearest_representable _ _ _

theorem unit_eq : unit = 2 ^ unitExp := Nat.one_shiftLeft _

theorem unitExp_eq : unitExp = 1074 := by with_unfolding_all rfl

theorem unit_pos : 0 < unit := by rw [unit_eq]; positivity

/-- A whole number of up to 53 bits is representable. -/
theorem magRepresentable_whole {n : Nat} (h : n ≤ 2 ^ 53) : magRepresentable (n * unit) := by
  refine (magRepresentable_iff _).mpr ⟨⟨n, unitExp, h, by rw [unit_eq]⟩, ?_⟩
  rcases Nat.eq_zero_or_pos n with rfl | hn
  · simp [overflowExp]
  · have hu : 53 + unitExp < overflowExp := by rw [unitExp_eq]; decide
    rw [Nat.log2_lt (Nat.mul_pos hn unit_pos).ne', unit_eq]
    calc n * 2 ^ unitExp ≤ 2 ^ 53 * 2 ^ unitExp := Nat.mul_le_mul_right _ h
      _ < 2 ^ overflowExp := by rw [← pow_add]; exact Nat.pow_lt_pow_right (by norm_num) hu

/-- A representable value with a fraction is below 2^53. -/
theorem whole_lt_of_fraction {mag : Nat} (h : magRepresentable mag) (hf : mag % unit ≠ 0) : mag / unit < 2 ^ 53 := by
  obtain ⟨⟨m, e, hm, rfl⟩, -⟩ := (magRepresentable_iff mag).mp h
  rw [unit_eq] at hf ⊢
  generalize unitExp = u at *
  rcases Nat.lt_or_ge e u with he | he
  · rw [Nat.div_lt_iff_lt_mul (by positivity)]
    calc m * 2 ^ e ≤ 2 ^ 53 * 2 ^ e := Nat.mul_le_mul_right _ hm
      _ < 2 ^ 53 * 2 ^ u :=
        Nat.mul_lt_mul_of_pos_left (Nat.pow_lt_pow_right (by norm_num) he) (by positivity)
  · exact absurd (Nat.mod_eq_zero_of_dvd (Dvd.dvd.mul_left (pow_dvd_pow 2 he) m)) hf

theorem ffloor_representable {a : F64} (h : a.representable) : (ffloor a).representable := by
  cases a with
  | nan => exact True.intro
  | inf neg => exact True.intro
  | fin neg mag =>
    have hr : magRepresentable mag := h
    by_cases hf : mag % unit = 0
    · have he : mag / unit * unit = mag := Nat.div_mul_cancel (Nat.dvd_of_mod_eq_zero hf)
      simp only [ffloor, hf, ne_eq, not_true_eq_false, decide_false, Bool.and_false, Bool.false_eq_true, if_false, he]
      exact hr
    · have hw := whole_lt_of_fraction hr hf
      simp only [ffloor]
      split_ifs
      · exact magRepresentable_whole (n := mag / unit + 1) (by omega)
      · exact magRepresentable_whole (n := mag / unit) (by omega)

/-! ### Patterns and values -/

/-- The value of a pattern given by its three fields (R15). -/
theorem unpack_signed (neg : Bool) (low : BitVec 63) :
    unpack (signed neg low) =
      if low.toNat / 2 ^ 52 = 2047 then
        if low.toNat % 2 ^ 52 = 0 then .inf neg else .nan
      else if low.toNat / 2 ^ 52 = 0 then .fin neg (low.toNat % 2 ^ 52)
      else .fin neg ((2 ^ 52 + low.toNat % 2 ^ 52) <<< (low.toNat / 2 ^ 52 - 1)) := by
  have hlow := low.isLt
  have hsign : (signed neg low).getLsbD 63 = neg := by
    rw [signed, BitVec.getLsbD_append]; simp
  have hnat : (signed neg low).toNat = neg.toNat * 2 ^ 63 + low.toNat := by
    unfold signed
    rw [BitVec.toNat_append, BitVec.toNat_ofBool, Nat.shiftLeft_eq, Nat.mul_comm, ← Nat.two_pow_add_eq_or_of_lt hlow]
  have hexp : ((signed neg low).extractLsb' 52 11).toNat = low.toNat / 2 ^ 52 := by
    rw [BitVec.extractLsb'_toNat, hnat, Nat.shiftRight_eq_div_pow]
    cases neg <;> simp only [Bool.toNat_true, Bool.toNat_false] <;> omega
  have hfrac : ((signed neg low).extractLsb' 0 52).toNat = low.toNat % 2 ^ 52 := by
    rw [BitVec.extractLsb'_toNat, hnat, Nat.shiftRight_zero]
    cases neg <;> simp only [Bool.toNat_true, Bool.toNat_false] <;> omega
  simp only [unpack, hsign, hexp, hfrac]

/-- Every pattern is its sign bit and the other 63. -/
theorem signed_eq (w : Word) : signed (w.getLsbD 63) (w.extractLsb' 0 63) = w := by
  apply BitVec.eq_of_getLsbD_eq
  intro i hi
  simp only [signed, BitVec.getLsbD_append, BitVec.getLsbD_extractLsb']
  by_cases h : i < 63
  · simp [h]
  · obtain rfl : i = 63 := by omega
    simp

/-- R15: the value of a pattern is representable. -/
theorem unpack_representable (w : Word) : (unpack w).representable := by
  rw [← signed_eq w, unpack_signed]
  have hlow := (w.extractLsb' 0 63).isLt
  generalize (w.extractLsb' 0 63).toNat = low at hlow
  have hf : low % 2 ^ 52 < 2 ^ 52 := Nat.mod_lt _ (by norm_num)
  split_ifs with h1 h2 h3
  · exact True.intro
  · exact True.intro
  · refine (magRepresentable_iff _).mpr ⟨⟨low % 2 ^ 52, 0, by omega, by simp⟩, ?_⟩
    rcases Nat.eq_zero_or_pos (low % 2 ^ 52) with h0 | h0
    · rw [h0]; decide
    · exact ((Nat.log2_lt h0.ne').mpr hf).trans (by decide)
  · refine (magRepresentable_iff _).mpr ⟨⟨2 ^ 52 + low % 2 ^ 52, low / 2 ^ 52 - 1, by omega, Nat.shiftLeft_eq _ _⟩, ?_⟩
    rw [Nat.shiftLeft_eq, Nat.log2_lt (Nat.mul_pos (by omega) (by positivity)).ne']
    calc (2 ^ 52 + low % 2 ^ 52) * 2 ^ (low / 2 ^ 52 - 1)
        < 2 ^ 53 * 2 ^ (low / 2 ^ 52 - 1) := Nat.mul_lt_mul_of_pos_right (by omega) (by positivity)
      _ ≤ 2 ^ overflowExp := by
        rw [← pow_add]; exact Nat.pow_le_pow_right (by norm_num) (by unfold overflowExp; omega)

/-- Bits 62:0 of a magnitude with a non-zero exponent field. -/
theorem magBits_normal {m e : Nat} (hm : 2 ^ 52 ≤ m) (hm' : m < 2 ^ 53) :
    magBits (m * 2 ^ e) = (e + 1) * 2 ^ 52 + (m - 2 ^ 52) := by
  have hge : 2 ^ 52 ≤ m * 2 ^ e := hm.trans (Nat.le_mul_of_pos_right _ (by positivity))
  have hlog : Nat.log2 (m * 2 ^ e) = 52 + e := by
    rw [Nat.log2_eq_iff (by omega), pow_add, show 52 + e + 1 = 53 + e by ring, pow_add]
    exact ⟨Nat.mul_le_mul_right _ hm, Nat.mul_lt_mul_of_pos_right hm' (by positivity)⟩
  unfold magBits
  rw [if_neg (by omega), hlog]
  simp only [show 52 + e - 51 = e + 1 by omega, Nat.add_sub_cancel, Nat.shiftLeft_eq, Nat.shiftRight_eq_div_pow]
  rw [Nat.mul_div_cancel _ (by positivity)]

/-- A representable magnitude is a subnormal or has a 53-bit significand. -/
theorem magRepresentable_cases {mag : Nat} (h : magRepresentable mag) :
    mag < 2 ^ 52 ∨ ∃ m e, 2 ^ 52 ≤ m ∧ m < 2 ^ 53 ∧ e ≤ 2045 ∧ mag = m * 2 ^ e := by
  obtain ⟨⟨m, hm⟩, hlt⟩ := h
  rcases Nat.lt_or_ge mag (2 ^ 52) with hlt52 | hge
  · exact .inl hlt52
  refine .inr ⟨m, Nat.log2 mag - 52, ?_, ?_, by unfold overflowExp at hlt; omega, by rw [Nat.mul_comm]; exact hm⟩
  all_goals
    have hne : mag ≠ 0 := by omega
    have h52 : 52 ≤ Nat.log2 mag := (Nat.le_log2 hne).mpr hge
    have hlo : 2 ^ Nat.log2 mag ≤ mag := Nat.log2_self_le hne
    have hhi : mag < 2 ^ (Nat.log2 mag + 1) := Nat.lt_log2_self
    generalize Nat.log2 mag = l at *
    have e1 : 2 ^ l = 2 ^ (l - 52) * 2 ^ 52 := by rw [← pow_add]; congr 1; omega
    have e2 : 2 ^ (l + 1) = 2 ^ (l - 52) * 2 ^ 53 := by rw [← pow_add]; congr 1; omega
    have hp : 0 < 2 ^ (l - 52) := by positivity
    rw [hm] at hlo hhi
  · rw [e1] at hlo; exact Nat.le_of_mul_le_mul_left hlo hp
  · rw [e2] at hhi; exact Nat.lt_of_mul_lt_mul_left hhi

/-- R15: the pattern of a finite value has that value. -/
theorem unpack_pack_fin (any : Word) (neg : Bool) {mag : Nat} (h : magRepresentable mag) :
    unpack (pack any (.fin neg mag)) = .fin neg mag := by
  simp only [pack]
  rw [unpack_signed, BitVec.toNat_ofNat]
  rcases magRepresentable_cases h with hs | ⟨m, e, hm, hm', he, rfl⟩
  · have hb : magBits mag = mag := if_pos hs
    rw [hb, Nat.mod_eq_of_lt (by omega), Nat.div_eq_of_lt hs, Nat.mod_eq_of_lt hs]
    simp
  · rw [magBits_normal hm hm', Nat.mod_eq_of_lt (by omega)]
    have h1 : ((e + 1) * 2 ^ 52 + (m - 2 ^ 52)) / 2 ^ 52 = e + 1 := by omega
    have h2 : ((e + 1) * 2 ^ 52 + (m - 2 ^ 52)) % 2 ^ 52 = m - 2 ^ 52 := by omega
    rw [h1, h2, if_neg (by omega), if_neg (by omega), Nat.shiftLeft_eq, Nat.add_sub_cancel,
      show 2 ^ 52 + (m - 2 ^ 52) = m by omega]

/-- A word with an exponent field of ones and a fraction is a NaN's pattern. -/
theorem unpack_eq_nan {w : Word} (he : w.extractLsb' 52 11 = 0x7FF#11) (hf : w.extractLsb' 0 52 ≠ 0#52) :
    unpack w = .nan := by
  have hf' : (w.extractLsb' 0 52).toNat ≠ 0 := fun h => hf (BitVec.eq_of_toNat_eq (by simpa using h))
  simp only [unpack, he]
  rw [if_pos (by decide), if_neg hf']

/-- A NaN pattern is a NaN's. -/
theorem unpack_nanPattern (w : Word) : unpack (nanPattern w) = .nan := by
  have hexp : ∀ v : Word, (v ||| 0x7FF0000000000000#64).extractLsb' 52 11 = 0x7FF#11 := by
    intro v
    rw [BitVec.extractLsb'_or, show (0x7FF0000000000000#64).extractLsb' 52 11 = BitVec.allOnes 11 by decide,
      BitVec.or_allOnes]
    decide
  unfold nanPattern
  simp only
  split_ifs with h
  · refine unpack_eq_nan ?_ ?_
    · rw [BitVec.or_assoc, BitVec.or_comm _ (0x0008000000000000#64), ← BitVec.or_assoc]
      exact hexp _
    · rw [BitVec.extractLsb'_or, h]; decide
  · exact unpack_eq_nan (hexp w) h

/-- R15, R17: the pattern a value is stored under has that value, whatever pattern a NaN takes. -/
theorem unpack_pack (any : Word) {x : F64} (h : x.representable) : unpack (pack any x) = x := by
  cases x with
  | nan => exact unpack_nanPattern any
  | inf neg =>
    simp only [pack]
    rw [unpack_signed]
    rfl
  | fin neg mag => exact unpack_pack_fin any neg h

/-- R15: a pattern that is no NaN's is the pattern of its value. -/
theorem pack_unpack (any w : Word) (h : isNaN (unpack w) = false) : pack any (unpack w) = w := by
  rw [← signed_eq w] at h ⊢
  generalize w.getLsbD 63 = neg at *
  generalize w.extractLsb' 0 63 = low at *
  rw [unpack_signed] at h ⊢
  have hlow := low.isLt
  have hsplit := Nat.div_add_mod low.toNat (2 ^ 52)
  split_ifs at h ⊢ with h1 h2 h3
  · simp only [pack]
    refine congrArg (signed neg) (BitVec.eq_of_toNat_eq ?_)
    rw [h1, h2] at hsplit
    rw [← hsplit]; rfl
  · cases h
  · simp only [pack]
    rw [show magBits (low.toNat % 2 ^ 52) = low.toNat % 2 ^ 52 from if_pos (Nat.mod_lt _ (by norm_num))]
    refine congrArg (signed neg) (BitVec.eq_of_toNat_eq ?_)
    rw [BitVec.toNat_ofNat]; omega
  · have hm : low.toNat % 2 ^ 52 < 2 ^ 52 := Nat.mod_lt _ (by norm_num)
    simp only [pack]
    rw [Nat.shiftLeft_eq, magBits_normal (by omega) (by omega)]
    refine congrArg (signed neg) (BitVec.eq_of_toNat_eq ?_)
    rw [BitVec.toNat_ofNat]; omega

end Sys2Proof.Machine
end

