-- ==== Sys2Proof/Laws/Rounding.lean ====
section
/-! SUPPORT. Rounding keeps order and is exact on representable values (00_scope.md R16, R19). -/

namespace Sys2Proof.Machine

/-- Where rounding drops more than it must, the value it starts from is large. -/
theorem le_log2_of_shift {num d s : Nat} (hs : s = max d (Nat.log2 num - 52)) (hd : d < s) : Nat.log2 num = s + 52 := by
  omega

/-- A representable value of at least 2^(52 + k) is a multiple of 2^k. -/
theorem dvd_of_log2 {b k : Nat} (hb : magRepresentable b) (h : 52 + k ≤ Nat.log2 b) : 2 ^ k ∣ b :=
  (pow_dvd_pow 2 (by omega)).trans hb.1

/-- The magnitude rounding works on is the operand's quotient, or one more if something remains. -/
theorem roundNearest_bounds (neg : Bool) (num d : Nat) :
    ∃ s q r mag, s = max d (Nat.log2 num - 52) ∧ num = q * 2 ^ s + r ∧ r < 2 ^ s ∧
      (mag = q * 2 ^ (s - d) ∨ (0 < r ∧ mag = (q + 1) * 2 ^ (s - d))) ∧
      roundNearest neg num d = if overflowExp ≤ Nat.log2 mag then .inf neg else .fin neg mag := by
  refine ⟨max d (Nat.log2 num - 52), num >>> max d (Nat.log2 num - 52), num % 2 ^ max d (Nat.log2 num - 52), _, rfl,
    ?_, Nat.mod_lt _ (by positivity), ?_, rfl⟩
  · rw [Nat.shiftRight_eq_div_pow, Nat.div_add_mod']
  · generalize max d (Nat.log2 num - 52) = s
    have hp : 0 < 2 ^ s := by positivity
    simp only [Nat.shiftLeft_eq, one_mul]
    split_ifs with hup
    · refine .inr ⟨?_, rfl⟩
      simp only [Bool.or_eq_true, Bool.and_eq_true, decide_eq_true_eq] at hup
      omega
    · exact .inl rfl

/-- R16: a value not above a representable one does not round above it. -/
theorem roundNearest_le (neg : Bool) {num d b : Nat} (hb : magRepresentable b) (h : num ≤ b * 2 ^ d) :
    ∃ mag, mag ≤ b ∧ roundNearest neg num d = .fin neg mag := by
  obtain ⟨s, q, r, mag, hs, hnum, hr, hmag, heq⟩ := roundNearest_bounds neg num d
  have hds : d ≤ s := by omega
  have hsplit : 2 ^ s = 2 ^ (s - d) * 2 ^ d := by rw [← pow_add]; congr 1; omega
  have hgrid : 2 ^ (s - d) ∣ b := by
    rcases Nat.lt_or_ge d s with hlt | hge
    · have hlog := le_log2_of_shift hs hlt
      have hne : num ≠ 0 := by rintro rfl; simp at hlog
      have h1 : 2 ^ (s + 52) ≤ b * 2 ^ d := by rw [← hlog]; exact (Nat.log2_self_le hne).trans h
      have h2 : 2 ^ (s + 52) = 2 ^ (52 + (s - d)) * 2 ^ d := by rw [← pow_add]; congr 1; omega
      have h3 : 2 ^ (52 + (s - d)) ≤ b := Nat.le_of_mul_le_mul_right (by rw [← h2]; exact h1) (Nat.two_pow_pos d)
      have hb0 : b ≠ 0 := (Nat.lt_of_lt_of_le (Nat.two_pow_pos _) h3).ne'
      exact dvd_of_log2 hb ((Nat.le_log2 hb0).mpr h3)
    · have : s - d = 0 := by omega
      simp [this]
  obtain ⟨c, rfl⟩ := hgrid
  have hle : num ≤ c * 2 ^ s := by
    calc num ≤ 2 ^ (s - d) * c * 2 ^ d := h
      _ = c * 2 ^ s := by rw [hsplit]; ring
  have hmb : mag ≤ 2 ^ (s - d) * c := by
    rcases hmag with rfl | ⟨hr0, rfl⟩
    · rw [Nat.mul_comm]
      refine Nat.mul_le_mul_left _ (Nat.le_of_mul_le_mul_right (c := 2 ^ s) ?_ (by positivity))
      omega
    · rw [Nat.mul_comm]
      refine Nat.mul_le_mul_left _ (Nat.succ_le_of_lt (Nat.lt_of_mul_lt_mul_right (a := 2 ^ s) ?_))
      omega
  refine ⟨mag, hmb, ?_⟩
  rw [heq, if_neg]
  rcases Nat.eq_zero_or_pos mag with rfl | h0
  · simp [overflowExp]
  · have : Nat.log2 mag ≤ Nat.log2 (2 ^ (s - d) * c) :=
      (Nat.le_log2 (by omega)).mpr ((Nat.log2_self_le h0.ne').trans hmb)
    have := hb.2
    omega

/-- R16: a value not below a representable one does not round below it. -/
theorem roundNearest_ge (neg : Bool) {num d b : Nat} (hb : magRepresentable b) (h : b * 2 ^ d ≤ num) :
    roundNearest neg num d = .inf neg ∨ ∃ mag, b ≤ mag ∧ roundNearest neg num d = .fin neg mag := by
  obtain ⟨s, q, r, mag, hs, hnum, hr, hmag, heq⟩ := roundNearest_bounds neg num d
  have hds : d ≤ s := by omega
  have hsplit : 2 ^ s = 2 ^ (s - d) * 2 ^ d := by rw [← pow_add]; congr 1; omega
  have hq : b ≤ q * 2 ^ (s - d) := by
    by_cases hgrid : 2 ^ (s - d) ∣ b
    · obtain ⟨c, rfl⟩ := hgrid
      rw [Nat.mul_comm]
      refine Nat.mul_le_mul_right _ (Nat.le_of_lt_succ (Nat.lt_of_mul_lt_mul_right (a := 2 ^ s) ?_))
      calc c * 2 ^ s = 2 ^ (s - d) * c * 2 ^ d := by rw [hsplit]; ring
        _ ≤ num := h
        _ < q * 2 ^ s + 2 ^ s := by omega
        _ = (q + 1) * 2 ^ s := by ring
    · have hlt : d < s := by
        by_contra hge
        exact hgrid (by rw [show s - d = 0 by omega]; simp)
      have hlog := le_log2_of_shift hs hlt
      have hne : num ≠ 0 := by rintro rfl; simp at hlog
      have hnumge : 2 ^ (s + 52) ≤ num := hlog ▸ Nat.log2_self_le hne
      have hq52 : 2 ^ 52 ≤ q := by
        refine Nat.le_of_lt_succ (Nat.lt_of_mul_lt_mul_right (a := 2 ^ s) ?_)
        calc 2 ^ 52 * 2 ^ s = 2 ^ (s + 52) := by rw [← pow_add, Nat.add_comm]
          _ ≤ num := hnumge
          _ < q * 2 ^ s + 2 ^ s := by omega
          _ = (q + 1) * 2 ^ s := by ring
      have hbl : b < 2 ^ (52 + (s - d)) := by
        by_contra hge
        have hb0 : b ≠ 0 := by rintro rfl; exact hge (by positivity)
        exact hgrid (dvd_of_log2 hb ((Nat.le_log2 hb0).mpr (not_lt.mp hge)))
      calc b ≤ 2 ^ (52 + (s - d)) := hbl.le
        _ = 2 ^ 52 * 2 ^ (s - d) := pow_add _ _ _
        _ ≤ q * 2 ^ (s - d) := Nat.mul_le_mul_right _ hq52
  have hbm : b ≤ mag := by
    rcases hmag with rfl | ⟨-, rfl⟩
    · exact hq
    · exact hq.trans (Nat.mul_le_mul_right _ (by omega))
  rw [heq]
  split_ifs
  · exact .inl rfl
  · exact .inr ⟨mag, hbm, rfl⟩

/-- R16: a representable value rounds to itself. -/
theorem roundNearest_exact (neg : Bool) {b : Nat} (d : Nat) (hb : magRepresentable b) :
    roundNearest neg (b * 2 ^ d) d = .fin neg b := by
  obtain ⟨m, hm, heq⟩ := roundNearest_le neg hb (le_refl (b * 2 ^ d))
  rcases roundNearest_ge neg hb (le_refl (b * 2 ^ d)) with h | ⟨m', hm', h⟩
  · rw [heq] at h; cases h
  · rw [heq] at h
    obtain rfl : m = m' := by injection h
    rw [heq, show m = b by omega]

/-- A product of finite values that a pattern can hold is exact. -/
theorem fmul_exact (na nb : Bool) {x y b : Nat} (hb : magRepresentable b) (h : x * y = b * unit) :
    fmul (.fin na x) (.fin nb y) = .fin (na ^^ nb) b := by
  show roundNearest (na ^^ nb) (x * y) unitExp = _
  rw [h, unit_eq]; exact roundNearest_exact _ _ hb

/-- A sum of values of one sign that a pattern can hold is exact. -/
theorem fadd_exact_same (n : Bool) {x y : Nat} (hb : magRepresentable (x + y)) :
    fadd (.fin n x) (.fin n y) = .fin n (x + y) := by
  show (if n = n then roundNearest n (x + y) 0 else _) = _
  rw [if_pos rfl]
  simpa using roundNearest_exact n 0 hb

/-! ### Rounding and addition, case by case -/

/-- What rounding does, case by case: the operand is `q` steps of size `2^s` and a remainder `r`; `m` steps are kept. -/
theorem roundNearest_split (neg : Bool) (num d : Nat) :
    ∃ s q r m, s = max d (Nat.log2 num - 52) ∧ num = q * 2 ^ s + r ∧ r < 2 ^ s ∧
      ((m = q ∧ (2 * r < 2 ^ s ∨ 2 * r = 2 ^ s ∧ q % 2 = 0)) ∨ (m = q + 1 ∧ (2 ^ s < 2 * r ∨ 2 * r = 2 ^ s ∧ q % 2 = 1))) ∧
      roundNearest neg num d =
        if overflowExp ≤ Nat.log2 (m * 2 ^ (s - d)) then .inf neg else .fin neg (m * 2 ^ (s - d)) := by
  unfold roundNearest
  generalize hs : max d (Nat.log2 num - 52) = s
  simp only [Nat.shiftLeft_eq, one_mul, Nat.shiftRight_eq_div_pow]
  generalize hup : (decide (2 ^ s < 2 * (num % 2 ^ s)) ||
    (decide (2 ^ s = 2 * (num % 2 ^ s)) && decide (num / 2 ^ s % 2 = 1))) = up
  refine ⟨s, num / 2 ^ s, num % 2 ^ s, if up then num / 2 ^ s + 1 else num / 2 ^ s, rfl, (Nat.div_add_mod' _ _).symm,
    Nat.mod_lt _ (by positivity), ?_, rfl⟩
  cases up
  · left
    refine ⟨rfl, ?_⟩
    simp only [Bool.or_eq_false_iff, Bool.and_eq_false_iff, decide_eq_false_iff_not] at hup
    rcases Nat.lt_trichotomy (2 * (num % 2 ^ s)) (2 ^ s) with h | h | h
    · exact .inl h
    · refine .inr ⟨h, ?_⟩
      rcases hup.2 with h' | h'
      · exact absurd h.symm h'
      · omega
    · exact absurd h hup.1
  · right
    simp only [Bool.or_eq_true, Bool.and_eq_true, decide_eq_true_eq] at hup
    exact ⟨rfl, hup.imp id fun h => ⟨h.1.symm, h.2⟩⟩

/-- A representable magnitude is a multiple of the step rounding works in, or lies below what is kept. -/
theorem grid_or_below {num d s q r b : Nat} (hs : s = max d (Nat.log2 num - 52)) (hnum : num = q * 2 ^ s + r) (hr : r < 2 ^ s)
    (hb : magRepresentable b) : 2 ^ (s - d) ∣ b ∨ (2 ^ 52 ≤ q ∧ b < q * 2 ^ (s - d)) := by
  rcases Nat.lt_or_ge d s with hlt | hge
  · have hlog := le_log2_of_shift hs hlt
    have hne : num ≠ 0 := by rintro rfl; simp at hlog
    have h1 : 2 ^ (s + 52) ≤ num := by rw [← hlog]; exact Nat.log2_self_le hne
    have hq : 2 ^ 52 ≤ q := by
      have : 2 ^ 52 * 2 ^ s < (q + 1) * 2 ^ s := by
        calc 2 ^ 52 * 2 ^ s = 2 ^ (s + 52) := by rw [← pow_add, Nat.add_comm]
          _ ≤ q * 2 ^ s + r := by rw [← hnum]; exact h1
          _ < q * 2 ^ s + 2 ^ s := by omega
          _ = (q + 1) * 2 ^ s := by ring
      have := Nat.lt_of_mul_lt_mul_right this
      omega
    by_cases hlog' : 52 + (s - d) ≤ Nat.log2 b
    · exact .inl (dvd_of_log2 hb hlog')
    · right
      refine ⟨hq, ?_⟩
      have : b < 2 ^ (52 + (s - d)) := Nat.lt_log2_self.trans_le (Nat.pow_le_pow_right (by norm_num) (by omega))
      rw [pow_add] at this
      exact this.trans_le (Nat.mul_le_mul_right _ hq)
  · left; rw [show s - d = 0 by omega]; simp

/-- At most 53 significant bits, below the overflow threshold: representable. -/
theorem rep_mul {j e : Nat} (hj : j ≤ 2 ^ 53) (he : 53 + e < overflowExp) : magRepresentable (j * 2 ^ e) := by
  refine (magRepresentable_iff _).mpr ⟨⟨j, e, hj, rfl⟩, ?_⟩
  rcases Nat.eq_zero_or_pos j with rfl | hj0
  · simp [overflowExp]
  · rw [Nat.log2_lt (by positivity)]
    calc j * 2 ^ e ≤ 2 ^ 53 * 2 ^ e := Nat.mul_le_mul_right _ hj
      _ < _ := by rw [← pow_add]; exact Nat.pow_lt_pow_right (by norm_num) (by omega)

/-- R16: a representable magnitude rounds to itself. -/
theorem roundNearest_exact_zero (neg : Bool) {b : Nat} (hb : magRepresentable b) : roundNearest neg b 0 = .fin neg b := by
  simpa using roundNearest_exact neg 0 hb

/-- R16: the sum of two finite values of opposite sign. -/
theorem fadd_opp (na : Bool) (x y : Nat) : fadd (.fin na x) (.fin (!na) y) =
    if x = y then .fin false 0 else if y < x then roundNearest na (x - y) 0 else roundNearest (!na) (y - x) 0 := by
  show (if na = !na then _ else _) = _
  rw [if_neg (by cases na <;> simp)]

/-- R16: the difference of two finite values that are not negative. -/
theorem fsub_pos (x y : Nat) : fsub (.fin false x) (.fin false y) =
    if x = y then .fin false 0 else if y < x then roundNearest false (x - y) 0 else roundNearest true (y - x) 0 :=
  fadd_opp false x y

/-- R16: a negative and a positive finite value. -/
theorem fadd_neg (x y : Nat) : fadd (.fin true x) (.fin false y) =
    if x = y then .fin false 0 else if y < x then roundNearest true (x - y) 0 else roundNearest false (y - x) 0 :=
  fadd_opp true x y

/-- R16: zero and a finite value. -/
theorem fadd_zero_left (y : Nat) : fadd (.fin false 0) (.fin false y) = roundNearest false (0 + y) 0 := by
  unfold fadd
  simp only [if_true]

end Sys2Proof.Machine
end

