-- ==== Sys2Proof/Laws/Dither.lean ====
section
/-! SUPPORT. What the dither generator gives (43_dither.md R160 to R163). -/

namespace Sys2Proof.Machine

/-- R162: the state after `k` steps, in closed form. -/
theorem splitMixState_eq (key : Word) (k : Nat) :
    splitMixState key k = key + BitVec.ofNat 64 k * 0x9E3779B97F4A7C15#64 := by
  induction k with
  | zero => simp [splitMixState]
  | succ n ih =>
    rw [splitMixState, ih, splitMixNext, BitVec.ofNat_add, BitVec.add_mul, BitVec.add_assoc]
    congr 2

theorem drawT_representable (z : Word) (step : F64) : (drawT z step).representable := fmul_representable _ _

theorem ditherHi_representable {t : F64} (step : F64) (ht : t.representable) : (ditherHi t step).representable := by
  unfold ditherHi
  simp only
  split_ifs
  · exact fsub_representable _ _ ht (fmul_representable _ _)
  · exact fadd_representable _ _ ht (fmul_representable _ _)

/-- R163: the value of a pair's first member. -/
theorem unpack_ditherPair_lo (key stepSize : Word) (k : Nat) :
    unpack (ditherPair key stepSize k).lo = drawT (ditherWord key k) (unpack stepSize) :=
  unpack_pack _ (drawT_representable _ _)

/-- R160: the value of a pair's second member. -/
theorem unpack_ditherPair_hi (key stepSize : Word) (k : Nat) :
    unpack (ditherPair key stepSize k).hi =
      ditherHi (drawT (ditherWord key k) (unpack stepSize)) (unpack stepSize) :=
  unpack_pack _ (ditherHi_representable _ (drawT_representable _ _))

theorem ditherTable_getElem (key stepSize : Word) (k : Fin 12) :
    (ditherTable key stepSize)[k] = ditherPair key stepSize k := by simp [ditherTable]

/-! ### Where the pairs lie (R164) -/

/-- R19: 2^-53 and 0.5 in least subnormals, by one exponent. -/
theorem constants_eq : ∃ e, 53 + e < overflowExp ∧ twoPowMinus53 = .fin false (2 ^ e) ∧ unit = 2 ^ 53 * 2 ^ e ∧
    half = .fin false (2 ^ 52 * 2 ^ e) := by
  refine ⟨1021, by decide +kernel, by decide +kernel, by decide +kernel, by decide +kernel⟩

/-- The difference of a 53-bit integer and half the range is exact. -/
theorem centred_core (u e K : Nat) (hK : K = 2 ^ 52) (hu : u < 2 * K) (he : 53 + e < overflowExp) :
    ∃ neg j, j ≤ K ∧ (neg = false → j < K) ∧ fsub (.fin false (u * 2 ^ e)) (.fin false (K * 2 ^ e)) = .fin neg (j * 2 ^ e) := by
  have hpos : 0 < 2 ^ e := by positivity
  have hr : ∀ j, j ≤ K → magRepresentable (j * 2 ^ e) := fun j hj => rep_mul (by omega) he
  simp only [fsub_pos, Nat.mul_left_inj hpos.ne', Nat.mul_lt_mul_right hpos, ← Nat.sub_mul]
  split_ifs with h1 h2
  · exact ⟨false, 0, by omega, by omega, by rw [Nat.zero_mul]⟩
  · exact ⟨false, u - K, by omega, by omega, roundNearest_exact_zero _ (hr _ (by omega))⟩
  · exact ⟨true, K - u, by omega, by simp, roundNearest_exact_zero _ (hr _ (by omega))⟩

/-- R163: r - 0.5 is exact, from -1/2 (reached) to 1/2 (not reached), in steps of 2^-53. -/
theorem centred (z : Word) : ∃ e neg j, 53 + e < overflowExp ∧ unit = 2 ^ 53 * 2 ^ e ∧
    half = .fin false (2 ^ 52 * 2 ^ e) ∧ j ≤ 2 ^ 52 ∧ (neg = false → j < 2 ^ 52) ∧
    fsub (fmul (ofInteger (z >>> 11).toNat) twoPowMinus53) half = .fin neg (j * 2 ^ e) := by
  obtain ⟨e, he, hp, hu, hh⟩ := constants_eq
  have hz : (z >>> 11).toNat < 2 ^ 53 := by
    rw [BitVec.toNat_ushiftRight, Nat.shiftRight_eq_div_pow, Nat.div_lt_iff_lt_mul (by positivity)]
    exact z.isLt
  generalize (z >>> 11).toNat = u at *
  have h1 : fmul (ofInteger u) twoPowMinus53 = .fin false (u * 2 ^ e) := by
    rw [hp]; exact fmul_exact false false (rep_mul hz.le he) (by rw [hu]; ring)
  generalize hK : 2 ^ 52 = K at *
  obtain ⟨neg, j, k1, k2, k3⟩ := centred_core u e K hK.symm (by omega) he
  exact ⟨e, neg, j, he, hu, hh, k1, k2, by rw [h1, hh]; exact k3⟩

/-- Half of a magnitude of at least 2^53 is representable, and so is the value before it. -/
theorem half_rep {S : Nat} (h : magRepresentable S) (hS : 2 ^ 53 ≤ S) :
    ∃ q e, 2 ^ 52 ≤ q ∧ q < 2 ^ 53 ∧ S = 2 * (q * 2 ^ e) ∧ magRepresentable (q * 2 ^ e) ∧ magRepresentable ((q - 1) * 2 ^ e) := by
  have hS0 : S ≠ 0 := by omega
  have hlog : 53 ≤ Nat.log2 S := (Nat.le_log2 hS0).mpr hS
  obtain ⟨q, hq⟩ := h.1
  have hsplit : Nat.log2 S - 52 = (Nat.log2 S - 53) + 1 := by omega
  have hlo := Nat.log2_self_le hS0
  have hhi : S < 2 ^ (Nat.log2 S + 1) := Nat.lt_log2_self
  have hov := h.2
  generalize Nat.log2 S = L at *
  have hL : 2 ^ L = 2 ^ 52 * 2 ^ (L - 52) := by rw [← pow_add]; congr 1; omega
  have hq1 : 2 ^ 52 ≤ q := by
    refine Nat.le_of_mul_le_mul_right (c := 2 ^ (L - 52)) ?_ (by positivity)
    rw [← hL, Nat.mul_comm q, ← hq]; exact hlo
  have hq2 : q < 2 ^ 53 := by
    refine Nat.lt_of_mul_lt_mul_right (a := 2 ^ (L - 52)) ?_
    rw [Nat.mul_comm q, ← hq]
    calc S < 2 ^ (L + 1) := hhi
      _ = _ := by rw [pow_succ, hL]; ring
  refine ⟨q, L - 53, hq1, hq2, ?_, rep_mul hq2.le (by omega), rep_mul (by omega) (by omega)⟩
  rw [hq, hsplit, pow_succ]; ring

/-- R164: where the first member lies, for a step of at least 2^53 least subnormals. -/
theorem draw_range (z : Word) {S : Nat} (h : magRepresentable S) (hS : 2 ^ 53 ≤ S) :
    ∃ neg m, drawT z (.fin false S) = .fin neg m ∧ 2 * m ≤ S ∧ (neg = false → 2 * m < S) := by
  obtain ⟨e, neg, j, he, hu, -, hj, hjn, heq⟩ := centred z
  obtain ⟨q, e', hq1, hq2, hSq, hr1, hr2⟩ := half_rep h hS
  have hU : 2 ^ unitExp = 2 ^ 53 * 2 ^ e := by rw [← unit_eq, hu]
  unfold drawT
  rw [heq]
  show ∃ neg' m, roundNearest (neg ^^ false) (j * 2 ^ e * S) unitExp = _ ∧ _
  rw [Bool.xor_false]
  cases neg
  · have hj' := hjn rfl
    obtain ⟨m, hm, hm'⟩ := roundNearest_le false (num := j * 2 ^ e * S) (d := unitExp) hr2 (by
      rw [hU, hSq]
      have : j * q ≤ (q - 1) * 2 ^ 52 := by
        calc j * q ≤ (2 ^ 52 - 1) * q := Nat.mul_le_mul_right _ (by omega)
          _ ≤ _ := by omega
      calc j * 2 ^ e * (2 * (q * 2 ^ e')) = (j * q) * (2 * 2 ^ e * 2 ^ e') := by ring
        _ ≤ ((q - 1) * 2 ^ 52) * (2 * 2 ^ e * 2 ^ e') := Nat.mul_le_mul_right _ this
        _ = _ := by ring)
    refine ⟨false, m, hm', ?_, fun _ => ?_⟩
    · have : (q - 1) * 2 ^ e' ≤ q * 2 ^ e' := Nat.mul_le_mul_right _ (by omega)
      omega
    · have : (q - 1) * 2 ^ e' < q * 2 ^ e' := Nat.mul_lt_mul_of_pos_right (by omega) (by positivity)
      omega
  · obtain ⟨m, hm, hm'⟩ := roundNearest_le true (num := j * 2 ^ e * S) (d := unitExp) hr1 (by
      rw [hU, hSq]
      calc j * 2 ^ e * (2 * (q * 2 ^ e')) ≤ 2 ^ 52 * 2 ^ e * (2 * (q * 2 ^ e')) := by
            exact Nat.mul_le_mul_right _ (Nat.mul_le_mul_right _ hj)
        _ = _ := by ring)
    exact ⟨true, m, hm', by omega, by simp⟩

/-- R164: where the second member lies. -/
theorem hi_range {S : Nat} (h : magRepresentable S) (hS : 2 ^ 53 ≤ S) {neg m} (hm : 2 * m ≤ S) :
    ∃ n' m', ditherHi (.fin neg m) (.fin false S) = .fin n' m' ∧ 2 * m' ≤ S := by
  obtain ⟨q, e', hq1, hq2, hSq, hr1, hr2⟩ := half_rep h hS
  obtain ⟨e, he, -, hu, hh⟩ := constants_eq
  have hhalf : fmul (.fin false S) half = .fin false (q * 2 ^ e') := by
    rw [hh]; exact fmul_exact false false hr1 (by rw [hSq, hu]; ring)
  unfold ditherHi
  simp only [hhalf]
  generalize q * 2 ^ e' = T at *
  have hle : ∀ n x, x ≤ T → ∃ n' m', roundNearest n x 0 = .fin n' m' ∧ 2 * m' ≤ S := by
    intro n x hx
    obtain ⟨k, hk, hk'⟩ := roundNearest_le n (num := x) (d := 0) hr1 (by simpa using hx)
    exact ⟨n, k, hk', by omega⟩
  have hzero : unpack 0#64 = .fin false 0 := by decide
  unfold zero
  rw [hzero]
  cases neg
  · by_cases h0 : m = 0
    · subst h0
      rw [if_neg (by decide)]
      rw [fadd_zero_left]; exact hle _ _ (by omega)
    · rw [if_pos (by simp only [fgt, flt, signedMag, Bool.false_eq_true, if_false, decide_eq_true_eq]; omega)]
      rw [fsub_pos]
      split_ifs
      · exact ⟨_, _, rfl, by omega⟩
      · exact hle _ _ (by omega)
      · exact hle _ _ (by omega)
  · rw [if_neg (by simp only [fgt, flt, signedMag, Bool.false_eq_true, if_false, if_true, decide_eq_true_eq]; omega)]
    rw [fadd_neg]
    split_ifs
    · exact ⟨_, _, rfl, by omega⟩
    · exact hle _ _ (by omega)
    · exact hle _ _ (by omega)

end Sys2Proof.Machine
end

