-- ==== Sys2Proof/Laws/Error.lean ====
section
/-! SUPPORT. The arithmetic of R16 beside real arithmetic: each operation on finite values, in real numbers, with a bound on
its one rounding. -/

namespace Sys2Proof.Machine.Error

/-- The real value of a finite datum; 0 for the others. -/
noncomputable def val (x : F64) : ℝ :=
  match x with
  | .nan => 0
  | .inf _ => 0
  | .fin neg mag => (if neg then -1 else 1) * (mag : ℝ) / unit

/-- `unit` is a positive real. -/
theorem unit_real : (0 : ℝ) < unit := by exact_mod_cast unit_pos

/-- R16: what rounding is off by: at most 2^-53 of the operand, or half a least subnormal. -/
theorem round_err (neg : Bool) (num d : Nat) (B : Nat) (hB : magRepresentable B) (h : num ≤ B * 2 ^ d) :
    ∃ m, roundNearest neg num d = .fin neg m ∧ magRepresentable m ∧
      |(m : ℝ) - num / 2 ^ d| ≤ (1 / 2) ^ 53 * (num / 2 ^ d) + (if d = 0 then 0 else 1 / 2) := by
  obtain ⟨m, -, hm⟩ := roundNearest_le neg hB h
  have hrep := roundNearest_representable neg num d
  obtain ⟨s, q, r, k, hs, hnum, hr, hk, heq⟩ := roundNearest_split neg num d
  rw [hm] at hrep heq
  split_ifs at heq with hov
  injection heq with _ h2
  refine ⟨m, hm, hrep, ?_⟩
  have hds : d ≤ s := by omega
  have hsplit : (2 : ℝ) ^ s = 2 ^ (s - d) * 2 ^ d := by rw [← pow_add]; congr 1; omega
  have hd0 : (0 : ℝ) < 2 ^ d := by positivity
  have hnumR : (num : ℝ) = q * 2 ^ s + r := by exact_mod_cast hnum
  have hmR : (m : ℝ) * 2 ^ d = k * 2 ^ s := by rw [h2]; push_cast; rw [mul_assoc, ← hsplit]
  have hkr : |(k : ℝ) * 2 ^ s - num| ≤ 2 ^ s / 2 ∧ (s = 0 → (k : ℝ) * 2 ^ s - num = 0) := by
    rw [hnumR]
    rcases hk with ⟨rfl, h'⟩ | ⟨rfl, h'⟩
    · constructor
      · rw [show (k : ℝ) * 2 ^ s - (k * 2 ^ s + r) = -r by ring, abs_neg, abs_of_nonneg (by positivity)]
        have : 2 * r ≤ 2 ^ s := by omega
        have : (2 * r : ℝ) ≤ 2 ^ s := by exact_mod_cast this
        linarith
      · rintro rfl
        have : r = 0 := by simpa using hr
        simp [this]
    · constructor
      · rw [show ((q + 1 : ℕ) : ℝ) * 2 ^ s - (q * 2 ^ s + r) = 2 ^ s - r by push_cast; ring]
        have h1 : (r : ℝ) < 2 ^ s := by exact_mod_cast hr
        rw [abs_of_nonneg (by linarith)]
        have : 2 ^ s ≤ 2 * r := by omega
        have : (2 : ℝ) ^ s ≤ 2 * r := by exact_mod_cast this
        linarith
      · rintro rfl
        have : r = 0 := by simpa using hr
        subst this; simp at h'
  have e : (m : ℝ) - num / 2 ^ d = (k * 2 ^ s - num) / 2 ^ d := by
    rw [← hmR]; field_simp
  rw [e, abs_div, abs_of_pos hd0]
  rcases Nat.lt_or_ge d s with hlt | hge
  · have hlog := le_log2_of_shift hs hlt
    have hne : num ≠ 0 := by rintro rfl; simp at hlog
    have h1 : 2 ^ (s + 52) ≤ num := by rw [← hlog]; exact Nat.log2_self_le hne
    have h2 : (2 : ℝ) ^ (s + 52) ≤ num := by exact_mod_cast h1
    have h3 : (2 : ℝ) ^ s / 2 ≤ (1 / 2) ^ 53 * num := by
      rw [pow_add] at h2
      norm_num at h2 ⊢
      linarith
    have : |(k : ℝ) * 2 ^ s - num| / 2 ^ d ≤ (1 / 2) ^ 53 * (num / 2 ^ d) := by
      rw [← mul_div_assoc]; gcongr; exact hkr.1.trans h3
    split_ifs <;> linarith
  · obtain rfl : s = d := by omega
    have : (0 : ℝ) ≤ (1 / 2) ^ 53 * (num / 2 ^ s) := by positivity
    split_ifs with h0
    · rw [hkr.2 h0]; simp; 
      positivity
    · have : |(k : ℝ) * 2 ^ s - num| / 2 ^ s ≤ 1 / 2 := by
        rw [div_le_iff₀ hd0]; linarith [hkr.1]
      linarith

/-- A bound below which nothing overflows. -/
noncomputable def big : ℝ := 2 ^ (960 : ℕ)

/-- The unit roundoff, 2^-53. -/
noncomputable def u : ℝ := (1 / 2) ^ 53

/-- The least subnormal, 2^-1074. -/
noncomputable def eta : ℝ := 1 / unit

theorem eta_pos : 0 < eta := by unfold eta; have := unit_real; positivity

theorem eta_le : eta ≤ (1 / 2) ^ 100 := by
  unfold eta
  rw [unit_eq]
  push_cast
  rw [one_div, ← inv_pow, ← one_div]
  exact pow_le_pow_of_le_one (by norm_num) (by norm_num) (by rw [unitExp_eq]; norm_num)

theorem u_eq : u = 1 / 9007199254740992 := by unfold u; norm_num

/-- `big` is a binary64 value. -/
theorem bigRep : magRepresentable (2 ^ (960 + unitExp)) := by
  have := rep_mul (j := 1) (e := 960 + unitExp) (by norm_num) (by rw [unitExp_eq]; decide)
  rwa [one_mul] at this

/-- `big`, in least subnormals. -/
theorem big_nat {n d : ℕ} (h : (n : ℝ) / 2 ^ d / unit ≤ big) : n ≤ 2 ^ (960 + unitExp) * 2 ^ d := by
  unfold big at h
  rw [div_div, div_le_iff₀ (by have := unit_real; positivity), unit_eq] at h
  have : (n : ℝ) ≤ ((2 ^ (960 + unitExp) * 2 ^ d : ℕ) : ℝ) := by
    push_cast at h ⊢; rw [pow_add]; linarith
  exact_mod_cast this

/-- `x` is a finite binary64 value within `e` of the real `a`. -/
def Near (x : F64) (a e : ℝ) : Prop := (∃ neg mag, x = .fin neg mag ∧ magRepresentable mag) ∧ |val x - a| ≤ e

theorem val_fin (neg : Bool) (m : ℕ) : val (.fin neg m) = (if neg then -1 else 1) * (m : ℝ) / unit := rfl

theorem sgn_abs (neg : Bool) : |(if neg then -1 else 1 : ℝ)| = 1 := by cases neg <;> simp

/-- The rounding of a signed quantity is near it. -/
theorem round_near (neg : Bool) (num d : ℕ) (h : (num : ℝ) / 2 ^ d / unit ≤ big) :
    Near (roundNearest neg num d) ((if neg then -1 else 1) * ((num : ℝ) / 2 ^ d / unit))
      (u * ((num : ℝ) / 2 ^ d / unit) + (if d = 0 then 0 else eta / 2)) := by
  obtain ⟨m, h1, h2, h3⟩ := round_err neg num d _ bigRep (big_nat h)
  refine ⟨⟨neg, m, h1, h2⟩, ?_⟩
  rw [h1, val_fin]
  have hu := unit_real
  rw [show (if neg then -1 else 1 : ℝ) * m / unit - (if neg then -1 else 1) * ((num : ℝ) / 2 ^ d / unit) =
    (if neg then -1 else 1) * (((m : ℝ) - num / 2 ^ d) / unit) by ring, abs_mul, sgn_abs, one_mul, abs_div, abs_of_pos hu,
    div_le_iff₀ hu]
  refine h3.trans (le_of_eq ?_)
  unfold u eta
  split_ifs <;> field_simp <;> ring

/-- R16: a sum of finite values is near the real sum. -/
theorem add_near {x y : F64} {nx ny : Bool} {mx my : ℕ} (hx : x = .fin nx mx) (hy : y = .fin ny my)
    (h : |val x + val y| ≤ big) : Near (fadd x y) (val x + val y) (u * |val x + val y|) := by
  subst hx hy
  have hu := unit_real
  have key : ∀ (neg : Bool) (n : ℕ), val (.fin nx mx) + val (.fin ny my) = (if neg then -1 else 1) * ((n : ℝ) / unit) →
      fadd (.fin nx mx) (.fin ny my) = roundNearest neg n 0 →
      Near (fadd (.fin nx mx) (.fin ny my)) (val (.fin nx mx) + val (.fin ny my))
        (u * |val (.fin nx mx) + val (.fin ny my)|) := by
    intro neg n hv hf
    rw [hv, abs_mul, sgn_abs, one_mul, abs_of_nonneg (by positivity)] at h
    rw [hf, hv, abs_mul, sgn_abs, one_mul, abs_of_nonneg (by positivity)]
    have := round_near neg n 0 (by simpa using h)
    simpa using this
  cases nx <;> cases ny
  · refine key false (mx + my) ?_ (by unfold fadd; simp only [if_true])
    simp [val_fin]; ring
  · have e : fadd (.fin false mx) (.fin true my) = _ := fadd_opp false mx my
    rcases Nat.lt_trichotomy mx my with hlt | heq | hgt
    · refine key true (my - mx) ?_ (by rw [e, if_neg (by omega), if_neg (by omega)]; rfl)
      rw [Nat.cast_sub hlt.le]; simp [val_fin]; ring
    · subst heq
      rw [e, if_pos rfl]
      refine ⟨⟨false, 0, rfl, magRepresentable_zero⟩, ?_⟩
      simp only [val_fin, Bool.false_eq_true, if_false, if_true]
      ring_nf; simp
    · refine key false (mx - my) ?_ (by rw [e, if_neg (by omega), if_pos (by omega)])
      rw [Nat.cast_sub hgt.le]; simp [val_fin]; ring
  · have e : fadd (.fin true mx) (.fin false my) = _ := fadd_opp true mx my
    rcases Nat.lt_trichotomy mx my with hlt | heq | hgt
    · refine key false (my - mx) ?_ (by rw [e, if_neg (by omega), if_neg (by omega)]; rfl)
      rw [Nat.cast_sub hlt.le]; simp [val_fin]; ring
    · subst heq
      rw [e, if_pos rfl]
      refine ⟨⟨false, 0, rfl, magRepresentable_zero⟩, ?_⟩
      simp only [val_fin, Bool.false_eq_true, if_false, if_true]
      ring_nf; simp
    · refine key true (mx - my) ?_ (by rw [e, if_neg (by omega), if_pos (by omega)])
      rw [Nat.cast_sub hgt.le]; simp [val_fin]; ring
  · refine key true (mx + my) ?_ (by unfold fadd; simp only [if_true])
    simp [val_fin]; ring

theorem val_fneg (neg : Bool) (m : ℕ) : val (fneg (.fin neg m)) = - val (.fin neg m) := by
  cases neg <;> simp [fneg, val_fin] <;> ring

/-- R16: a difference of finite values is near the real difference. -/
theorem sub_near {x y : F64} {nx ny : Bool} {mx my : ℕ} (hx : x = .fin nx mx) (hy : y = .fin ny my)
    (h : |val x - val y| ≤ big) : Near (fsub x y) (val x - val y) (u * |val x - val y|) := by
  subst hx hy
  have hv := val_fneg ny my
  have := add_near (x := .fin nx mx) (y := fneg (.fin ny my)) rfl rfl (by rw [hv, ← sub_eq_add_neg]; exact h)
  rw [hv, ← sub_eq_add_neg] at this
  exact this

theorem val_abs (neg : Bool) (m : ℕ) : |val (.fin neg m)| = m / unit := by
  rw [val_fin, abs_div, abs_mul, sgn_abs, one_mul, abs_of_nonneg (by positivity), abs_of_pos unit_real]

/-- R16: a product of finite values is near the real product. -/
theorem mul_near {x y : F64} {nx ny : Bool} {mx my : ℕ} (hx : x = .fin nx mx) (hy : y = .fin ny my)
    (h : |val x * val y| ≤ big) :
    Near (fmul x y) (val x * val y) (u * |val x * val y| + eta / 2) := by
  subst hx hy
  have hu := unit_real
  have ha : |val (.fin nx mx) * val (.fin ny my)| = ((mx * my : ℕ) : ℝ) / 2 ^ unitExp / unit := by
    rw [abs_mul, val_abs, val_abs, unit_eq]; push_cast; field_simp
  have hv : val (.fin nx mx) * val (.fin ny my) =
      (if nx ^^ ny then -1 else 1) * (((mx * my : ℕ) : ℝ) / 2 ^ unitExp / unit) := by
    rw [val_fin, val_fin, unit_eq]; push_cast
    cases nx <;> cases ny <;> simp <;> field_simp
  rw [ha] at h
  have := round_near (nx ^^ ny) (mx * my) unitExp h
  rw [if_neg (show unitExp ≠ 0 by rw [unitExp_eq]; decide), ← hv, ← ha] at this
  exact this

theorem u_pos : 0 < u := by unfold u; positivity

theorem Near.fin {x : F64} {a e : ℝ} (h : Near x a e) : ∃ neg mag, x = .fin neg mag := by
  obtain ⟨⟨n, m, h, -⟩, -⟩ := h; exact ⟨n, m, h⟩

/-- A value near something bounded is bounded. -/
theorem Near.abs_val_le {x : F64} {a e A : ℝ} (h : Near x a e) (ha : |a| ≤ A) : |val x| ≤ A + e := by
  have := h.2
  calc |val x| = |(val x - a) + a| := by ring_nf
    _ ≤ |val x - a| + |a| := abs_add_le _ _
    _ ≤ _ := by linarith

theorem Near.bound {x : F64} {a e A : ℝ} (h : Near x a e) (ha : |a| ≤ A) (hA : A + e ≤ B) :
    (∃ neg mag, x = .fin neg mag) ∧ |val x| ≤ B := ⟨h.fin, (h.abs_val_le ha).trans hA⟩

theorem big_ge : (2 : ℝ) ^ 60 ≤ big := by
  unfold big; exact pow_le_pow_right₀ (by norm_num) (by norm_num)

theorem big_mul {S c : ℝ} (hS' : S ≤ 2 ^ 900) (_hc : 0 ≤ c) (hc' : c ≤ 2 ^ 20) (hS : 0 ≤ S) : c * S ≤ big := by
  have h1 : c * S ≤ 2 ^ 20 * 2 ^ 900 := mul_le_mul hc' hS' hS (by positivity)
  refine h1.trans ?_
  unfold big
  rw [← pow_add]; exact pow_le_pow_right₀ (by norm_num) (by norm_num)

/-- The signed count of least subnormals. -/
def units (x : F64) : ℤ := match x with | .fin n m => signedMag n m | _ => 0

theorem val_units (x : F64) : val x = units x / unit := by
  cases x with
  | nan => simp [val, units]
  | inf n => simp [val, units]
  | fin n m => cases n <;> simp [val_fin, units, signedMag]

/-- A finite value of magnitude at most 1. -/
def small (x : F64) : Bool := match x with | .fin _ m => decide ((m : Int) ≤ (unit : Int)) | _ => false

theorem small_spec {x : F64} (h : small x = true) : (∃ neg mag, x = .fin neg mag) ∧ |val x| ≤ 1 := by
  cases x with
  | nan => simp [small] at h
  | inf n => simp [small] at h
  | fin n m =>
    refine ⟨⟨n, m, rfl⟩, ?_⟩
    have : (m : Int) ≤ (unit : Int) := by simpa only [small, decide_eq_true_eq] using h
    have : m ≤ unit := by exact_mod_cast this
    rw [val_abs, div_le_one unit_real]; exact_mod_cast this

/-- A finite value. -/
abbrev IsFin (x : F64) : Prop := ∃ neg mag, x = .fin neg mag

theorem val_fneg_of {x : F64} (h : IsFin x) : val (fneg x) = - val x := by
  obtain ⟨n, m, rfl⟩ := h; exact val_fneg n m

theorem fneg_fin {x : F64} (h : IsFin x) : IsFin (fneg x) := by
  obtain ⟨n, m, rfl⟩ := h; exact ⟨_, _, rfl⟩

theorem val_fabs {x : F64} (h : IsFin x) : IsFin (fabs x) ∧ val (fabs x) = |val x| := by
  obtain ⟨n, m, rfl⟩ := h
  refine ⟨⟨_, _, rfl⟩, ?_⟩
  rw [val_abs]; simp [fabs, val_fin]

/-- R16: comparison is that of the reals. -/
theorem flt_val {x y : F64} (hx : IsFin x) (hy : IsFin y) : flt x y = true ↔ val x < val y := by
  obtain ⟨n, m, rfl⟩ := hx
  obtain ⟨n', m', rfl⟩ := hy
  rw [val_units, val_units, div_lt_div_iff_of_pos_right unit_real]
  simp only [flt, decide_eq_true_eq, units]
  exact (Int.cast_lt (R := ℝ)).symm

/-- R16: `ffloor` is the floor of the real value. -/
theorem floor_val {x : F64} (h : IsFin x) : IsFin (ffloor x) ∧ ∃ n : ℤ, val (ffloor x) = n ∧ n ≤ val x ∧ val x < n + 1 := by
  obtain ⟨neg, m, rfl⟩ := h
  have hu := unit_real
  have hm : (m : ℝ) = (m / unit : ℕ) * unit + (m % unit : ℕ) := by
    have := (Nat.div_add_mod' m unit).symm
    exact_mod_cast this
  have hr : ((m % unit : ℕ) : ℝ) < unit := by exact_mod_cast Nat.mod_lt m unit_pos
  have hr0 : (0 : ℝ) ≤ ((m % unit : ℕ) : ℝ) := by positivity
  unfold ffloor
  simp only
  generalize m / unit = q at *
  generalize m % unit = r at *
  split_ifs with hc
  · simp only [Bool.and_eq_true, decide_eq_true_eq] at hc
    obtain ⟨rfl, hne⟩ := hc
    refine ⟨⟨_, _, rfl⟩, -((q : ℤ) + 1), ?_, ?_, ?_⟩
    · simp only [val_fin, if_true]; push_cast; field_simp
    · simp only [val_fin, if_true]; push_cast
      rw [le_div_iff₀ hu]; linarith
    · simp only [val_fin, if_true]; push_cast
      rw [div_lt_iff₀ hu]
      have : 0 < (r : ℝ) := by exact_mod_cast Nat.pos_of_ne_zero hne
      linarith
  · cases neg
    · refine ⟨⟨_, _, rfl⟩, (q : ℤ), ?_, ?_, ?_⟩
      · simp only [val_fin, Bool.false_eq_true, if_false]; push_cast; field_simp
      · simp only [val_fin, Bool.false_eq_true, if_false]; push_cast
        rw [le_div_iff₀ hu]; linarith
      · simp only [val_fin, Bool.false_eq_true, if_false]; push_cast
        rw [div_lt_iff₀ hu]; linarith
    · have h0 : r = 0 := by simpa using hc
      subst h0
      refine ⟨⟨_, _, rfl⟩, -(q : ℤ), ?_, ?_, ?_⟩
      · simp only [val_fin, if_true]; push_cast; field_simp
      · simp only [val_fin, if_true]; push_cast
        rw [le_div_iff₀ hu, hm]; push_cast; linarith
      · simp only [val_fin, if_true]; push_cast
        rw [div_lt_iff₀ hu, hm]; push_cast; linarith

/-- R16: a quotient of finite values is near the real quotient. -/
theorem div_near {x y : F64} (hx : IsFin x) (hy : IsFin y) (hy0 : val y ≠ 0) (h : |val x / val y| ≤ big / 2) :
    Near (fdiv x y) (val x / val y) (u * |val x / val y| + eta) := by
  obtain ⟨nx, mx, rfl⟩ := hx
  obtain ⟨ny, my, rfl⟩ := hy
  have hu := unit_real
  have hmy : my ≠ 0 := by rintro rfl; exact hy0 (by simp [val_fin])
  have hmyR : (0 : ℝ) < my := by exact_mod_cast Nat.pos_of_ne_zero hmy
  have ha : |val (.fin nx mx) / val (.fin ny my)| = (mx : ℝ) / my := by
    rw [abs_div, val_abs, val_abs]; field_simp
  have hv : val (.fin nx mx) / val (.fin ny my) = (if nx ^^ ny then -1 else 1) * ((mx : ℝ) / my) := by
    rw [val_fin, val_fin]; cases nx <;> cases ny <;> simp <;> field_simp
  have e : fdiv (.fin nx mx) (.fin ny my) = if my = 0 then (if mx = 0 then .nan else .inf (nx ^^ ny)) else
      roundNearest (nx ^^ ny) (2 * ((mx <<< (unitExp + 2)) / my) + (if (mx <<< (unitExp + 2)) % my = 0 then 0 else 1)) 3 := rfl
  rw [e, if_neg hmy]
  set num := 2 * ((mx <<< (unitExp + 2)) / my) + (if (mx <<< (unitExp + 2)) % my = 0 then 0 else 1) with hnum
  have hX : mx <<< (unitExp + 2) = 4 * (mx * unit) := by
    rw [Nat.shiftLeft_eq, pow_add, unit_eq]; ring
  have hclose : |(num : ℝ) / 2 ^ 3 / unit - mx / my| ≤ eta / 8 := by
    rw [hX] at hnum
    have hdiv : 4 * (mx * unit) = (4 * (mx * unit) / my) * my + 4 * (mx * unit) % my := (Nat.div_add_mod' _ _).symm
    have hlt : 4 * (mx * unit) % my < my := Nat.mod_lt _ (by omega)
    generalize 4 * (mx * unit) / my = f at *
    generalize 4 * (mx * unit) % my = r at *
    have hd : 4 * ((mx : ℝ) * unit) = f * my + r := by exact_mod_cast hdiv
    have hl : (r : ℝ) < my := by exact_mod_cast hlt
    have hq : (mx : ℝ) / my = (f + r / my) / 4 / unit := by
      field_simp; linarith
    have hrm : (r : ℝ) / my < 1 := by rwa [div_lt_one hmyR]
    have hrm0 : 0 ≤ (r : ℝ) / my := by positivity
    have e2 : (num : ℝ) / 2 ^ 3 / unit - mx / my = ((num : ℝ) / 2 - f - r / my) / 4 / unit := by rw [hq]; ring
    rw [e2, abs_div, abs_div, abs_of_pos hu, abs_of_pos (by norm_num : (0 : ℝ) < 4)]
    unfold eta
    rw [div_div, div_div, div_le_div_iff₀ (by positivity) (by positivity)]
    have : |(num : ℝ) / 2 - f - r / my| ≤ 1 / 2 := by
      rw [hnum]
      split_ifs with h0
      · subst h0; push_cast; ring_nf; simp
      · push_cast; rw [abs_le]; constructor <;> linarith
    nlinarith
  have hetap := eta_pos
  have hbp := big_ge
  have heta := eta_le
  have hle : (num : ℝ) / 2 ^ 3 / unit ≤ mx / my + eta / 8 := by
    have := (abs_le.mp hclose).2; linarith
  rw [ha] at h
  have hr := round_near (nx ^^ ny) num 3 (by norm_num at hbp heta ⊢ hle; linarith)
  refine ⟨hr.1, ?_⟩
  rw [hv, abs_mul, sgn_abs, one_mul, abs_of_nonneg (show (0 : ℝ) ≤ (mx : ℝ) / my by positivity)]
  have h1 := hr.2
  rw [if_neg (show ¬ ((3 : ℕ) = 0) by norm_num)] at h1
  have h2 : |(if nx ^^ ny then -1 else 1 : ℝ) * ((num : ℝ) / 2 ^ 3 / unit) - (if nx ^^ ny then -1 else 1) * ((mx : ℝ) / my)| ≤ eta / 8 := by
    rw [← mul_sub, abs_mul, sgn_abs, one_mul]; exact hclose
  have := abs_sub_le (val (roundNearest (nx ^^ ny) num 3)) ((if nx ^^ ny then -1 else 1 : ℝ) * ((num : ℝ) / 2 ^ 3 / unit))
    ((if nx ^^ ny then -1 else 1) * ((mx : ℝ) / my))
  have hup := u_pos
  have h3 : u * ((num : ℝ) / 2 ^ 3 / unit) ≤ u * (mx / my) + u * (eta / 8) := by
    rw [← mul_add]; exact mul_le_mul_of_nonneg_left hle hup.le
  have h4 : u * (eta / 8) ≤ eta / 8 := by
    have : u * (eta / 8) ≤ 1 * (eta / 8) := mul_le_mul_of_nonneg_right (by rw [u_eq]; norm_num) (by positivity)
    linarith
  linarith

theorem half_val : IsFin half ∧ val half = 1 / 2 := by
  have h1 : small half = true := by decide +kernel
  refine ⟨(small_spec h1).1, ?_⟩
  have : units half * 2 = (unit : Int) := by decide +kernel
  rw [val_units, div_eq_div_iff unit_real.ne' (by norm_num)]
  have h : (units half : ℝ) * 2 = unit := by exact_mod_cast this
  linarith

theorem zero_val : IsFin zero ∧ val zero = 0 := by
  have : zero = .fin false 0 := by decide +kernel
  rw [this]
  exact ⟨⟨_, _, rfl⟩, by simp [val_fin]⟩

theorem ten_val : IsFin ten ∧ val ten = 10 := by
  have h : ten = .fin false (10 * unit) := by decide +kernel
  rw [h]
  refine ⟨⟨_, _, rfl⟩, ?_⟩
  have := unit_real
  rw [val_fin]; push_cast; field_simp

theorem sixteenth_val : val sixteenth = 1 / 16 := by
  have : units sixteenth * 16 = (unit : Int) := by decide +kernel
  rw [val_units, div_eq_div_iff unit_real.ne' (by norm_num)]
  have h : (units sixteenth : ℝ) * 16 = unit := by exact_mod_cast this
  linarith

theorem sixteenth_fin : ∃ neg mag, sixteenth = .fin neg mag := by
  have : small sixteenth = true := by decide +kernel
  exact (small_spec this).1

end Sys2Proof.Machine.Error
end

