-- ==== Sys2Proof/Laws/PerInstr.lean ====
section
/-! SUPPORT. What holds of every command as syntax, one lemma per command: its word is in its row of the command table
(30_encoding.md R103). -/

namespace Sys2Proof.Laws

/-- The `mask` column of R103: every bit is fixed, but `imm24` in SEEK. -/
def rowMask (i : Instr) : Word :=
  match i with
  | .seek _ => 0xFFFFFFFF000000FF#64
  | _ => 0xFFFFFFFFFFFFFFFF#64

/-- The `match` column of R103. -/
def rowMatch (i : Instr) : Word :=
  match i with
  | .nop => 0x00#64
  | .check => 0x01#64
  | .seek _ => 0x02#64
  | .next => 0x03#64
  | .srst => 0x0F#64
  | .bld => 0x10#64
  | .bst => 0x11#64
  | .bitld => 0x12#64
  | .bitst => 0x13#64
  | .fdct => 0x20#64
  | .idct => 0x21#64
  | .dgen => 0x30#64
  | .qemb => 0x40#64
  | .qext => 0x41#64
  | .embblk => 0x50#64
  | .extblk => 0x51#64
  | .emball => 0x58#64
  | .extall => 0x59#64

/-- R103: the command's word, under the mask of its row, is the row's match. -/
def tableRow.Statement (i : Instr) : Prop := WellFormed i → encode i &&& rowMask i = rowMatch i

theorem tableRow.nop : tableRow.Statement .nop := fun _ => by decide
theorem tableRow.check : tableRow.Statement .check := fun _ => by decide
theorem tableRow.next : tableRow.Statement .next := fun _ => by decide
theorem tableRow.srst : tableRow.Statement .srst := fun _ => by decide
theorem tableRow.bld : tableRow.Statement .bld := fun _ => by decide
theorem tableRow.bst : tableRow.Statement .bst := fun _ => by decide
theorem tableRow.bitld : tableRow.Statement .bitld := fun _ => by decide
theorem tableRow.bitst : tableRow.Statement .bitst := fun _ => by decide
theorem tableRow.fdct : tableRow.Statement .fdct := fun _ => by decide
theorem tableRow.idct : tableRow.Statement .idct := fun _ => by decide
theorem tableRow.dgen : tableRow.Statement .dgen := fun _ => by decide
theorem tableRow.qemb : tableRow.Statement .qemb := fun _ => by decide
theorem tableRow.qext : tableRow.Statement .qext := fun _ => by decide
theorem tableRow.embblk : tableRow.Statement .embblk := fun _ => by decide
theorem tableRow.extblk : tableRow.Statement .extblk := fun _ => by decide
theorem tableRow.emball : tableRow.Statement .emball := fun _ => by decide
theorem tableRow.extall : tableRow.Statement .extall := fun _ => by decide

theorem tableRow.seek (imm : Nat) : tableRow.Statement (.seek imm) := by
  intro _
  show formatI 0x02#8 (BitVec.ofNat 24 imm) &&& 0xFFFFFFFF000000FF#64 = 0x02#64
  generalize BitVec.ofNat 24 imm = v
  apply BitVec.eq_of_getLsbD_eq
  intro k hk
  rcases Nat.lt_or_ge k 8 with h | h
  · rw [BitVec.getLsbD_and, formatI, BitVec.getLsbD_append, if_pos (by omega), BitVec.getLsbD_append, if_pos h]
    interval_cases k <;> rfl
  · rcases Nat.lt_or_ge k 32 with h' | h'
    · have hm : (0xFFFFFFFF000000FF#64).getLsbD k = false := by interval_cases k <;> decide
      have hr : (0x02#64).getLsbD k = false := by interval_cases k <;> decide
      rw [BitVec.getLsbD_and, hm, hr, Bool.and_false]
    · have hr : (0x02#64).getLsbD k = false := by interval_cases k <;> decide
      rw [BitVec.getLsbD_and, hr, formatI, BitVec.getLsbD_append, if_neg (by omega)]
      simp

end Sys2Proof.Laws
end

