-- ==== Sys2Proof/Laws/Quantizer.lean ====
section
/-! SUPPORT. What the quantizer commands give (44_qim.md R175 to R180). -/

namespace Sys2Proof.Machine

/-- R176: slot `k` is the slot of mask index `k`. -/
@[simp] theorem maskSlot_maskIndex (k : Fin 12) : maskSlot (maskIndex k) = some k := by revert k; decide

/-- R176: an index outside the mask has no slot. -/
theorem maskSlot_eq_none {i : Fin 64} (h : ∀ k, maskIndex k ≠ i) : maskSlot i = none := by
  rw [maskSlot, List.find?_eq_none]
  intro k _ hk
  exact h k (by simpa using hk)

/-- R177: a quantized value is a binary64 value. -/
theorem quantize_representable (v s : F64) : (quantize v s).representable := by
  unfold quantize
  simp only
  split_ifs
  · exact fneg_representable (fmul_representable _ _)
  · exact fmul_representable _ _

theorem pickDither_representable (p : DitherPair) (bit : Bool) : (pickDither p bit).representable := by
  cases bit
  · exact unpack_representable p.lo
  · exact unpack_representable p.hi

/-- R178: what QEMB leaves at a mask index. -/
theorem unpack_qembBody_mask (s : State) (k : Fin 12) : unpack (qembBody s).blk[maskIndex k] = s.embedded k := by
  have h : (qembBody s).blk[maskIndex k] = pack (Config.freeWord (s.freeCtr + maskIndex k)) (s.embedded k) := by
    simp only [qembBody, State.useFree, State.storeBlk, State.embeddedBlock, Fin.getElem_fin, Vector.getElem_ofFn,
      Fin.eta, maskSlot_maskIndex]
  rw [h, unpack_pack]
  exact fsub_representable _ _ (quantize_representable _ _) (pickDither_representable _ _)

/-- R175, R184: QEMB leaves the 52 other elements as they are. -/
theorem qembBody_other (s : State) {i : Fin 64} (h : ∀ k, maskIndex k ≠ i) : (qembBody s).blk[i] = s.blk[i] := by
  simp only [qembBody, State.useFree, State.storeBlk, State.embeddedBlock, Fin.getElem_fin, Vector.getElem_ofFn,
    Fin.eta, maskSlot_eq_none h]

end Sys2Proof.Machine
end

