-- ==== Sys2Proof/Laws/QuantizerError.lean ====
section
/-! SUPPORT. The quantizer of 44_qim.md beside real arithmetic: why a bit that was embedded is read back (R182, R183). -/

namespace Sys2Proof.Machine.Error

/-- R177: the quantizer gives a value next to a multiple of the step, which is next to its operand. -/
theorem quantize_near {v s : F64} (hv : IsFin v) (hs : IsFin s) (hS : 1 ≤ val s) (hS' : val s ≤ 2 ^ 900)
    (hV : |val v| ≤ 2 ^ 18 * val s) :
    IsFin (quantize v s) ∧ ∃ k : ℤ, |val (quantize v s) - k * val s| ≤ (1 / 2) ^ 33 * val s ∧
      |val v - k * val s| ≤ (1 / 2 + (1 / 2) ^ 32) * val s := by
  set S := val s with hSdef
  have hu := u_eq
  have hup := u_pos
  have heta := eta_le
  have hetap := eta_pos
  have hbig := big_ge
  have hSp : 0 < S := by linarith
  obtain ⟨haf, hav⟩ := val_fabs hv
  set W := |val v| / S with hW
  have hW0 : 0 ≤ W := by positivity
  have hWle : W ≤ 2 ^ 18 := by rw [hW, div_le_iff₀ hSp]; exact hV
  have habsW : |val (fabs v) / S| = W := by rw [hav, abs_of_nonneg hW0]
  -- the quotient
  have hq := div_near haf hs hSp.ne' (by rw [habsW]; norm_num at hbig hWle ⊢; linarith)
  rw [← hSdef, habsW, hav, ← hW] at hq
  have huW : u * W ≤ u * 2 ^ 18 := mul_le_mul_of_nonneg_left hWle hup.le
  have hqe : |val (fdiv (fabs v) s) - W| ≤ (1 / 2) ^ 34 := by
    refine hq.2.trans ?_
    rw [hu] at huW ⊢; norm_num at huW heta ⊢; linarith
  have hqe' := abs_le.mp hqe
  -- plus a half
  obtain ⟨hhf, hhv⟩ := half_val
  obtain ⟨n1, m1, e1⟩ := hq.fin
  obtain ⟨n2, m2, e2⟩ := hhf
  have hsum : |val (fdiv (fabs v) s) + val half| ≤ 2 ^ 19 := by
    rw [hhv, abs_le]; norm_num at hqe' hWle ⊢; constructor <;> linarith
  have hh := add_near e1 e2 (hsum.trans (by norm_num at hbig ⊢; linarith))
  have hhe : |val (fadd (fdiv (fabs v) s) half) - (W + 1 / 2)| ≤ (1 / 2) ^ 33 := by
    have h1 : u * |val (fdiv (fabs v) s) + val half| ≤ u * 2 ^ 19 := mul_le_mul_of_nonneg_left hsum hup.le
    have h2 := hh.2.trans h1
    rw [hhv] at h2
    have := abs_sub_le (val (fadd (fdiv (fabs v) s) half)) (val (fdiv (fabs v) s) + 1 / 2) (W + 1 / 2)
    have e3 : val (fdiv (fabs v) s) + 1 / 2 - (W + 1 / 2) = val (fdiv (fabs v) s) - W := by ring
    rw [e3] at this
    rw [hu] at h2; norm_num at h2 hqe ⊢; linarith
  -- the floor
  obtain ⟨hff, n, hn, hn1, hn2⟩ := floor_val hh.fin
  have hhe' := abs_le.mp hhe
  have hnW : |(n : ℝ) - W| ≤ 1 / 2 + (1 / 2) ^ 33 := by
    rw [abs_le]; constructor <;> linarith
  have hnabs : |(n : ℝ)| ≤ 2 ^ 19 := by
    have := abs_le.mp hnW
    rw [abs_le]; norm_num at this hWle ⊢; constructor <;> linarith
  -- the product
  obtain ⟨n3, m3, e3⟩ := hs
  obtain ⟨n4, m4, e4⟩ := hff
  have hSn : |S * n| ≤ 2 ^ 19 * S := by
    rw [abs_mul, abs_of_pos hSp, mul_comm]; exact mul_le_mul_of_nonneg_right hnabs hSp.le
  have hbig2 : 2 ^ 19 * S ≤ big := by
    have h1 : 2 ^ 19 * S ≤ 2 ^ 19 * 2 ^ 900 := mul_le_mul_of_nonneg_left hS' (by positivity)
    refine h1.trans ?_
    unfold big
    rw [← pow_add]; exact pow_le_pow_right₀ (by norm_num) (by norm_num)
  have hr := mul_near e3 e4 (by rw [hn, ← hSdef]; exact hSn.trans hbig2)
  rw [hn, ← hSdef] at hr
  have hre : |val (fmul s (ffloor (fadd (fdiv (fabs v) s) half))) - S * n| ≤ (1 / 2) ^ 33 * S := by
    refine hr.2.trans ?_
    have h1 : u * |S * n| ≤ u * (2 ^ 19 * S) := mul_le_mul_of_nonneg_left hSn hup.le
    have h2 : eta / 2 ≤ (1 / 2) ^ 100 * S := by
      have : (1 / 2 : ℝ) ^ 100 * 1 ≤ (1 / 2) ^ 100 * S := mul_le_mul_of_nonneg_left hS (by positivity)
      linarith
    rw [hu] at h1 ⊢; norm_num at h1 h2 ⊢; linarith
  have hWS : W * S = |val v| := by rw [hW]; field_simp
  have hnv : abs ((n : ℝ) * S - |val v|) ≤ (1 / 2 + (1 / 2) ^ 32) * S := by
    rw [← hWS, ← sub_mul, abs_mul, abs_of_pos hSp]
    refine mul_le_mul_of_nonneg_right (hnW.trans ?_) hSp.le
    norm_num
  unfold quantize
  simp only
  have hz := zero_val
  split_ifs with hneg
  · have hlt := (flt_val hv hz.1).mp hneg
    rw [hz.2] at hlt
    refine ⟨fneg_fin hr.fin, -n, ?_, ?_⟩
    · rw [val_fneg_of hr.fin]
      push_cast
      rw [← abs_neg]; convert hre using 2; ring
    · rw [abs_of_neg hlt] at hnv
      push_cast
      convert hnv using 2; ring
  · have hlt : ¬ val v < val zero := fun h => hneg ((flt_val hv hz.1).mpr h)
    rw [hz.2, not_lt] at hlt
    refine ⟨hr.fin, n, ?_, ?_⟩
    · convert hre using 2; ring
    · rw [abs_of_nonneg hlt] at hnv
      rw [← abs_neg]; convert hnv using 2; ring

/-- R178: an embedded coefficient plus its dither is next to a multiple of the step. -/
theorem embed_near {c d s : F64} (hc : IsFin c) (hd : IsFin d) (hs : IsFin s) (hS : 10 ≤ val s) (hS' : val s ≤ 2 ^ 900)
    (hC : |val c| ≤ 2 ^ 20) (hD : |val d| ≤ val s / 2) :
    IsFin (embedCoefficient c d s) ∧ |val (embedCoefficient c d s)| ≤ (2 ^ 17 + 4) * val s ∧
      ∃ k : ℤ, |val (embedCoefficient c d s) + val d - k * val s| ≤ (1 / 2) ^ 32 * val s := by
  set S := val s with hSdef
  have hu := u_eq
  have hup := u_pos
  have hSp : 0 < S := by linarith
  have hC' : |val c| ≤ 2 ^ 17 * S := by norm_num at hC ⊢; linarith
  have hsum : |val c + val d| ≤ (2 ^ 17 + 1) * S := (abs_add_le _ _).trans (by linarith)
  obtain ⟨n1, m1, e1⟩ := hc
  obtain ⟨n2, m2, e2⟩ := hd
  have ha := add_near e1 e2 (hsum.trans (big_mul hS' (by norm_num) (by norm_num) hSp.le))
  have hae : u * |val c + val d| ≤ u * ((2 ^ 17 + 1) * S) := mul_le_mul_of_nonneg_left hsum hup.le
  have hab : |val (fadd c d)| ≤ (2 ^ 17 + 2) * S := by
    refine (ha.abs_val_le hsum).trans ?_
    rw [hu] at hae ⊢; norm_num at hae ⊢; linarith
  obtain ⟨hqf, k, hk1, hk2⟩ := quantize_near ha.fin hs (by linarith) hS' (by norm_num at hab ⊢; linarith)
  rw [← hSdef] at hk1 hk2
  have hqb : |val (quantize (fadd c d) s)| ≤ (2 ^ 17 + 3) * S := by
    have h1 := abs_le.mp hk1
    have h2 := abs_le.mp hk2
    have h3 := abs_le.mp hab
    rw [abs_le]; norm_num at h1 h2 h3 ⊢; constructor <;> linarith
  obtain ⟨n3, m3, e3⟩ := hqf
  have hdiff : |val (quantize (fadd c d) s) - val d| ≤ (2 ^ 17 + 7 / 2) * S := by
    have := abs_sub (val (quantize (fadd c d) s)) (val d); linarith
  have hf := sub_near e3 e2 (hdiff.trans (big_mul hS' (by norm_num) (by norm_num) hSp.le))
  have hfe : u * |val (quantize (fadd c d) s) - val d| ≤ u * ((2 ^ 17 + 7 / 2) * S) :=
    mul_le_mul_of_nonneg_left hdiff hup.le
  have herr : |val (embedCoefficient c d s) - (val (quantize (fadd c d) s) - val d)| ≤ (1 / 2) ^ 35 * S := by
    refine hf.2.trans (hfe.trans ?_)
    rw [hu]; norm_num; linarith
  refine ⟨hf.fin, ?_, k, ?_⟩
  · have h1 := abs_le.mp herr
    have h2 := abs_le.mp hdiff
    rw [abs_le]; norm_num at h1 h2 ⊢; constructor <;> linarith
  · have h1 := abs_le.mp herr
    have h2 := abs_le.mp hk1
    rw [abs_le]; norm_num at h1 h2 ⊢; constructor <;> linarith

/-- R180: the distance measured is next to the real distance from a multiple of the step. -/
theorem probe_near {c' w lo s : F64} (hw : IsFin w) (hlo : IsFin lo) (hs : IsFin s) (hS : 10 ≤ val s) (hS' : val s ≤ 2 ^ 900)
    (hL : |val lo| ≤ val s / 2) (hcb : |val c'| ≤ (2 ^ 17 + 4) * val s)
    (hn : |val w - val c'| ≤ (1 - (1 / 2) ^ 20) * (val s / 10)) :
    ∃ (e : ℝ) (j : ℤ), |e| ≤ (1 / 2) ^ 33 * val s ∧
      |val w + val lo + e - j * val s| ≤ (1 / 2 + (1 / 2) ^ 32) * val s ∧
      IsFin (probeDistance w lo s) ∧
      abs (val (probeDistance w lo s) - |j * val s - (val w + val lo)|) ≤ (1 / 2) ^ 31 * val s := by
  set S := val s with hSdef
  have hu := u_eq
  have hup := u_pos
  have hSp : 0 < S := by linarith
  have hwb : |val w| ≤ (2 ^ 17 + 5) * S := by
    have h1 := abs_le.mp hn
    have h2 := abs_le.mp hcb
    rw [abs_le]; norm_num at h1 h2 ⊢; constructor <;> linarith
  have hsum : |val w + val lo| ≤ (2 ^ 17 + 6) * S := (abs_add_le _ _).trans (by linarith)
  obtain ⟨n1, m1, e1⟩ := hw
  obtain ⟨n2, m2, e2⟩ := hlo
  have hp := add_near e1 e2 (hsum.trans (big_mul hS' (by norm_num) (by norm_num) hSp.le))
  have hpe : |val (fadd w lo) - (val w + val lo)| ≤ (1 / 2) ^ 35 * S := by
    refine hp.2.trans ((mul_le_mul_of_nonneg_left hsum hup.le).trans ?_)
    rw [hu]; norm_num; linarith
  have hpb : |val (fadd w lo)| ≤ (2 ^ 17 + 7) * S := by
    have h1 := abs_le.mp hpe
    have h2 := abs_le.mp hsum
    rw [abs_le]; norm_num at h1 h2 ⊢; constructor <;> linarith
  obtain ⟨hqf, j, hj1, hj2⟩ := quantize_near hp.fin hs (by linarith) hS' (by norm_num at hpb ⊢; linarith)
  rw [← hSdef] at hj1 hj2
  obtain ⟨n3, m3, e3⟩ := hqf
  obtain ⟨n4, m4, e4⟩ := hp.fin
  have hdiff : |val (quantize (fadd w lo) s) - val (fadd w lo)| ≤ 1 * S := by
    have h1 := abs_le.mp hj1
    have h2 := abs_le.mp hj2
    rw [abs_le]; norm_num at h1 h2 ⊢; constructor <;> linarith
  have hf := sub_near e3 e4 (hdiff.trans (big_mul hS' (by norm_num) (by norm_num) hSp.le))
  have hfe : |val (fsub (quantize (fadd w lo) s) (fadd w lo)) - (val (quantize (fadd w lo) s) - val (fadd w lo))| ≤ (1 / 2) ^ 53 * S := by
    refine hf.2.trans ((mul_le_mul_of_nonneg_left hdiff hup.le).trans ?_)
    rw [hu]; norm_num
  obtain ⟨hdf, hdv⟩ := val_fabs hf.fin
  refine ⟨val (fadd w lo) - (val w + val lo), j, ?_, ?_, hdf, ?_⟩
  · norm_num at hpe ⊢; linarith
  · rw [show val w + val lo + (val (fadd w lo) - (val w + val lo)) - j * S = val (fadd w lo) - j * S by ring]
    exact hj2
  · have e5 : probeDistance w lo s = fabs (fsub (quantize (fadd w lo) s) (fadd w lo)) := rfl
    rw [e5, hdv]
    refine (abs_abs_sub_abs_le _ _).trans ?_
    have h1 := abs_le.mp hfe
    have h2 := abs_le.mp hj1
    have h3 := abs_le.mp hpe
    rw [abs_le]; norm_num at h1 h2 h3 ⊢; constructor <;> linarith

/-- R180: the threshold is next to STEP/10. -/
theorem threshold_near {s : F64} (hs : IsFin s) (hS : 10 ≤ val s) (hS' : val s ≤ 2 ^ 900) :
    IsFin (fdiv s ten) ∧ |val (fdiv s ten) - val s / 10| ≤ (1 / 2) ^ 50 * val s := by
  obtain ⟨htf, htv⟩ := ten_val
  have hSp : 0 < val s := by linarith
  have habs : |val s / 10| = val s / 10 := abs_of_pos (by linarith)
  have hb := big_mul hS' (c := 2) (by norm_num) (by norm_num) hSp.le
  have := div_near hs htf (by rw [htv]; norm_num) (by rw [htv, habs]; linarith)
  rw [htv, habs] at this
  refine ⟨this.fin, this.2.trans ?_⟩
  have heta := eta_le
  rw [u_eq]; norm_num at heta ⊢; linarith

/-- R182, R183: a coefficient that was embedded and moved by less than STEP/10 reads as its bit. -/
theorem extract_embedded {c lo hi w s : F64} (bit : Bool) (hc : IsFin c) (hlo : IsFin lo) (hhi : IsFin hi) (hs : IsFin s)
    (hS : 10 ≤ val s) (hS' : val s ≤ 2 ^ 900) (hC : |val c| ≤ 2 ^ 20)
    (hL : |val lo| ≤ val s / 2) (hH : |val hi| ≤ val s / 2)
    (hgap : abs (|val hi - val lo| - val s / 2) ≤ (1 / 2) ^ 50 * val s)
    (hw : IsFin w)
    (hn : |val w - val (embedCoefficient c (if bit then hi else lo) s)| ≤ (1 - (1 / 2) ^ 20) * (val s / 10)) :
    extractBit w lo s = bit := by
  have hd : IsFin (if bit then hi else lo) := by cases bit <;> assumption
  have hD : |val (if bit then hi else lo)| ≤ val s / 2 := by cases bit <;> assumption
  obtain ⟨hcf, hcb, k, hk⟩ := embed_near hc hd hs hS hS' hC hD
  obtain ⟨e, j, he, hj, hpf, hp⟩ := probe_near hw hlo hs hS hS' hL hcb hn
  obtain ⟨htf, ht⟩ := threshold_near hs hS hS'
  set c' := embedCoefficient c (if bit then hi else lo) s
  set S := val s with hSdef
  have hSp : 0 < S := by linarith
  unfold extractBit
  have h1 := abs_le.mp hk
  have h2 := abs_le.mp he
  have h3 := abs_le.mp hj
  have h4 := abs_le.mp hn
  have h5 := abs_le.mp ht
  cases bit
  · rw [Bool.not_eq_false', flt_val hpf htf]
    simp only [Bool.false_eq_true, if_false] at h1 h4
    -- the two multiples agree
    have hjk : (j : ℝ) * S - k * S = 0 := by
      have hlt : |((j - k : ℤ) : ℝ)| < 1 := by
        have : |((j - k : ℤ) : ℝ) * S| < 1 * S := by
          push_cast; rw [abs_lt]; norm_num at h1 h2 h3 h4 ⊢; constructor <;> nlinarith
        rw [abs_mul, abs_of_pos hSp] at this
        exact lt_of_mul_lt_mul_right this hSp.le
      have : |j - k| < 1 := by exact_mod_cast hlt
      have : j = k := by have := abs_lt.mp this; omega
      rw [this]; ring
    have h6 : |(j : ℝ) * S - (val w + val lo)| ≤ (1 - (1 / 2) ^ 20) * (S / 10) + (1 / 2) ^ 32 * S := by
      rw [abs_le]; norm_num at h1 h4 ⊢; constructor <;> linarith
    have h7 := (abs_le.mp hp).2
    norm_num at h5 h6 h7
    linarith
  · rw [Bool.not_eq_true', Bool.eq_false_iff, Ne, flt_val hpf htf, not_lt]
    simp only [if_true] at h1 h4
    have h6 := abs_le.mp hgap
    have h7 := (abs_le.mp hp).1
    -- every multiple is about half a step away
    have h8 : (2 / 5 - 1 / 1000) * S ≤ |(j : ℝ) * S - (val w + val lo)| := by
      have h9 : (1 / 2 - 1 / 10000) * S ≤ |((j - k : ℤ) : ℝ) * S + (val hi - val lo)| := by
        rcases eq_or_ne (j - k) 0 with h0 | h0
        · rw [h0]; simp only [Int.cast_zero, zero_mul, zero_add]; norm_num at h6 ⊢; linarith
        · have hge : (1 : ℝ) ≤ |((j - k : ℤ) : ℝ)| := by exact_mod_cast Int.one_le_abs h0
          have hge' : 1 * S ≤ |((j - k : ℤ) : ℝ) * S| := by
            rw [abs_mul, abs_of_pos hSp]; exact mul_le_mul_of_nonneg_right hge hSp.le
          have := abs_sub_abs_le_abs_sub (((j - k : ℤ) : ℝ) * S) (-(val hi - val lo))
          rw [sub_neg_eq_add, abs_neg] at this
          norm_num at h6 ⊢; norm_num at this hge'; linarith
      have h10 : |((j : ℝ) * S - (val w + val lo)) - (((j - k : ℤ) : ℝ) * S + (val hi - val lo))| ≤
          (1 - (1 / 2) ^ 20) * (S / 10) + (1 / 2) ^ 32 * S := by
        push_cast
        rw [abs_le]; norm_num at h1 h4 ⊢; constructor <;> linarith
      generalize ((j - k : ℤ) : ℝ) * S + (val hi - val lo) = A at *
      generalize (j : ℝ) * S - (val w + val lo) = B at *
      have := abs_sub_abs_le_abs_sub A B
      rw [abs_sub_comm] at this
      norm_num at h10 h9 ⊢; linarith
    norm_num at h5 h7 h8
    linarith

/-- R160: the two members of a pair are half a step apart, nearly. -/
theorem gap_near {lo s : F64} (hlo : IsFin lo) (hs : IsFin s) (hS : 10 ≤ val s) (hS' : val s ≤ 2 ^ 900)
    (hL : |val lo| ≤ val s / 2) :
    abs (|val (ditherHi lo s) - val lo| - val s / 2) ≤ (1 / 2) ^ 50 * val s := by
  obtain ⟨⟨n2, m2, e2⟩, hhv⟩ := half_val
  obtain ⟨n1, m1, e1⟩ := hs
  obtain ⟨n3, m3, e3⟩ := hlo
  set S := val s with hSdef
  have hu := u_eq
  have hup := u_pos
  have hSp : 0 < S := by linarith
  have heta := eta_le
  have hm := mul_near e1 e2 (by
    rw [hhv, ← hSdef, abs_of_pos (by linarith)]
    have := big_mul hS' (c := 1) (by norm_num) (by norm_num) hSp.le; linarith)
  rw [hhv, ← hSdef, abs_of_pos (by linarith)] at hm
  have hh : |val (fmul s half) - S / 2| ≤ (1 / 2) ^ 53 * S := by
    have := hm.2
    rw [show S * (1 / 2) = S / 2 by ring] at this
    refine this.trans ?_
    rw [hu]; norm_num at heta ⊢; linarith
  have hh' := abs_le.mp hh
  have hl' := abs_le.mp hL
  obtain ⟨n4, m4, e4⟩ := hm.fin
  have hbig := big_mul hS' (c := 2) (by norm_num) (by norm_num) hSp.le
  unfold ditherHi
  simp only
  split_ifs
  · have hb : |val lo - val (fmul s half)| ≤ 2 * S := by
      rw [abs_le]; norm_num at hh' ⊢; constructor <;> linarith
    have := sub_near e3 e4 (hb.trans hbig)
    have h2 := this.2.trans (mul_le_mul_of_nonneg_left hb hup.le)
    have h3 := abs_le.mp h2
    rw [hu] at h3
    rw [abs_of_neg (a := val (fsub lo (fmul s half)) - val lo) (by norm_num at h3 hh' ⊢; linarith), abs_le]
    norm_num at h3 hh' ⊢; constructor <;> linarith
  · have hb : |val lo + val (fmul s half)| ≤ 2 * S := by
      rw [abs_le]; norm_num at hh' ⊢; constructor <;> linarith
    have := add_near e3 e4 (hb.trans hbig)
    have h2 := this.2.trans (mul_le_mul_of_nonneg_left hb hup.le)
    have h3 := abs_le.mp h2
    rw [hu] at h3
    rw [abs_of_pos (a := val (fadd lo (fmul s half)) - val lo) (by norm_num at h3 hh' ⊢; linarith), abs_le]
    norm_num at h3 hh' ⊢; constructor <;> linarith

end Sys2Proof.Machine.Error
end

