-- ==== Sys2Proof/Laws/Transform.lean ====
section
/-! SUPPORT. What the transforms give: every output is a binary64 value, and the two passes with a transpose after each
are a transform of the rows and then of the columns (42_dct.md R144 to R149). -/

namespace Sys2Proof.Machine

/-- R144: an output of dct2_8 is a binary64 value, so a pattern holds it. -/
theorem dct2Term_representable (x : Vector F64 8) (k : Fin 8) : (dct2Term x k).representable := by
  simp only [dct2Term, oneToSeven, List.foldl]
  iterate 7 refine fadd_representable _ _ ?_ (fmul_representable _ _)
  exact fmul_representable _ _

/-- R145: likewise dct3_8. -/
theorem dct3Term_representable (x : Vector F64 8) (n : Fin 8) : (dct3Term x n).representable := by
  simp only [dct3Term, oneToSeven, List.foldl]
  iterate 7 refine fadd_representable _ _ ?_ (fmul_representable _ _)
  exact fmul_representable _ _

@[simp] theorem rowOf_flatIndex (r c : Fin 8) : rowOf (flatIndex r c) = r := by revert r c; decide

@[simp] theorem colOf_flatIndex (r c : Fin 8) : colOf (flatIndex r c) = c := by revert r c; decide

/-- R148: element (u, v) of the two passes is output u of `f` on column v of the row transforms. -/
theorem twoPass_flatIndex (f : Vector F64 8 → Vector F64 8) (b : Vector F64 64) (u v : Fin 8) :
    (twoPass f b)[flatIndex u v] =
      (f (Vector.ofFn fun r : Fin 8 => (f (Vector.ofFn fun c : Fin 8 => b[flatIndex r c]))[v]))[u] := by
  simp [twoPass, transpose, rowPass, blockRow]

/-- R148, R149: the value of an element of a stored block. -/
theorem unpack_putBlock {b : Vector F64 64} (s : State) {i : Fin 64} (h : b[i].representable) :
    unpack (s.putBlock b).blk[i] = b[i] := by
  have e : (s.putBlock b).blk[i] = pack (Config.freeWord (s.freeCtr + i)) b[i] := by
    simp only [State.putBlock, State.useFree, State.storeBlk, packBlock, Fin.getElem_fin, Vector.getElem_ofFn]
  rw [e, unpack_pack _ h]

end Sys2Proof.Machine
end

