-- ==== Sys2Proof/Laws/TransformError.lean ====
section
/-! SUPPORT. The transforms of 42_dct.md beside real arithmetic: what each output is off by, and why the inverse undoes the
forward transform (R151). -/

namespace Sys2Proof.Machine.Error

/-- One multiply-accumulate of R144 and R145, `n` products into the sum. -/
theorem mac_near {acc x c : F64} {A M n : ℝ} (hM : 1 ≤ M) (hM' : M ≤ 2 ^ 40) (_hn : 0 ≤ n) (hn7 : n ≤ 7)
    (hacc : Near acc A (13 * n * u * M)) (hA : |A| ≤ n * M)
    (hx : ∃ neg mag, x = .fin neg mag) (hxM : |val x| ≤ M)
    (hc : ∃ neg mag, c = .fin neg mag) (hc1 : |val c| ≤ 1) :
    Near (fadd acc (fmul x c)) (A + val x * val c) (13 * (n + 1) * u * M) ∧
      |A + val x * val c| ≤ (n + 1) * M := by
  obtain ⟨nx, mx, hx⟩ := hx
  obtain ⟨nc, mc, hc⟩ := hc
  have hu := u_eq
  have hup := u_pos
  have heta := eta_le
  have hetap := eta_pos
  have hbig := big_ge
  have hxc : |val x * val c| ≤ M := by
    rw [abs_mul]
    calc |val x| * |val c| ≤ M * 1 := mul_le_mul hxM hc1 (abs_nonneg _) (by linarith)
      _ = M := mul_one M
  have hp := mul_near hx hc (hxc.trans (by norm_num at hM' hbig ⊢; linarith))
  have huM : u * |val x * val c| ≤ u * M := mul_le_mul_of_nonneg_left hxc hup.le
  have hp2 : |val (fmul x c)| ≤ M + (u * M + eta / 2) := (hp.abs_val_le hxc).trans (by linarith)
  have huM2 : u * M ≤ 1 / 1000 * M := mul_le_mul_of_nonneg_right (by rw [hu]; norm_num) (by linarith)
  have hacc2 := hacc.abs_val_le hA
  have hnM : n * M ≤ 7 * M := mul_le_mul_of_nonneg_right hn7 (by linarith)
  have h13 : 13 * n * u * M ≤ 1 / 10 * M := by
    have : 13 * n * u ≤ 1 / 10 := by rw [hu]; linarith
    exact mul_le_mul_of_nonneg_right this (by linarith)
  have heta' : eta ≤ 1 / 1000 * M := by norm_num at heta; linarith
  have hsum : |val acc + val (fmul x c)| ≤ 9 * M := (abs_add_le _ _).trans (by linarith)
  obtain ⟨na, ma, ha⟩ := hacc.fin
  obtain ⟨np, mp, hp'⟩ := hp.fin
  have hs := add_near ha hp' (hsum.trans (by norm_num at hM' hbig ⊢; linarith))
  have husum : u * |val acc + val (fmul x c)| ≤ u * (9 * M) := mul_le_mul_of_nonneg_left hsum hup.le
  have heta2 : eta / 2 ≤ u * M := by
    have : u * 1 ≤ u * M := mul_le_mul_of_nonneg_left hM hup.le
    rw [hu] at this ⊢; norm_num at heta this ⊢; linarith
  refine ⟨⟨hs.1, ?_⟩, (abs_add_le _ _).trans (by linarith)⟩
  have e : val (fadd acc (fmul x c)) - (A + val x * val c) =
      (val (fadd acc (fmul x c)) - (val acc + val (fmul x c))) + (val acc - A) +
      (val (fmul x c) - val x * val c) := by ring
  rw [e]
  refine (abs_add_three _ _ _).trans ?_
  have h1 := hs.2
  have h2 := hacc.2
  have h3 := hp.2
  have e2 : 13 * (n + 1) * u * M = 13 * n * u * M + 13 * (u * M) := by ring
  rw [e2]
  linarith

/-- The first product of R144 and R145. -/
theorem first_near {x c : F64} {M : ℝ} (hM : 1 ≤ M) (hM' : M ≤ 2 ^ 40)
    (hx : ∃ neg mag, x = .fin neg mag) (hxM : |val x| ≤ M)
    (hc : ∃ neg mag, c = .fin neg mag) (hc1 : |val c| ≤ 1) :
    Near (fmul x c) (val x * val c) (13 * 1 * u * M) ∧ |val x * val c| ≤ 1 * M := by
  obtain ⟨nx, mx, hx⟩ := hx
  obtain ⟨nc, mc, hc⟩ := hc
  have hu := u_eq
  have hup := u_pos
  have heta := eta_le
  have hbig := big_ge
  have hxc : |val x * val c| ≤ M := by
    rw [abs_mul]
    calc |val x| * |val c| ≤ M * 1 := mul_le_mul hxM hc1 (abs_nonneg _) (by linarith)
      _ = M := mul_one M
  have hp := mul_near hx hc (hxc.trans (by norm_num at hM' hbig ⊢; linarith))
  have huM : u * |val x * val c| ≤ u * M := mul_le_mul_of_nonneg_left hxc hup.le
  have heta2 : eta / 2 ≤ u * M := by
    have : u * 1 ≤ u * M := mul_le_mul_of_nonneg_left hM hup.le
    rw [hu] at this ⊢; norm_num at heta this ⊢; linarith
  have : 0 ≤ u * M := by positivity
  refine ⟨⟨hp.1, hp.2.trans ?_⟩, by linarith⟩
  have : 13 * 1 * u * M = 13 * (u * M) := by ring
  rw [this]; linarith

/-- The left-to-right sum of eight products is near the real sum. -/
theorem sum8_near (x c : Fin 8 → F64) {M : ℝ} (hM : 1 ≤ M) (hM' : M ≤ 2 ^ 40)
    (hx : ∀ i, (∃ neg mag, x i = .fin neg mag) ∧ |val (x i)| ≤ M)
    (hc : ∀ i, (∃ neg mag, c i = .fin neg mag) ∧ |val (c i)| ≤ 1) :
    Near (oneToSeven.foldl (fun acc n => fadd acc (fmul (x n) (c n))) (fmul (x 0) (c 0)))
      (∑ i, val (x i) * val (c i)) (104 * u * M) := by
  have h0 := first_near hM hM' (hx 0).1 (hx 0).2 (hc 0).1 (hc 0).2
  have h1 := mac_near hM hM' (by norm_num) (by norm_num) h0.1 h0.2 (hx 1).1 (hx 1).2 (hc 1).1 (hc 1).2
  have h2 := mac_near hM hM' (by norm_num) (by norm_num) h1.1 h1.2 (hx 2).1 (hx 2).2 (hc 2).1 (hc 2).2
  have h3 := mac_near hM hM' (by norm_num) (by norm_num) h2.1 h2.2 (hx 3).1 (hx 3).2 (hc 3).1 (hc 3).2
  have h4 := mac_near hM hM' (by norm_num) (by norm_num) h3.1 h3.2 (hx 4).1 (hx 4).2 (hc 4).1 (hc 4).2
  have h5 := mac_near hM hM' (by norm_num) (by norm_num) h4.1 h4.2 (hx 5).1 (hx 5).2 (hc 5).1 (hc 5).2
  have h6 := mac_near hM hM' (by norm_num) (by norm_num) h5.1 h5.2 (hx 6).1 (hx 6).2 (hc 6).1 (hc 6).2
  have h7 := mac_near hM hM' (by norm_num) (by norm_num) h6.1 h6.2 (hx 7).1 (hx 7).2 (hc 7).1 (hc 7).2
  have e : (13 * (1 + 1 + 1 + 1 + 1 + 1 + 1 + 1) * u * M : ℝ) = 104 * u * M := by ring
  rw [← e, Fin.sum_univ_eight]
  exact h7.1

/-- The matrix C of R143, as reals. -/
noncomputable def fwd (k n : Fin 8) : ℝ := val (coefficient k n)

/-- The matrix of dct3_8 (R145): 1/2 in the first column, else C. -/
def invCoeff (n k : Fin 8) : F64 := if k = 0 then half else coefficient k n

/-- The matrix of dct3_8, as reals. -/
noncomputable def inv (n k : Fin 8) : ℝ := val (invCoeff n k)

theorem coefficient_small (k n : Fin 8) : small (coefficient k n) = true := by revert k n; decide +kernel

theorem half_small : small half = true := by decide +kernel

theorem invCoeff_small (k n : Fin 8) : small (invCoeff k n) = true := by
  unfold invCoeff; split_ifs
  · exact half_small
  · exact coefficient_small _ _

/-- R144: an output of dct2_8 is near the real linear form. -/
theorem dct2_near (x : Vector F64 8) (k : Fin 8) {M : ℝ} (hM : 1 ≤ M) (hM' : M ≤ 2 ^ 40)
    (hx : ∀ i : Fin 8, (∃ neg mag, x[i] = .fin neg mag) ∧ |val x[i]| ≤ M) :
    Near (dct2Term x k) (∑ i : Fin 8, fwd k i * val x[i]) (104 * u * M) := by
  have := sum8_near (fun i => x[i]) (fun i => coefficient k i) hM hM' hx fun i => small_spec (coefficient_small k i)
  simp only [fwd, mul_comm (val (coefficient _ _))]
  exact this

/-- R145: an output of dct3_8 is near the real linear form. -/
theorem dct3_near (x : Vector F64 8) (n : Fin 8) {M : ℝ} (hM : 1 ≤ M) (hM' : M ≤ 2 ^ 40)
    (hx : ∀ i : Fin 8, (∃ neg mag, x[i] = .fin neg mag) ∧ |val x[i]| ≤ M) :
    Near (dct3Term x n) (∑ i : Fin 8, inv n i * val x[i]) (104 * u * M) := by
  have := sum8_near (fun i => x[i]) (fun i => invCoeff n i) hM hM' hx fun i => small_spec (invCoeff_small n i)
  simp only [inv, mul_comm (val (invCoeff _ _))]
  have e : dct3Term x n = oneToSeven.foldl (fun acc i => fadd acc (fmul x[i] (invCoeff n i))) (fmul x[(0 : Fin 8)] (invCoeff n 0)) := by
    have hx0 : x[(0 : Fin 8)] = x[0] := rfl
    have h0 : invCoeff n 0 = half := if_pos rfl
    have hs : ∀ i : Fin 8, i ≠ 0 → invCoeff n i = coefficient i n := fun i hi => if_neg hi
    simp only [dct3Term, oneToSeven, List.foldl, h0, hx0, hs 1 (by decide), hs 2 (by decide), hs 3 (by decide),
      hs 4 (by decide), hs 5 (by decide), hs 6 (by decide), hs 7 (by decide)]
  rw [e]
  exact this

/-- An entry of the product of the two matrices, in squared least subnormals. -/
def gram (n m : Fin 8) : ℤ :=
  oneToSeven.foldl (fun a k => a + units (invCoeff n k) * units (coefficient k m))
    (units (invCoeff n 0) * units (coefficient 0 m))

/-- The product of the two matrices is 4 times the identity, up to the rounding of the constants. -/
theorem gram_close (n m : Fin 8) :
    (|gram n m - (if n = m then 4 else 0) * (unit * unit : ℕ)|) * 2 ^ 50 ≤ (unit * unit : ℕ) := by
  revert n m; decide +kernel

/-- R151: dct3_8 undoes dct2_8 up to the factor 4. -/
theorem inverse_close (n m : Fin 8) : |∑ k, inv n k * fwd k m - (if n = m then 4 else 0)| ≤ (1 / 2) ^ 50 := by
  have h := gram_close n m
  have e : ∑ k, inv n k * fwd k m = (gram n m : ℝ) / (unit * unit) := by
    simp only [inv, fwd, val_units, Fin.sum_univ_eight, gram, oneToSeven, List.foldl]
    push_cast
    have := unit_real
    field_simp
  have hu := unit_real
  have h' : |(gram n m : ℝ) - (if n = m then 4 else 0) * (unit * unit)| * 2 ^ 50 ≤ unit * unit := by
    have := (Int.cast_le (R := ℝ)).mpr h
    split_ifs at this ⊢ <;> push_cast at this ⊢ <;> norm_num at this ⊢ <;> linarith
  rw [e]
  have e2 : (gram n m : ℝ) / (unit * unit) - (if n = m then 4 else 0) =
      ((gram n m : ℝ) - (if n = m then 4 else 0) * (unit * unit)) / (unit * unit) := by field_simp
  rw [e2, abs_div, abs_of_pos (mul_pos hu hu), div_le_iff₀ (mul_pos hu hu)]
  norm_num at h' ⊢
  linarith

theorem forward_abs (k n : Fin 8) : |fwd k n| ≤ 1 := (small_spec (coefficient_small k n)).2

theorem inverse_abs (k n : Fin 8) : |inv k n| ≤ 1 := (small_spec (invCoeff_small k n)).2

/-- A form with coefficients at most 1 of eight bounded values is bounded. -/
theorem sum_le {a y : Fin 8 → ℝ} {d : ℝ} (ha : ∀ i, |a i| ≤ 1) (h : ∀ i, |y i| ≤ d) : |∑ i, a i * y i| ≤ 8 * d := by
  refine (Finset.abs_sum_le_sum_abs _ _).trans ?_
  calc ∑ i, |a i * y i| ≤ ∑ i : Fin 8, d := Finset.sum_le_sum fun i _ => by
        rw [abs_mul]
        calc |a i| * |y i| ≤ 1 * d := mul_le_mul (ha i) (h i) (abs_nonneg _) (by norm_num)
          _ = d := one_mul d
    _ = 8 * d := by simp

/-- A form with coefficients at most 1 spreads a deviation by at most 8. -/
theorem sum_dev {a y z : Fin 8 → ℝ} {d : ℝ} (ha : ∀ i, |a i| ≤ 1) (h : ∀ i, |y i - z i| ≤ d) :
    |∑ i, a i * y i - ∑ i, a i * z i| ≤ 8 * d := by
  rw [← Finset.sum_sub_distrib]
  simp only [← mul_sub]
  exact sum_le ha h

/-- What dct3_8 after dct2_8 deviates by, in real arithmetic on the rounded constants. -/
theorem inv_dev {z : Fin 8 → ℝ} {Z : ℝ} (hz : ∀ i, |z i| ≤ Z) (n : Fin 8) :
    |∑ k, inv n k * ∑ m, fwd k m * z m - 4 * z n| ≤ 8 * ((1 / 2) ^ 50 * Z) := by
  have e : ∑ k, inv n k * ∑ m, fwd k m * z m - 4 * z n =
      ∑ m, (1 : ℝ) * ((∑ k, inv n k * fwd k m - (if n = m then 4 else 0)) * z m) := by
    have e1 : ∑ k, inv n k * ∑ m, fwd k m * z m = ∑ m, (∑ k, inv n k * fwd k m) * z m := by
      simp only [Finset.mul_sum, Finset.sum_mul]
      rw [Finset.sum_comm]
      refine Finset.sum_congr rfl fun m _ => Finset.sum_congr rfl fun k _ => by ring
    have e2 : 4 * z n = ∑ m, (if n = m then 4 else 0) * z m := by simp
    rw [e1, e2, ← Finset.sum_sub_distrib]
    refine Finset.sum_congr rfl fun m _ => by ring
  rw [e]
  refine sum_le (fun i => by simp) fun m => ?_
  rw [abs_mul]
  exact mul_le_mul (inverse_close n m) (hz m) (abs_nonneg _) (by positivity)

/-- R151: the two transforms bring a block of samples back to within 1/4. -/
theorem round_trip (b : Fin 8 → Fin 8 → F64)
    (hb : ∀ r c, (∃ neg mag, b r c = .fin neg mag) ∧ |val (b r c)| ≤ 255) (r c : Fin 8) :
    let T := fun r v => dct2Term (Vector.ofFn fun c => b r c) v
    let F := fun u' v => dct2Term (Vector.ofFn fun r => T r v) u'
    let P := fun u' c => dct3Term (Vector.ofFn fun v => F u' v) c
    let Y := fun r c => dct3Term (Vector.ofFn fun u' => P u' c) r
    (∃ neg mag, fmul (Y r c) sixteenth = .fin neg mag) ∧ |val (fmul (Y r c) sixteenth) - val (b r c)| ≤ 1 / 4 := by
  intro T F P Y
  have hu := u_eq
  have hup := u_pos
  set x : Fin 8 → Fin 8 → ℝ := fun r c => val (b r c) with hx
  set g : Fin 8 → Fin 8 → ℝ := fun u' c => ∑ r, fwd u' r * x r c with hg
  have hgb : ∀ u' c, |g u' c| ≤ 8 * 255 := fun u' c => sum_le (forward_abs u') fun r => (hb r c).2
  -- the rows
  have hT : ∀ r v, Near (T r v) (∑ c, fwd v c * x r c) (104 * u * 2 ^ 8) := by
    intro r v
    have := dct2_near (Vector.ofFn fun c => b r c) v (M := 2 ^ 8) (by norm_num) (by norm_num) (fun i => by
      simp only [Fin.getElem_fin, Vector.getElem_ofFn]
      exact ⟨(hb r i).1, (hb r i).2.trans (by norm_num)⟩)
    simpa only [Fin.getElem_fin, Vector.getElem_ofFn, Fin.eta] using this
  have hTb : ∀ r v, (∃ neg mag, T r v = .fin neg mag) ∧ |val (T r v)| ≤ 2 ^ 11 := fun r v =>
    (hT r v).bound (sum_le (forward_abs v) fun c => (hb r c).2) (by rw [hu]; norm_num)
  -- the columns
  have hF : ∀ u' v, Near (F u' v) (∑ r, fwd u' r * val (T r v)) (104 * u * 2 ^ 11) := by
    intro u' v
    have := dct2_near (Vector.ofFn fun r => T r v) u' (M := 2 ^ 11) (by norm_num) (by norm_num) (fun i => by
      simp only [Fin.getElem_fin, Vector.getElem_ofFn]
      exact hTb i v)
    simpa only [Fin.getElem_fin, Vector.getElem_ofFn, Fin.eta] using this
  have hFb : ∀ u' v, (∃ neg mag, F u' v = .fin neg mag) ∧ |val (F u' v)| ≤ 2 ^ 15 := fun u' v =>
    (hF u' v).bound (sum_le (forward_abs u') fun r => (hTb r v).2) (by rw [hu]; norm_num)
  have hFx : ∀ u' v, |val (F u' v) - ∑ c, fwd v c * g u' c| ≤ 104 * u * 2 ^ 12 := by
    intro u' v
    have h1 := (hF u' v).2
    have h2 : |∑ r, fwd u' r * val (T r v) - ∑ r, fwd u' r * ∑ c, fwd v c * x r c| ≤ 8 * (104 * u * 2 ^ 8) :=
      sum_dev (forward_abs u') fun r => (hT r v).2
    have e : ∑ r, fwd u' r * ∑ c, fwd v c * x r c = ∑ c, fwd v c * g u' c := by
      simp only [hg, Finset.mul_sum]
      rw [Finset.sum_comm]
      refine Finset.sum_congr rfl fun m _ => Finset.sum_congr rfl fun k _ => by ring
    rw [e] at h2
    refine (abs_sub_le _ (∑ r, fwd u' r * val (T r v)) _).trans ?_
    linarith
  -- back along the rows
  have hP : ∀ u' c, Near (P u' c) (∑ v, inv c v * val (F u' v)) (104 * u * 2 ^ 15) := by
    intro u' c
    have := dct3_near (Vector.ofFn fun v => F u' v) c (M := 2 ^ 15) (by norm_num) (by norm_num) (fun i => by
      simp only [Fin.getElem_fin, Vector.getElem_ofFn]
      exact hFb u' i)
    simpa only [Fin.getElem_fin, Vector.getElem_ofFn, Fin.eta] using this
  have hPb : ∀ u' c, (∃ neg mag, P u' c = .fin neg mag) ∧ |val (P u' c)| ≤ 2 ^ 19 := fun u' c =>
    (hP u' c).bound (sum_le (inverse_abs c) fun v => (hFb u' v).2) (by rw [hu]; norm_num)
  have hPx : ∀ u' c, |val (P u' c) - 4 * g u' c| ≤ 104 * u * 2 ^ 16 + 8 * ((1 / 2) ^ 50 * (8 * 255)) := by
    intro u' c
    have h1 := (hP u' c).2
    have h2 : |∑ v, inv c v * val (F u' v) - ∑ v, inv c v * ∑ c', fwd v c' * g u' c'| ≤ 8 * (104 * u * 2 ^ 12) :=
      sum_dev (inverse_abs c) fun v => hFx u' v
    have h3 := inv_dev (z := fun c => g u' c) (fun c => hgb u' c) c
    have := abs_sub_le (val (P u' c)) (∑ v, inv c v * val (F u' v)) (4 * g u' c)
    have := abs_sub_le (∑ v, inv c v * val (F u' v)) (∑ v, inv c v * ∑ c', fwd v c' * g u' c') (4 * g u' c)
    linarith
  -- back along the columns
  have hY : Near (Y r c) (∑ u', inv r u' * val (P u' c)) (104 * u * 2 ^ 19) := by
    have := dct3_near (Vector.ofFn fun u' => P u' c) r (M := 2 ^ 19) (by norm_num) (by norm_num) (fun i => by
      simp only [Fin.getElem_fin, Vector.getElem_ofFn]
      exact hPb i c)
    simpa only [Fin.getElem_fin, Vector.getElem_ofFn, Fin.eta] using this
  have hYb := hY.bound (B := 2 ^ 23) (sum_le (inverse_abs r) fun v => (hPb v c).2) (by rw [hu]; norm_num)
  have hYx : |val (Y r c) - 16 * x r c| ≤ 1 / 8 := by
    have h1 := hY.2
    have h2 : |∑ u', inv r u' * val (P u' c) - ∑ u', inv r u' * (4 * g u' c)| ≤ _ := sum_dev (inverse_abs r) fun v => hPx v c
    have h3 := inv_dev (z := fun r => x r c) (fun r => (hb r c).2) r
    have e : ∑ u', inv r u' * (4 * g u' c) - 16 * x r c = 4 * (∑ u', inv r u' * ∑ r', fwd u' r' * x r' c - 4 * x r c) := by
      simp only [hg, mul_sub, Finset.mul_sum]
      rw [← mul_assoc]; norm_num
      refine Finset.sum_congr rfl fun m _ => Finset.sum_congr rfl fun k _ => by ring
    have h4 : |∑ u', inv r u' * (4 * g u' c) - 16 * x r c| ≤ 4 * (8 * ((1 / 2) ^ 50 * 255)) := by
      rw [e, abs_mul]; norm_num at h3 ⊢; linarith
    have := abs_sub_le (val (Y r c)) (∑ u', inv r u' * val (P u' c)) (16 * x r c)
    have := abs_sub_le (∑ u', inv r u' * val (P u' c)) (∑ u', inv r u' * (4 * g u' c)) (16 * x r c)
    rw [hu] at *
    norm_num at *
    linarith
  obtain ⟨⟨ny, my, hyf⟩, hyb⟩ := hYb
  obtain ⟨ns, ms, hsf⟩ := sixteenth_fin
  have hb' := big_ge
  have hprod : |val (Y r c) * val sixteenth| ≤ 2 ^ 23 := by
    rw [sixteenth_val, abs_mul, abs_of_pos (by norm_num : (0 : ℝ) < 1 / 16)]
    linarith [abs_nonneg (val (Y r c))]
  have hout := mul_near hyf hsf (hprod.trans (by norm_num at hb' ⊢; linarith))
  refine ⟨hout.fin, ?_⟩
  have h1 := hout.2
  have h2 : u * |val (Y r c) * val sixteenth| ≤ u * 2 ^ 23 := mul_le_mul_of_nonneg_left hprod hup.le
  have heta := eta_le
  have h3 : |val (Y r c) * val sixteenth - x r c| ≤ 1 / 128 := by
    rw [sixteenth_val, show val (Y r c) * (1 / 16) - x r c = (val (Y r c) - 16 * x r c) * (1 / 16) by ring,
      abs_mul, abs_of_pos (by norm_num : (0 : ℝ) < 1 / 16)]
    linarith
  have := abs_sub_le (val (fmul (Y r c) sixteenth)) (val (Y r c) * val sixteenth) (x r c)
  have h4 : u * 2 ^ 23 ≤ 1 / 1000 := by rw [hu]; norm_num
  have h5 : eta ≤ 1 / 1000 := heta.trans (by norm_num)
  have h6 : val (b r c) = x r c := rfl
  rw [h6]
  linarith

end Sys2Proof.Machine.Error
end

