-- ==== Sys2Proof/Tests/Slice0.lean ====
section
/-! SUPPORT. Tests. The expected values come from the spec: the words of 30_encoding.md R103, the examples of the
rules, and the vectors V<n> and programs P<n> of 95_test_vectors.md. After them, a state for the hypotheses of each
statement. -/

namespace Sys2Proof.Tests

-- One theorem at a time: each kernel evaluation that runs beside others reserves a stack of its own.
set_option Elab.async false

open Sys2Proof Sys2Proof.Machine

/-! ## WellFormed -/

theorem test_seek_operand_above_24_bits_is_ill_formed : wellFormed (.seek 16777216) = false := by decide

theorem test_greatest_seek_operand_is_well_formed : wellFormed (.seek 16777215) = true := by decide

/-! ## Decoding: words of R103 and V50 -/

theorem test_decode_nop : decode 0x0000000000000000#64 = .ok .nop := by decide

theorem test_decode_check : decode 0x0000000000000001#64 = .ok .check := by decide

theorem test_decode_rewind : decode 0x0000000000000002#64 = .ok (.seek 0) := by decide

theorem test_decode_seek : decode 0x0000000000000502#64 = .ok (.seek 5) := by decide

theorem test_decode_greatest_seek : decode 0x00000000FFFFFF02#64 = .ok (.seek 16777215) := by decide

theorem test_decode_next : decode 0x0000000000000003#64 = .ok .next := by decide

theorem test_decode_srst : decode 0x000000000000000F#64 = .ok .srst := by decide

theorem test_decode_bld : decode 0x0000000000000010#64 = .ok .bld := by decide

theorem test_decode_bst : decode 0x0000000000000011#64 = .ok .bst := by decide

theorem test_decode_bitld : decode 0x0000000000000012#64 = .ok .bitld := by decide

theorem test_decode_bitst : decode 0x0000000000000013#64 = .ok .bitst := by decide

theorem test_decode_fdct : decode 0x0000000000000020#64 = .ok .fdct := by decide

theorem test_decode_idct : decode 0x0000000000000021#64 = .ok .idct := by decide

theorem test_decode_dgen : decode 0x0000000000000030#64 = .ok .dgen := by decide

theorem test_decode_qemb : decode 0x0000000000000040#64 = .ok .qemb := by decide

theorem test_decode_qext : decode 0x0000000000000041#64 = .ok .qext := by decide

theorem test_decode_embblk : decode 0x0000000000000050#64 = .ok .embblk := by decide

theorem test_decode_extblk : decode 0x0000000000000051#64 = .ok .extblk := by decide

theorem test_decode_emball : decode 0x0000000000000058#64 = .ok .emball := by decide

theorem test_decode_extall : decode 0x0000000000000059#64 = .ok .extall := by decide

/-- V50: NEXT with a non-zero `zero24`, an unassigned opcode, NOP and SEEK with bit 32 set, opcode 0xFF. -/
theorem test_illegal_words_are_refused_by_name :
    decode 0x0000000000000103#64 = .error .reservedMiddle ∧
      decode 0x0000000000000004#64 = .error (.unassignedOpcode 0x04#8) ∧
      decode 0x0000000100000000#64 = .error .reservedHigh ∧ decode 0x0000000100000002#64 = .error .reservedHigh ∧
      decode 0x00000000000000FF#64 = .error (.unassignedOpcode 0xFF#8) := by decide

/-- R73 (a): SEEK 5 as bytes, lowest address first. -/
theorem test_bytes_of_seek_decode :
    decodeBytes [0x02#8, 0x05#8, 0x00#8, 0x00#8, 0x00#8, 0x00#8, 0x00#8, 0x00#8] = .ok (.seek 5) ∧
      decodeBytes [0x02#8, 0x05#8] = .error .notEightBytes := by decide

/-- The host's reading of a table word: SEEK's row has 64 bits. -/
theorem test_table_word_decodes : decodeTableWord 64 0x502 = some (.seek 5) := by decide

/-! ## Small states -/

/-- A plane of 16 × 8 samples, two blocks, its stream of 24 bits and a legal step: the setting of most vectors. -/
def twoBlocks : State :=
  { State.reset with width := 16, height := 8, bitLen := 24, stepSize := 0x4059000000000000#64 }

/-- The state a command leaves. -/
def after (o : Host.Outcome State Fault Refusal) : State :=
  match o with
  | .next t => t
  | .fault _ => State.reset
  | .refused _ => State.reset

/-- BLK of one element `v` at index `i`, 0.0 elsewhere, all valid. -/
def oneElement (s : State) (i : Fin 64) (v : Word) : State :=
  s.loadBlk ((Vector.replicate 64 0).set i v)

/-- The dithers of KEY = 123456, STEP = 100.0. -/
def keyed : State := (twoBlocks.setKey 123456#64).setDither (ditherTable 123456#64 0x4059000000000000#64)

/-! ## One step of each command -/

/-- R210's example. -/
theorem test_nop_leaves_status_zero : (after (exec .nop State.reset)).status = 0x0000#64 := by decide +kernel

/-- V53, V70 rows 1, 2 and 3. -/
theorem test_check_reports_each_error :
    (after (exec .check State.reset)).status = 0x0601#64 ∧
      (after (exec .check { twoBlocks with width := 12 })).status = 0x0101#64 ∧
      (after (exec .check { twoBlocks with bitLen := 36 })).status = 0x0201#64 ∧
      (after (exec .check { twoBlocks with width := 12 })).errInfo = 0x0000000000000001#64 := by decide +kernel

/-- V53: the legal configuration passes. -/
theorem test_check_passes : (after (exec .check twoBlocks)).status = 0x0000#64 := by decide +kernel

/-- V52. -/
theorem test_seek_sets_bidx : (after (exec (.seek 16777215) State.reset)).bidx = 0x00FFFFFF#32 := by decide +kernel

/-- V52. -/
theorem test_next_wraps : (after (exec .next { State.reset with bidx := 0xFFFFFFFF })).bidx = 0 := by decide +kernel

/-- V80, from a faulted state with flags set. -/
theorem test_srst_clears_fault_and_flags :
    (after (exec .srst (raise .notReady 0x40#64 { keyed with ie := true, plane := [(3, 7)] }))).status = 0x0000#64 ∧
      (after (exec .srst (raise .notReady 0x40#64 { keyed with ie := true, plane := [(3, 7)] }))).plane = [(3, 7)] := by
  decide +kernel

/-- R122's example: W = 16, H = 8, BIDX = 1, element 10 is read from address 26. -/
theorem test_bld_reads_element_10_from_26 :
    (after (exec .bld { twoBlocks with bidx := 1, plane := [(26, 128)] })).blk[10] = 0x4060000000000000#64 := by
  decide +kernel

/-- V70 row 4. -/
theorem test_bld_past_the_end : (after (exec .bld { twoBlocks with bidx := 2 })).status = 0x0301#64 := by decide +kernel

/-- R125's example, at element 10 of block 1: 17.911817272328044 stores 18 at address 26. -/
theorem test_bst_stores_element_10_at_26 :
    readPlane (after (exec .bst (oneElement { twoBlocks with bidx := 1 } 10 0x4031E96CDB5493AE#64))) 26 = 18 := by
  decide +kernel

/-- V70 row 9: the dimensions are tested before the cursor and the flags. -/
theorem test_bst_tests_dimensions_first :
    (after (exec .bst { State.reset with width := 12, height := 8, bidx := 99 })).status = 0x0101#64 := by decide +kernel

/-- V44: group 1 of a stream whose cells 12..23 are 0,1,0,1,… -/
theorem test_bitld_loads_group_1 :
    (after (exec .bitld { twoBlocks with
      bidx := 1
      bitmem := [(12, false), (13, true), (14, false), (15, true), (16, false), (17, true), (18, false), (19, true),
        (20, false), (21, true), (22, false), (23, true)] })).bits = 0xAAA#12 := by decide +kernel

/-- V70 rows 7 and 10. -/
theorem test_bitld_errors :
    (after (exec .bitld { twoBlocks with bidx := 1, bitLen := 23 })).status = 0x0201#64 ∧
      (after (exec .bitld { twoBlocks with bidx := 2, bitLen := 0 })).status = 0x0301#64 := by decide +kernel

/-- R129's example: 0x74D is 1,0,1,1,0,0,1,0,1,1,1,0 from cell 0 on. -/
theorem test_bitst_stores_group_0 :
    (after (exec .bitst (twoBlocks.setBits 0x74D#12))).bitmem =
      [(0, true), (1, false), (2, true), (3, true), (4, false), (5, false), (6, true), (7, false), (8, true),
        (9, true), (10, true), (11, false)] := by decide +kernel

/-- V44: no bits were ever written. -/
theorem test_bitst_not_ready : (after (exec .bitst twoBlocks)).status = 0x0501#64 := by decide +kernel

/-- R148's example: the unit impulse has BLK[9] = fmul(c[1], c[1]). -/
theorem test_fdct_of_the_impulse :
    (after (exec .fdct (oneElement twoBlocks 0 0x3FF0000000000000#64))).blk[9] = 0x3FEEC835E79946A3#64 := by
  decide +kernel

/-- V17. -/
theorem test_fdct_not_ready : (after (exec .fdct State.reset)).status = 0x0501#64 := by decide +kernel

/-- V15: BLK[1] = 16.0 gives rows that begin c[1]/2 and end −c[1]/2. -/
theorem test_idct_of_one_coefficient :
    (after (exec .idct (oneElement twoBlocks 1 0x4030000000000000#64))).blk[8] = 0x3FDF6297CFF75CB0#64 ∧
      (after (exec .idct (oneElement twoBlocks 1 0x4030000000000000#64))).blk[63] = 0xBFDF6297CFF75CB0#64 := by
  decide +kernel

/-- V20, slots 0 (t ≤ 0) and 2 (t > 0). -/
theorem test_dgen_first_pairs :
    (after (exec .dgen (twoBlocks.setKey 123456#64))).dth[0] =
        { lo := 0xC03B6204416B0454#64, hi := 0x40369DFBBE94FBAC#64 } ∧
      (after (exec .dgen (twoBlocks.setKey 123456#64))).dth[2] =
        { lo := 0x4021E89D96155AC6#64, hi := 0xC04485D89A7AA94E#64 } := by decide +kernel

/-- V24, V70 row 8: a negative step. -/
theorem test_dgen_bad_step :
    (after (exec .dgen { twoBlocks with stepSize := 0xC014000000000000 })).status = 0x0601#64 := by decide +kernel

/-- V30, slot 1: 37.25 with bit 0. -/
theorem test_qemb_bit_0 :
    (after (exec .qemb ((oneElement keyed 5 0x4042A00000000000#64).setBits 0x000#12))).blk[5] =
      0x40383BDFD7830E98#64 := by decide +kernel

/-- V30, slot 6: -1234.5678 with bit 1; an element outside the mask stays. -/
theorem test_qemb_bit_1 :
    (after (exec .qemb ((oneElement keyed 13 0xC0934A456D5CFAAD#64).setBits 0x040#12))).blk[13] =
        0xC09356A084497D6A#64 ∧
      (after (exec .qemb ((oneElement keyed 0 0x40C0000000000000#64).setBits 0xFFF#12))).blk[0] =
        0x40C0000000000000#64 := by decide +kernel

/-- V32, slot 0: a distance of exactly 10.0 reads 1, one unit in the last place of c less reads 0. -/
theorem test_qext_threshold_is_strict :
    (after (exec .qext (oneElement keyed 4 0x4042B10220B5822A#64))).bits.getLsbD 0 = true ∧
      (after (exec .qext (oneElement keyed 4 0x4042B10220B58229#64))).bits.getLsbD 0 = false := by decide +kernel

/-- V62: at entry, before any effect. -/
theorem test_embblk_errors :
    (after (exec .embblk twoBlocks)).status = 0x0501#64 ∧
      (after (exec .embblk { twoBlocks with bitLen := 12, bidx := 1 })).status = 0x0201#64 := by decide +kernel

/-- V70 row 15. -/
theorem test_extblk_past_the_end :
    (after (exec .extblk ((oneElement keyed 0 0#64).setBits 0 |>.setBidx 2))).status = 0x030F#64 := by decide +kernel

/-- V60: the empty plane. -/
theorem test_emball_of_the_empty_plane :
    (after (exec .emball { State.reset with stepSize := 0x3FF0000000000000 })).status = 0x0002#64 := by decide +kernel

/-- V70 row 13: a stream that is too long. -/
theorem test_extall_too_long :
    (after (exec .extall { twoBlocks with bitLen := 36 })).status = 0x0201#64 ∧
      (after (exec .extall { twoBlocks with bitLen := 36 })).errInfo = 0x0000000000000059#64 := by decide +kernel

/-! ## One step of the host -/

/-- `s` with one action pending. -/
def pending (s : State) (a : HostAction) : State := s.setInputs [a]

/-- V51: the widths of WIDTH and BITS, and GV. -/
theorem test_register_writes_keep_their_bits :
    (after (step (pending State.reset (.writeReg .dword 0x020#10 0x12345#64)))).width = 0x2345#16 ∧
      (after (step (pending State.reset (.writeReg .dword 0x058#10 0xFFFFF#64)))).bits = 0xFFF#12 ∧
      (after (step (pending State.reset (.writeReg .dword 0x058#10 0xFFFFF#64)))).status = 0x0004#64 := by
  decide +kernel

/-- V51: WIDTH = 9029, HEIGHT = 8 read back an NBLK of 1128. -/
theorem test_nblk_reads_1128 :
    (after (step (pending { State.reset with width := 9029, height := 8 } (.readReg .dword 0x040#10)))).hostData =
      1128#64 := by decide +kernel

/-- V54: writing the STEP that is held clears DV. -/
theorem test_step_write_clears_dv :
    (after (step (pending keyed (.writeReg .dword 0x050#10 0x4059000000000000#64)))).dv = false := by decide +kernel

/-- V71: FAULTED drops a command and keeps the first record; the exact word of SRST resets. -/
theorem test_faulted_drops_all_but_srst :
    (after (step (pending (raise .payloadLengthMismatch 1#64 twoBlocks) (issueAction 0x104#64)))).status = 0x0201#64 ∧
      (after (step (pending (raise .payloadLengthMismatch 1#64 twoBlocks) (issueAction 0x10F#64)))).errInfo = 1#64 ∧
      (after (step (pending (raise .payloadLengthMismatch 1#64 twoBlocks) (issueAction 0x00F#64)))).status = 0#64 := by
  decide +kernel

/-- V70 row 14. -/
theorem test_illegal_word_is_recorded :
    (after (step (pending State.reset (issueAction 0x104#64)))).status = 0x0401#64 ∧
      (after (step (pending State.reset (issueAction 0x104#64)))).errInfo = 0x0000000000000104#64 := by decide +kernel

/-- V72: with IE = 1 a fault raises the line, and a write to CTRL does not lower it. -/
theorem test_irq_stays_high :
    (after (step (pending { State.reset with ie := true } (issueAction 0x20#64)))).irq = true ∧
      (after (step (pending (raise .notReady 0x20#64 { State.reset with ie := true })
        (.writeReg .dword 0x018#10 0#64)))).irq = true := by decide +kernel

/-! ## Numbers -/

/-- V25: the ties 50 and -50, and -149, with a step of 100. -/
theorem test_quantize_ties_go_away_from_zero :
    quantize (unpack 0x4049000000000000#64) (unpack 0x4059000000000000#64) = unpack 0x4059000000000000#64 ∧
      quantize (unpack 0xC049000000000000#64) (unpack 0x4059000000000000#64) = unpack 0xC059000000000000#64 ∧
      quantize (unpack 0xC062A00000000000#64) (unpack 0x4059000000000000#64) = unpack 0xC059000000000000#64 := by
  decide +kernel

/-- V42: 0.49999999999999994, 0.5, 2.5, 254.49999999999997, 300.2 and -3.0. -/
theorem test_toByte_rounds_halves_up_and_clamps :
    toByte (unpack 0x3FDFFFFFFFFFFFFF#64) = 0 ∧ toByte (unpack 0x3FE0000000000000#64) = 1 ∧
      toByte (unpack 0x4004000000000000#64) = 3 ∧ toByte (unpack 0x406FCFFFFFFFFFFF#64) = 254 ∧
      toByte (unpack 0x4072C33333333333#64) = 255 ∧ toByte (unpack 0xC008000000000000#64) = 0 := by decide +kernel

/-- R164 (a) leaves out the least steps: with a step of three least subnormals, a first member of two lies above half
the step (NOTES.md). -/
theorem test_subnormal_step_leaves_the_range :
    legalStep 0x0000000000000003#64 = true ∧
      unpack (ditherPair 0x61C8864680B583EB#64 0x0000000000000003#64 0).lo = .fin true 2 := by
  refine ⟨by decide +kernel, ?_⟩
  rw [unpack_ditherPair_lo]
  decide +kernel

/-! ## The hypotheses of the statements are met: one state for each, named after the statement -/

/-- A state whose tests all pass as Booleans is ready. -/
theorem ready_of_checks {i : Instr} {s : State} (h : s.fault = false) (hc : (checksOf i s).all (·.1) = true) :
    ReadyFor i s :=
  ⟨h, (checksOf_met_iff i s).mp fun c hm => List.all_eq_true.mp hc c hm⟩

/-- Two blocks, the cursor on the last one, every valid flag set. -/
def working : State :=
  ((oneElement (keyed.setBidx 1) 0 0x40C0000000000000#64).setBits 0xAAA#12)

/-- `working` after an error. -/
def faulted : State := raise .notReady 0x40#64 { working with ie := true }

theorem witness_EveryWordIsClassified :
    (∀ imm, imm < 2 ^ 24 → (0x0000000100000002#64 : Word) ≠ BitVec.ofNat 64 (imm * 2 ^ 8 + 2)) ∧
      (16777215 : Nat) < 2 ^ 24 ∧ working.fault = false := by
  refine ⟨fun imm h e => ?_, by decide, rfl⟩
  have := congrArg BitVec.toNat e
  rw [BitVec.toNat_ofNat, Nat.mod_eq_of_lt (by omega), BitVec.toNat_ofNat] at this
  omega

theorem witness_StepRunsTheDecodedCommand :
    (pending working (.writeReg .dword 0x000#10 0x10#64)).inputs = .writeReg .dword 0x000#10 0x10#64 :: [] ∧
      working.fault = false ∧ decode 0x10#64 = .ok .bld := ⟨rfl, rfl, by decide⟩

theorem witness_IdleStepHoldsTheState : working.inputs = [] := rfl

theorem witness_IllegalWordRaisesIllegalCommand :
    (pending working (.writeReg .dword 0x000#10 0x04#64)).inputs = .writeReg .dword 0x000#10 0x04#64 :: [] ∧
      decode 0x04#64 = .error (.unassignedOpcode 0x04#8) ∧
      (pending working (.writeReg .dword 0x000#10 0x04#64)).fault = false ∧
      (pending faulted (.writeReg .dword 0x000#10 0x04#64)).fault = true := ⟨rfl, by decide, rfl, rfl⟩

theorem witness_FirstFailedPreconditionIsReported :
    (twoBlocks.setBidx 1).fault = false ∧
      preconditions .embblk = [.dims, .idx, .grp] ++ .ditherValid :: [] ∧
      (∀ q ∈ [Precondition.dims, .idx, .grp], q.holds (twoBlocks.setBidx 1)) ∧
      ¬ Precondition.ditherValid.holds (twoBlocks.setBidx 1) := by
  refine ⟨rfl, rfl, ?_, Bool.false_ne_true⟩
  intro q hq
  simp only [List.mem_cons, List.not_mem_nil, or_false] at hq
  rcases hq with rfl | rfl | rfl
  · exact (holds_dims_iff _).mpr (by decide)
  · exact (holds_idx_iff _).mpr (by decide)
  · exact (holds_grp_iff _).mpr (by decide)

/-- One state meets the preconditions of every command at once. -/
theorem witness_MetPreconditionsComplete (i : Instr) : ReadyFor i working := by
  cases i
  case seek => exact ready_of_checks rfl rfl
  all_goals exact ready_of_checks rfl (by decide +kernel)

theorem witness_ErrorsArePreciseAndSynchronous :
    (pending working (.writeReg .dword 0x000#10 0x04#64)).fault = false ∧
      ∃ t, step (pending working (.writeReg .dword 0x000#10 0x04#64)) = .next t ∧ t.fault = true :=
  ⟨rfl, _, rfl, rfl⟩

/-- Each action at a boundary of its range. -/
theorem witness_FaultedStateIgnoresWritesAndCommands :
    faulted.fault = true ∧ (0x3F8#10).toNat % 8 = 0 ∧ (0x3F8#10 : BitVec 10) ≠ 0x000#10 ∧
      (0x008#10 : BitVec 10) ≠ 0x000#10 ∧
      (pending faulted (.writeReg .dword 0x3F8#10 1#64)).inputs = .writeReg .dword 0x3F8#10 1#64 :: [] ∧
      (pending faulted (.writeReg .dword 0x000#10 15#64)).inputs = .writeReg .dword 0x000#10 15#64 :: [] ∧
      (pending faulted (.readReg .dword 0x3F8#10)).inputs = .readReg .dword 0x3F8#10 :: [] ∧
      262143 < 64 * faulted.cfg.maxBlk ∧ 49151 < 12 * faulted.cfg.maxBlk ∧
      (pending faulted (.writePlane 262143 1)).inputs = .writePlane 262143 1 :: [] ∧
      (pending faulted (.writeBit 49151 true)).inputs = .writeBit 49151 true :: [] ∧
      (pending faulted (.readPlane 262143)).inputs = .readPlane 262143 :: [] ∧
      (pending faulted (.readBit 49151)).inputs = .readBit 49151 :: [] := by
  refine ⟨rfl, by decide, by decide, by decide, rfl, rfl, rfl, by decide, by decide, rfl, rfl, rfl, rfl⟩

theorem witness_FaultedStateDropsCommands : Instr.nop ≠ .srst ∧ faulted.fault = true := ⟨by decide, rfl⟩

theorem witness_OnlyResetLeavesFaulted :
    faulted.fault = true ∧ (∃ t, step (pending faulted .resetLine) = .next t) ∧
      ∃ t, step (pending faulted (.writeReg .dword 0x000#10 0x01#64)) = .next t := ⟨rfl, ⟨_, rfl⟩, _, rfl⟩

theorem witness_InterruptLineIsALevel : faulted.irq = true ∧ ∃ t, step (pending faulted .resetLine) = .next t :=
  ⟨rfl, _, rfl⟩

theorem witness_ResetGivesTheListedValues : (pending working .resetLine).inputs = .resetLine :: [] := rfl

theorem witness_WritingKeyOrStepClearsDV :
    working.fault = false ∧ working.dv = true ∧
      (pending working (.writeReg .dword 0x048#10 123456#64)).inputs = .writeReg .dword 0x048#10 123456#64 :: [] ∧
      (pending working (.writeReg .dword 0x050#10 0#64)).inputs = .writeReg .dword 0x050#10 0#64 :: [] :=
  ⟨rfl, rfl, rfl, rfl⟩

/-- The ends of the ranges of offsets, and the first and last element of BLK. -/
theorem witness_RegisterWritesFollowTheMap :
    working.fault = false ∧ (0x060#10).toNat % 8 = 0 ∧ 0x060 ≤ (0x060#10).toNat ∧ (0x1F8#10).toNat % 8 = 0 ∧
      (0x1F8#10).toNat < 0x200 ∧ BitVec.ofNat 10 (0x200 + 8 * (63 : Fin 64).val) = 0x3F8#10 ∧
      (pending working (.writeReg .dword 0x3F8#10 1#64)).inputs = .writeReg .dword 0x3F8#10 1#64 :: [] ∧
      (pending working (.writeReg .dword 0x060#10 1#64)).inputs = .writeReg .dword 0x060#10 1#64 :: [] := by
  refine ⟨rfl, by decide, by decide, by decide, by decide, by decide, rfl, rfl⟩

/-- The last register of each window. -/
theorem witness_RegisterReadsFollowTheMap :
    (0x1B8#10).toNat % 8 = 0 ∧ (0x1B8#10).toNat = 0x108 + 16 * (11 : Fin 12).val ∧ working.dv = true ∧
      (0x1B0#10).toNat = 0x100 + 16 * (11 : Fin 12).val ∧ (0x3F8#10).toNat = 0x200 + 8 * (63 : Fin 64).val ∧
      working.blkv[63] = true ∧ working.gv = true ∧
      (pending working (.readReg .dword 0x1B8#10)).inputs = .readReg .dword 0x1B8#10 :: [] := by
  refine ⟨by decide, by decide, rfl, by decide, by decide, by decide +kernel, rfl, rfl⟩

theorem witness_BlockCountIsAView :
    (pending working (.writeReg .dword 0x040#10 5#64)).inputs = .writeReg .dword 0x040#10 5#64 :: [] := rfl

theorem witness_OddRegisterAccessIsRefused :
    (AccessWidth.word ≠ .dword) ∧ (0x004#10).toNat % 8 ≠ 0 ∧
      (pending working (.writeReg .word 0x020#10 1#64)).inputs = .writeReg .word 0x020#10 1#64 :: [] ∧
      (pending working (.readReg .dword 0x004#10)).inputs = .readReg .dword 0x004#10 :: [] := by
  refine ⟨by decide, by decide, rfl, rfl⟩

/-- The last cell that exists, and the first that does not. -/
theorem witness_HostMemoryAccessIsOneCell :
    262143 < 64 * working.cfg.maxBlk ∧ 64 * working.cfg.maxBlk ≤ 262144 ∧ 49151 < 12 * working.cfg.maxBlk ∧
      12 * working.cfg.maxBlk ≤ 49152 ∧
      (pending working (.writePlane 262144 1)).inputs = .writePlane 262144 1 :: [] ∧
      (pending working (.writeBit 49152 true)).inputs = .writeBit 49152 true :: [] ∧
      (pending working (.readPlane 262143)).inputs = .readPlane 262143 :: [] ∧
      (pending working (.readBit 49151)).inputs = .readBit 49151 :: [] := by
  refine ⟨by decide, by decide, by decide, by decide, rfl, rfl, rfl, rfl⟩

/-- V41: the last element of the last block of a 16 × 16 plane. -/
theorem witness_BlocksTileThePlane : 16 % 8 = 0 ∧ 3 < (16 / 8) * (16 / 8) ∧ 63 < 64 ∧ planeAddr 16 3 63 = 255 := by decide

theorem witness_NopChangesNothing : (0x100#64).extractLsb' 0 8 = 0x00#8 ∧ (0x100#64 : Word) ≠ 0 := by decide

theorem witness_CheckIsTheEntryTest : ReadyFor .check working ∧ working.fault = false :=
  ⟨witness_MetPreconditionsComplete _, rfl⟩

theorem witness_SeekSetsTheCursor : 16777215 < 2 ^ 24 ∧ working.fault = false := ⟨by decide, rfl⟩

theorem witness_NextAdvancesTheCursor : (working.setBidx 0xFFFFFFFF#32).fault = false := rfl

theorem witness_BldLoadsTheBlock : ReadyFor .bld working := witness_MetPreconditionsComplete _

theorem witness_BstStoresTheBlock : ReadyFor .bst working := witness_MetPreconditionsComplete _

theorem witness_BldThenBstKeepsThePlane : ReadyFor .bld working := witness_MetPreconditionsComplete _

theorem witness_BitldLoadsTheGroup : ReadyFor .bitld working := witness_MetPreconditionsComplete _

theorem witness_BitstStoresTheGroup : ReadyFor .bitst working := witness_MetPreconditionsComplete _

theorem witness_BitstThenBitldKeepsTheGroup : ReadyFor .bitst working := witness_MetPreconditionsComplete _

theorem witness_FdctTransformsRowsThenColumns : ReadyFor .fdct working := witness_MetPreconditionsComplete _

theorem witness_IdctTransformsAndScalesOnce : ReadyFor .idct working := witness_MetPreconditionsComplete _

theorem witness_DgenWritesTheTable : ReadyFor .dgen working := witness_MetPreconditionsComplete _

theorem witness_DgenIsPure :
    working.key = (working.setWidth 8).key ∧ working.stepSize = (working.setWidth 8).stepSize ∧
      ReadyFor .dgen working ∧ ReadyFor .dgen (working.setWidth 8) ∧ (∃ t, exec .dgen working = .next t) ∧
      ∃ t, exec .dgen (working.setWidth 8) = .next t :=
  ⟨rfl, rfl, witness_MetPreconditionsComplete _, ready_of_checks rfl (by decide +kernel),
    ⟨_, exec_ready (witness_MetPreconditionsComplete _)⟩, _, exec_ready (ready_of_checks rfl (by decide +kernel))⟩

/-- The bound itself: the step 2^-1021. -/
theorem witness_DithersLieWithinHalfAStep :
    unpack (working.setStepSize 0x0020000000000000#64).stepSize = .fin false (2 ^ 53) ∧
      (∃ t, exec .dgen (working.setStepSize 0x0020000000000000#64) = .next t) ∧ working.fault = false :=
  ⟨by decide +kernel, ⟨_, exec_ready (ready_of_checks rfl (by decide +kernel))⟩, rfl⟩

theorem witness_QuantizerIsOdd : isNaN (.fin true 3) = false ∧ ∀ neg, F64.fin true 3 ≠ .fin neg 0 := by
  refine ⟨rfl, fun neg h => ?_⟩
  injection h with _ h
  omega

theorem witness_QembEmbedsTwelveBits : ReadyFor .qemb working := witness_MetPreconditionsComplete _

theorem witness_QextExtractsTwelveBits : ReadyFor .qext working := witness_MetPreconditionsComplete _

theorem witness_TransformRoundTripKeepsThePlane : ReadyFor .bld working := witness_MetPreconditionsComplete _

/-- The step of `working` is 100; its coefficients at the mask are zeros. -/
theorem working_within_bounds :
    working.ditherOK ∧ unpack working.stepSize = .fin false (100 * unit) ∧ 10 * unit ≤ 100 * unit ∧
      100 * unit ≤ 2 ^ 900 * unit ∧
      ∀ k : Fin 12, ∃ neg m, unpack working.blk[maskIndex k] = .fin neg m ∧ m ≤ 2 ^ 20 * unit := by
  refine ⟨fun _ => ⟨by decide +kernel, rfl⟩, by decide +kernel, by decide +kernel, by decide +kernel, fun k => ?_⟩
  have h : unpack working.blk[maskIndex k] = .fin false 0 := by revert k; decide +kernel
  exact ⟨false, 0, h, Nat.zero_le _⟩

theorem witness_QextReadsBackWhatQembEmbedded :
    ReadyFor .qemb working ∧ working.ditherOK ∧ ∃ mag, unpack working.stepSize = .fin false mag ∧ 10 * unit ≤ mag ∧
      mag ≤ 2 ^ 900 * unit ∧
      ∀ k : Fin 12, ∃ neg m, unpack working.blk[maskIndex k] = .fin neg m ∧ m ≤ 2 ^ 20 * unit :=
  ⟨witness_MetPreconditionsComplete _, working_within_bounds.1, _, working_within_bounds.2⟩

/-- What QEMB leaves of `working`; then the same with 9.9 added to the coefficient of slot 1, -25.766… -/
def embedded : State := after (exec .qemb working)

def noisy : State := embedded.setBlkElement 5 0xC02FBB73842D1603#64

/-- The two values are finite and at most the noise apart that the statement allows. -/
def withinNoise (mag : Nat) (x y : F64) : Bool :=
  match x, y with
  | .fin na a, .fin nb b => decide (10 * 2 ^ 20 * |signedMag nb b - signedMag na a| ≤ (2 ^ 20 - 1) * (mag : Int))
  | _, _ => false

theorem withinNoise_iff {mag : Nat} {x y : F64} (h : withinNoise mag x y = true) :
    ∃ na a nb b, x = .fin na a ∧ y = .fin nb b ∧
      10 * 2 ^ 20 * |signedMag nb b - signedMag na a| ≤ (2 ^ 20 - 1) * (mag : Int) := by
  match x, y with
  | .fin _ _, .fin _ _ => exact ⟨_, _, _, _, rfl, rfl, of_decide_eq_true h⟩
  | .nan, _ => exact absurd h Bool.false_ne_true
  | .inf _, _ => exact absurd h Bool.false_ne_true
  | .fin _ _, .nan => exact absurd h Bool.false_ne_true
  | .fin _ _, .inf _ => exact absurd h Bool.false_ne_true

theorem witness_ExtractionToleratesNoise :
    exec .qemb working = .next embedded ∧ ReadyFor .qext noisy ∧ noisy.stepSize = working.stepSize ∧
      noisy.dth = working.dth ∧ noisy.blk[5] ≠ embedded.blk[5] ∧
      ∀ k : Fin 12, ∃ na a nb b, unpack embedded.blk[maskIndex k] = .fin na a ∧
        unpack noisy.blk[maskIndex k] = .fin nb b ∧
        10 * 2 ^ 20 * |signedMag nb b - signedMag na a| ≤ (2 ^ 20 - 1) * ((100 * unit : Nat) : Int) := by
  have h : exec .qemb working = .next embedded := by
    have := exec_ready (witness_MetPreconditionsComplete .qemb)
    rw [embedded, this]; rfl
  refine ⟨h, ready_of_checks (by decide +kernel) (by decide +kernel), by decide +kernel, by decide +kernel,
    by decide +kernel, fun k => withinNoise_iff ?_⟩
  revert k; decide +kernel

theorem witness_EmbblkIsItsSequence : ReadyFor .embblk working := witness_MetPreconditionsComplete _

theorem witness_ExtblkIsItsSequence : ReadyFor .extblk working := witness_MetPreconditionsComplete _

/-- With two blocks, and with none. -/
theorem witness_EmballIsItsSequence :
    ReadyFor .emball working ∧ 0 < working.nblk ∧
      ReadyFor .emball ((working.setWidth 0).setBitLen 0) ∧ ((working.setWidth 0).setBitLen 0).nblk = 0 :=
  ⟨witness_MetPreconditionsComplete _, by decide, ready_of_checks rfl (by decide +kernel), rfl⟩

theorem witness_ExtallIsItsSequence :
    ReadyFor .extall working ∧ 0 < working.nblk ∧
      ReadyFor .extall ((working.setWidth 0).setBitLen 0) ∧ ((working.setWidth 0).setBitLen 0).nblk = 0 :=
  ⟨witness_MetPreconditionsComplete _, by decide, ready_of_checks rfl (by decide +kernel), rfl⟩

/-- One bit too few and one too many. -/
theorem witness_WrongStreamLengthFailsAtEntry :
    working.fault = false ∧ working.width.toNat % 8 = 0 ∧ working.height.toNat % 8 = 0 ∧
      (working.width.toNat / 8) * (working.height.toNat / 8) ≤ working.cfg.maxBlk ∧
      (working.setBitLen 23).bitLen.toNat ≠ 12 * ((working.width.toNat / 8) * (working.height.toNat / 8)) ∧
      (working.setBitLen 25).bitLen.toNat ≠ 12 * ((working.width.toNat / 8) * (working.height.toNat / 8)) := by
  refine ⟨rfl, by decide, by decide, by decide, by decide, by decide⟩

theorem witness_CommandsWriteOnlyWhatTheyList :
    Instr.bst ≠ .srst ∧ (∃ t, exec .bst working = .next t) ∧ ∃ t, exec .bst (working.setBidx 2) = .next t := by
  refine ⟨by decide, ⟨_, exec_ready (witness_MetPreconditionsComplete _)⟩, ?_⟩
  rw [exec_eq_runCommand (by decide)]
  exact runCommand_next

theorem witness_ValidFlagsAreClearedOnlyByResetOrInvalidation :
    (∃ t, step (pending working (.writeReg .dword 0x048#10 0#64)) = .next t) ∧ working.dv = true ∧ working.gv = true ∧
      working.blkv[63] = true := ⟨⟨_, rfl⟩, rfl, rfl, by decide +kernel⟩

theorem witness_StepKeepsTheInvariant :
    (pending working (.writePlane 262143 1)).Inv ∧ ∃ t, step (pending working (.writePlane 262143 1)) = .next t := by
  refine ⟨⟨⟨by decide, by decide⟩, ⟨List.Pairwise.nil, List.Pairwise.nil, ?_, ?_⟩, ⟨fun _ => ⟨rfl, rfl⟩, ?_⟩, ?_⟩, _, rfl⟩
  · exact fun c hc => nomatch hc
  · exact fun c hc => nomatch hc
  · exact fun h => absurd h Bool.false_ne_true
  · exact fun _ => ⟨by decide +kernel, rfl⟩

/-- A tie: 3/2 lies between 1 and 2, and goes to the even 2. -/
theorem witness_RoundingIsToNearestEven :
    roundNearest false 3 1 = .fin false 2 ∧ magRepresentable 1 ∧
      |((3 : Nat) : Int) - (2 : Nat) * 2 ^ 1| = |((3 : Nat) : Int) - (1 : Nat) * 2 ^ 1| := by
  refine ⟨by decide +kernel, ⟨by decide, by decide⟩, by decide⟩

/-- 2/3 is 0x15555555555555 · 2^-53. -/
theorem witness_DivisionIsRoundedOnce :
    (3 : Nat) ≠ 0 ∧ fdiv (.fin false 2) (.fin true 3) = .fin true (0x15555555555555 <<< 1021) ∧ magRepresentable 1 :=
  ⟨by decide, by decide +kernel, by decide, by decide⟩

/-- 0.5, where the value 1 begins; 254.5, where 255 begins; the value just below 0.5. -/
theorem witness_ToByteRoundsAndClamps :
    2 * signedMag false (unit / 2) = (2 * ((1 : Nat) : Int) - 1) * unit ∧
      509 * (unit : Int) = 2 * signedMag false (509 * unit / 2) ∧
      (2 * ((255 : Nat) : Int) - 1) * unit ≤ 2 * signedMag false (509 * unit / 2) ∧
      2 * signedMag false (unit / 2 - 1) < unit := by decide +kernel

end Sys2Proof.Tests
end

namespace Sys2Proof.Machine

/-! ## The tests DimsOK and IdxOK do not see what the primitive commands write (R120, R217) -/

section TestFrames
variable (s : State)

@[simp] theorem dimsOK_bldBody : (bldBody s).dimsOK = s.dimsOK := dimsOK_congr rfl rfl rfl
@[simp] theorem dimsOK_fdctBody : (fdctBody s).dimsOK = s.dimsOK := dimsOK_congr rfl rfl rfl
@[simp] theorem dimsOK_bitldBody : (bitldBody s).dimsOK = s.dimsOK := dimsOK_congr rfl rfl rfl
@[simp] theorem dimsOK_qembBody : (qembBody s).dimsOK = s.dimsOK := dimsOK_congr rfl rfl rfl
@[simp] theorem dimsOK_idctBody : (idctBody s).dimsOK = s.dimsOK := dimsOK_congr rfl rfl rfl
@[simp] theorem dimsOK_qextBody : (qextBody s).dimsOK = s.dimsOK := dimsOK_congr rfl rfl rfl
@[simp] theorem dimsOK_bstBody : (bstBody s).dimsOK = s.dimsOK := dimsOK_congr rfl rfl rfl
@[simp] theorem dimsOK_bitstBody : (bitstBody s).dimsOK = s.dimsOK := dimsOK_congr rfl rfl rfl
@[simp] theorem dimsOK_advance : s.advance.dimsOK = s.dimsOK := dimsOK_congr rfl rfl rfl
@[simp] theorem idxOK_bldBody : (bldBody s).idxOK = s.idxOK := idxOK_congr rfl rfl rfl
@[simp] theorem idxOK_fdctBody : (fdctBody s).idxOK = s.idxOK := idxOK_congr rfl rfl rfl
@[simp] theorem idxOK_bitldBody : (bitldBody s).idxOK = s.idxOK := idxOK_congr rfl rfl rfl
@[simp] theorem idxOK_qembBody : (qembBody s).idxOK = s.idxOK := idxOK_congr rfl rfl rfl
@[simp] theorem idxOK_idctBody : (idctBody s).idxOK = s.idxOK := idxOK_congr rfl rfl rfl
@[simp] theorem idxOK_qextBody : (qextBody s).idxOK = s.idxOK := idxOK_congr rfl rfl rfl

theorem dimsOK_embblkBody : (embblkBody s).dimsOK = s.dimsOK := by simp [embblkBody]

theorem dimsOK_extblkBody : (extblkBody s).dimsOK = s.dimsOK := by simp [extblkBody]

end TestFrames

/-! ## The invariant: what each update of the state needs to keep it (10_state.md R44, R46, R47, R51) -/

section Invariant
variable {s : State}

theorem State.Inv.setInputs (h : s.Inv) (l : List HostAction) : (s.setInputs l).Inv := h
theorem State.Inv.setHostData (h : s.Inv) (v : Word) : (s.setHostData v).Inv := h
theorem State.Inv.useFree (h : s.Inv) (n : Nat) : (s.useFree n).Inv := h
theorem State.Inv.setWidth (h : s.Inv) (v : BitVec 16) : (s.setWidth v).Inv := h
theorem State.Inv.setHeight (h : s.Inv) (v : BitVec 16) : (s.setHeight v).Inv := h
theorem State.Inv.setBitLen (h : s.Inv) (v : BitVec 32) : (s.setBitLen v).Inv := h
theorem State.Inv.setIE (h : s.Inv) (v : Bool) : (s.setIE v).Inv := h
theorem State.Inv.setBidx (h : s.Inv) (v : BitVec 32) : (s.setBidx v).Inv := h
theorem State.Inv.advance (h : s.Inv) : s.advance.Inv := h
theorem State.Inv.setBlkElement (h : s.Inv) (i : Fin 64) (v : Word) : (s.setBlkElement i v).Inv := h
theorem State.Inv.loadBlk (h : s.Inv) (b : Vector Word 64) : (s.loadBlk b).Inv := h
theorem State.Inv.storeBlk (h : s.Inv) (b : Vector Word 64) : (s.storeBlk b).Inv := h
theorem State.Inv.setBits (h : s.Inv) (v : BitVec 12) : (s.setBits v).Inv := h

/-- R45: the dither table of the old KEY is no longer claimed. -/
theorem State.Inv.setKey (h : s.Inv) (v : Word) : (s.setKey v).Inv := by
  obtain ⟨hcfg, hmem, hrec, -⟩ := h
  exact ⟨hcfg, hmem, hrec, fun hdv => nomatch hdv⟩

/-- R45: the dither table of the old STEP is no longer claimed. -/
theorem State.Inv.setStepSize (h : s.Inv) (v : Word) : (s.setStepSize v).Inv := by
  obtain ⟨hcfg, hmem, hrec, -⟩ := h
  exact ⟨hcfg, hmem, hrec, fun hdv => nomatch hdv⟩

theorem State.Inv.setDither (h : s.Inv) (hstep : s.stepOK = true) :
    (s.setDither (ditherTable s.key s.stepSize)).Inv := by
  obtain ⟨hcfg, hmem, hrec, -⟩ := h
  exact ⟨hcfg, hmem, hrec, fun _ => ⟨hstep, rfl⟩⟩

theorem State.Inv.setPlane (h : s.Inv) {m : List Host.Cell} (hwf : Memory.wf m)
    (hbound : ∀ c ∈ m, c.1 < s.planeCells) : (s.setPlane m).Inv := by
  obtain ⟨hcfg, ⟨-, hbitWf, -, hbitBound⟩, hrec, hdth⟩ := h
  exact ⟨hcfg, ⟨hwf, hbitWf, hbound, hbitBound⟩, hrec, hdth⟩

theorem State.Inv.setBitmem (h : s.Inv) {m : List (Nat × Bool)} (hwf : Memory.wf m)
    (hbound : ∀ c ∈ m, c.1 < s.bitCells) : (s.setBitmem m).Inv := by
  obtain ⟨hcfg, ⟨hplaneWf, -, hplaneBound, -⟩, hrec, hdth⟩ := h
  exact ⟨hcfg, ⟨hplaneWf, hwf, hplaneBound, hbound⟩, hrec, hdth⟩

theorem State.Inv.writePlane (h : s.Inv) {a : Nat} (ha : a < s.planeCells) (v : Byte) : (s.writePlane a v).Inv := by
  obtain ⟨hwf, -, hbound, -⟩ := h.2.1
  exact h.setPlane (setCell_wf a v hwf) (setCell_bound ha hbound)

theorem State.Inv.writeBit (h : s.Inv) {a : Nat} (ha : a < s.bitCells) (v : Bool) : (s.writeBit a v).Inv := by
  obtain ⟨-, hwf, -, hbound⟩ := h.2.1
  exact h.setBitmem (setCell_wf a v hwf) (setCell_bound ha hbound)

/-- R232: an error leaves the code of one of the six in ERR. -/
theorem State.Inv.raise (h : s.Inv) (e : CommandError) (w : Word) : (raise e w s).Inv := by
  obtain ⟨hcfg, hmem, -, hdth⟩ := h
  exact ⟨hcfg, hmem, ⟨(fun hf => nomatch hf), fun _ => ⟨e, rfl⟩⟩, hdth⟩

/-- R54: a reset leaves the memories alone, and clears the fault record and DV. -/
theorem State.Inv.resetEngine (h : s.Inv) : (resetEngine s).Inv := by
  obtain ⟨hcfg, hmem, -, -⟩ := h
  exact ⟨hcfg, hmem, ⟨fun _ => ⟨rfl, rfl⟩, fun hf => nomatch hf⟩, fun hdv => nomatch hdv⟩

/-! ## The invariant: the effect of each command -/

theorem State.Inv.bldBody (h : s.Inv) : (bldBody s).Inv := h.loadBlk _

theorem State.Inv.bitldBody (h : s.Inv) : (bitldBody s).Inv := h.setBits _

theorem State.Inv.fdctBody (h : s.Inv) : (fdctBody s).Inv := (h.storeBlk _).useFree _

theorem State.Inv.idctBody (h : s.Inv) : (idctBody s).Inv := (h.storeBlk _).useFree _

theorem State.Inv.qembBody (h : s.Inv) : (qembBody s).Inv := (h.storeBlk _).useFree _

theorem State.Inv.qextBody (h : s.Inv) : (qextBody s).Inv := h.setBits _

theorem State.Inv.dgenBody (h : s.Inv) (hstep : s.stepOK = true) : (dgenBody s).Inv := h.setDither hstep

/-- R77: with the dimensions and the cursor in order BST writes cells that exist. -/
theorem State.Inv.bstBody (h : s.Inv) (hd : s.dimsOK = true) (hi : s.idxOK = true) : (bstBody s).Inv := by
  obtain ⟨hwf, -, hbound, -⟩ := h.2.1
  refine h.setPlane ?_ ?_ <;> rw [State.storedPlane]
  · exact foldl_setCell_wf _ _ _ _ hwf
  · exact foldl_setCell_bound _ _ _ _ _ (fun i _ => blockAddr_lt hd hi i) hbound

/-- R77: with the dimensions and the cursor in order BITST writes cells that exist. -/
theorem State.Inv.bitstBody (h : s.Inv) (hd : s.dimsOK = true) (hi : s.idxOK = true) : (bitstBody s).Inv := by
  obtain ⟨-, hwf, -, hbound⟩ := h.2.1
  refine h.setBitmem ?_ ?_ <;> rw [State.storedBits]
  · exact foldl_setCell_wf _ _ _ _ hwf
  · exact foldl_setCell_bound _ _ _ _ _ (fun k _ => groupAddr_lt hd hi k) hbound

/-- R195: the steps before BST change no register that its tests read. -/
theorem State.Inv.embblkBody (h : s.Inv) (hd : s.dimsOK = true) (hi : s.idxOK = true) : (embblkBody s).Inv :=
  (h.bldBody.fdctBody.bitldBody.qembBody.idctBody.bstBody (by simpa using hd) (by simpa using hi)).advance

/-- R196: the steps before BITST change no register that its tests read. -/
theorem State.Inv.extblkBody (h : s.Inv) (hd : s.dimsOK = true) (hi : s.idxOK = true) : (extblkBody s).Inv :=
  (h.bldBody.fdctBody.qextBody.bitstBody (by simpa using hd) (by simpa using hi)).advance

/-- R197, R198: a loop over all blocks keeps the invariant if its body does on every block of a plane whose
dimensions are in order, and leaves those as they are. -/
theorem State.Inv.allBlocks {body : State → State}
    (hbody : ∀ t : State, t.Inv → t.dimsOK = true → t.idxOK = true → (body t).Inv)
    (hdims : ∀ t : State, (body t).dimsOK = t.dimsOK)
    (h : s.Inv) (hd : s.dimsOK = true) (hstep : s.stepOK = true) : (allBlocks body s).Inv := by
  have hstart : ((Machine.dgenBody s).setBidx 0).Inv := (h.dgenBody hstep).setBidx 0
  have hkeep : ∀ t : State, (t.Inv ∧ t.dimsOK = true) → t.idxOK = true →
      (body t).Inv ∧ (body t).dimsOK = true :=
    fun t ⟨ht, htd⟩ hti => ⟨hbody t ht htd hti, (hdims t).trans htd⟩
  exact (whileBlocks_induction hkeep s.nblk ⟨hstart, (dimsOK_congr rfl rfl rfl).trans hd⟩).1

theorem State.Inv.emballBody (h : s.Inv) (hd : s.dimsOK = true) (hstep : s.stepOK = true) : (emballBody s).Inv :=
  h.allBlocks (fun _ ht => ht.embblkBody) dimsOK_embblkBody hd hstep

theorem State.Inv.extallBody (h : s.Inv) (hd : s.dimsOK = true) (hstep : s.stepOK = true) : (extallBody s).Inv :=
  h.allBlocks (fun _ ht => ht.extblkBody) dimsOK_extblkBody hd hstep

/-! ## The invariant: commands, host actions, steps -/

theorem ReadyFor.dimsOK {i : Instr} (h : ReadyFor i s) (hp : .dims ∈ preconditions i) : s.dimsOK = true :=
  (holds_dims_iff s).mp (h.2 _ hp)

theorem ReadyFor.idxOK {i : Instr} (h : ReadyFor i s) (hp : .idx ∈ preconditions i) : s.idxOK = true :=
  (holds_idx_iff s).mp (h.2 _ hp)

theorem ReadyFor.stepOK {i : Instr} (h : ReadyFor i s) (hp : .legalStep ∈ preconditions i) : s.stepOK = true :=
  (holds_legalStep_iff s).mp (h.2 _ hp)

/-- The effect of every command issued with its preconditions met keeps the invariant. -/
theorem State.Inv.effectOf (h : s.Inv) {i : Instr} (hr : ReadyFor i s) : (effectOf i s).Inv := by
  cases i with
  | nop => exact h
  | check => exact h
  | seek imm => exact h.setBidx _
  | next => exact h.advance
  | srst => exact h.resetEngine
  | bld => exact h.bldBody
  | bst => exact h.bstBody (hr.dimsOK (by decide)) (hr.idxOK (by decide))
  | bitld => exact h.bitldBody
  | bitst => exact h.bitstBody (hr.dimsOK (by decide)) (hr.idxOK (by decide))
  | fdct => exact h.fdctBody
  | idct => exact h.idctBody
  | dgen => exact h.dgenBody (hr.stepOK (by decide))
  | qemb => exact h.qembBody
  | qext => exact h.qextBody
  | embblk => exact h.embblkBody (hr.dimsOK (by decide)) (hr.idxOK (by decide))
  | extblk => exact h.extblkBody (hr.dimsOK (by decide)) (hr.idxOK (by decide))
  | emball => exact h.emballBody (hr.dimsOK (by decide)) (hr.stepOK (by decide))
  | extall => exact h.extallBody (hr.dimsOK (by decide)) (hr.stepOK (by decide))

variable {t : State}

theorem State.Inv.exec (h : s.Inv) {i : Instr} (he : exec i s = .next t) : t.Inv := by
  by_cases hi : i = .srst
  · subst hi
    cases he
    exact h.resetEngine
  · rcases exec_next_cases hi he with ⟨-, rfl⟩ | ⟨-, e, rfl⟩ | ⟨hr, rfl⟩
    · exact h
    · exact h.raise e _
    · exact h.effectOf hr

/-- Everything a word written to CMD can do: it is dropped, it raises IllegalCommand, or it is a command's. -/
theorem issue_next_cases {w : Word} (h : issue w s = .next t) :
    t = s ∨ t = raise .illegalCommand w s ∨ ∃ i, exec i s = .next t := by
  unfold issue at h
  split at h
  · split at h
    · exact .inr (.inr ⟨.srst, h⟩)
    · cases h; exact .inl rfl
  · split at h
    next i _ => exact .inr (.inr ⟨i, h⟩)
    next => cases h; exact .inr (.inl rfl)

theorem State.Inv.issue (h : s.Inv) {w : Word} (hw : issue w s = .next t) : t.Inv := by
  rcases issue_next_cases hw with rfl | rfl | ⟨i, he⟩
  · exact h
  · exact h.raise _ _
  · exact h.exec he

theorem State.Inv.writeRegister (h : s.Inv) (r : RegName) (v : Word) : (writeRegister r v s).Inv := by
  cases r with
  | ctrl => exact h.setIE _
  | width => exact h.setWidth _
  | height => exact h.setHeight _
  | bitLen => exact h.setBitLen _
  | bidx => exact h.setBidx _
  | key => exact h.setKey v
  | stepSize => exact h.setStepSize v
  | bits => exact h.setBits _
  | blk i => exact h.setBlkElement i v
  | cmd | status | errInfo | nblk | dthLo | dthHi | reserved => exact h

/-- R48: a write to CMD issues the word. -/
theorem hostWrite_cmd (v : Word) (s : State) : hostWrite .cmd v s = issue v s := rfl

/-- R241 (b): a write to any other register, in both states. -/
theorem hostWrite_of_ne_cmd {r : RegName} (hr : r ≠ .cmd) (v : Word) (s : State) :
    hostWrite r v s = if s.fault then .next s else .next (writeRegister r v s) := by
  cases r with
  | cmd => exact absurd rfl hr
  | _ => rfl

theorem State.Inv.hostWrite (h : s.Inv) {r : RegName} {v : Word} (hw : hostWrite r v s = .next t) : t.Inv := by
  by_cases hr : r = .cmd
  · subst hr
    exact h.issue hw
  · rw [hostWrite_of_ne_cmd hr] at hw
    split at hw <;> cases hw
    · exact h
    · exact h.writeRegister r v

/-- Every host action keeps the invariant: a write to a memory cell that does not exist is a fault. -/
theorem State.Inv.perform (h : s.Inv) {a : HostAction} (ha : perform a s = .next t) : t.Inv := by
  cases a with
  | writeReg width offset v =>
    simp only [Machine.perform] at ha
    split at ha
    · exact h.hostWrite ha
    · cases ha
  | readReg width offset =>
    simp only [Machine.perform] at ha
    split at ha <;> cases ha
    exact (h.setHostData _).useFree 1
  | writePlane address v =>
    simp only [Machine.perform] at ha
    split at ha <;> cases ha
    next hlt => exact h.writePlane hlt v
  | readPlane address =>
    simp only [Machine.perform] at ha
    split at ha <;> cases ha
    exact h.setHostData _
  | writeBit address v =>
    simp only [Machine.perform] at ha
    split at ha <;> cases ha
    next hlt => exact h.writeBit hlt v
  | readBit address =>
    simp only [Machine.perform] at ha
    split at ha <;> cases ha
    exact h.setHostData _
  | resetLine =>
    cases ha
    exact h.resetEngine

end Invariant

/-! ## A step is one host action (00_scope.md R8) -/

/-- With no action pending the engine idles. -/
theorem step_of_inputs_nil {s : State} (h : s.inputs = []) : step s = .next s := by
  simp [step, h]

theorem step_of_inputs_cons {s : State} {a : HostAction} {rest : List HostAction} (h : s.inputs = a :: rest) :
    step s = perform a (s.setInputs rest) := by
  simp [step, h]

/-- R48, R100: a 64-bit write to CMD in READY runs the command its word decodes to. -/
theorem perform_issueAction {s : State} {w : Word} {i : Instr} (hf : s.fault = false) (hw : decode w = .ok i) :
    perform (issueAction w) s = exec i s := by
  have hport : perform (issueAction w) s = issue w s := rfl
  simp [hport, issue, hf, hw]

/-- Settles O55: a step performs at most one host action, and every host action keeps the invariant. -/
theorem stepKeepsTheInvariant : Obligations.StepKeepsTheInvariant := by
  intro s t h hstep
  cases hin : s.inputs with
  | nil =>
    rw [step_of_inputs_nil hin] at hstep
    cases hstep
    exact h
  | cons a rest =>
    rw [step_of_inputs_cons hin] at hstep
    exact (h.setInputs rest).perform hstep

/-- Settles O5: both a pending CMD write and the one `withFetchWord` places go through the command port. -/
theorem stepRunsTheDecodedCommand : Obligations.StepRunsTheDecodedCommand := by
  refine ⟨fun s w i rest hin hf hw => ?_, fun s w i hf hw => ?_⟩
  · rw [step_of_inputs_cons hin]
    exact perform_issueAction (s := s.setInputs rest) hf hw
  · have hword : BitVec.ofNat 64 (w.toNat % 2 ^ 64) = w := by
      rw [Nat.mod_eq_of_lt w.isLt, BitVec.ofNat_toNat, BitVec.setWidth_eq]
    have hin : (s.withFetchWord 64 w.toNat).inputs = issueAction w :: s.inputs := by
      rw [State.withFetchWord, State.setInputs_inputs, hword]
    rw [step_of_inputs_cons hin]
    exact perform_issueAction hf hw

/-- Settles O6. -/
theorem idleStepHoldsTheState : Obligations.IdleStepHoldsTheState := fun _ => step_of_inputs_nil

end Sys2Proof.Machine

namespace Sys2Proof.Machine

/-! ## Distances to the grid of the rounding (00_scope.md R16) -/

/-- `m` is the number of steps of size `p` that rounding makes of `q * p + r`: down below half a step, up above it, and
to the even number of steps at half. -/
def RoundsStepsTo (p q r m : Nat) : Prop :=
  (m = q ∧ (2 * r < p ∨ 2 * r = p ∧ q % 2 = 0)) ∨ (m = q + 1 ∧ (p < 2 * r ∨ 2 * r = p ∧ q % 2 = 1))

/-- The distance from `num` to a grid point not above it. -/
theorem dist_grid_below (p j k r : Nat) :
    |(((j + k) * p + r : Nat) : Int) - (j * p : Nat)| = ((k * p + r : Nat) : Int) := by
  rw [show (j + k) * p + r = j * p + (k * p + r) by ring]
  grind

/-- The distance from `num` to a grid point above it. -/
theorem dist_grid_above {p r : Nat} (q k : Nat) (hr : r < p) :
    |((q * p + r : Nat) : Int) - ((q + k + 1) * p : Nat)| = ((k * p + (p - r) : Nat) : Int) := by
  rw [show (q + k + 1) * p = q * p + (k * p + p) by ring]
  grind

section Grid
variable {p q r m : Nat}

/-- The rounded value is no farther away than either neighbour on the grid. -/
theorem RoundsStepsTo.dist_le (h : RoundsStepsTo p q r m) (hr : r < p) :
    |((q * p + r : Nat) : Int) - (m * p : Nat)| ≤ (r : Int) ∧
      |((q * p + r : Nat) : Int) - (m * p : Nat)| ≤ ((p - r : Nat) : Int) := by
  rcases h with ⟨rfl, h⟩ | ⟨rfl, h⟩
  · have hd := dist_grid_below p m 0 r
    rw [Nat.add_zero, Nat.zero_mul, Nat.zero_add] at hd
    rw [hd]
    omega
  · have hd := dist_grid_above q 0 hr
    rw [Nat.add_zero, Nat.zero_mul, Nat.zero_add] at hd
    rw [hd]
    omega

/-- No grid point is nearer; another is equally near only at half a step, where the even one was taken. -/
theorem RoundsStepsTo.nearest_on_grid (h : RoundsStepsTo p q r m) (hr : r < p) (j : Nat) :
    |((q * p + r : Nat) : Int) - (m * p : Nat)| ≤ |((q * p + r : Nat) : Int) - (j * p : Nat)| ∧
      (j ≠ m → |((q * p + r : Nat) : Int) - (m * p : Nat)| = |((q * p + r : Nat) : Int) - (j * p : Nat)| →
        m % 2 = 0) := by
  obtain ⟨hlow, hhigh⟩ := h.dist_le hr
  unfold RoundsStepsTo at h
  rcases Nat.lt_or_ge q j with hj | hj
  · obtain ⟨k, rfl⟩ := Nat.exists_eq_add_of_lt hj
    rw [dist_grid_above q k hr]
    refine ⟨hhigh.trans (by omega), fun hne heq => ?_⟩
    rcases Nat.eq_zero_or_pos k with rfl | hk
    · omega
    · have := Nat.le_mul_of_pos_left p hk
      omega
  · obtain ⟨k, rfl⟩ := Nat.exists_eq_add_of_le hj
    rw [dist_grid_below p j k r]
    refine ⟨hlow.trans (by omega), fun hne heq => ?_⟩
    rcases Nat.eq_zero_or_pos k with rfl | hk
    · omega
    · have := Nat.le_mul_of_pos_left p hk
      omega

/-- A value below the last grid point not above `num` is farther away. -/
theorem RoundsStepsTo.dist_lt_of_below (h : RoundsStepsTo p q r m) (hr : r < p) {b : Nat} (hb : b < q * p) :
    |((q * p + r : Nat) : Int) - (m * p : Nat)| < |((q * p + r : Nat) : Int) - (b : Nat)| := by
  have hlow := (h.dist_le hr).1
  have hd : |((q * p + r : Nat) : Int) - (b : Nat)| = ((q * p + r - b : Nat) : Int) := by
    generalize q * p = n at *
    grind
  rw [hd]
  omega

end Grid

/-! ## The last fraction bit -/

theorem log2_mul_two_pow {m : Nat} (hm : m ≠ 0) (e : Nat) : Nat.log2 (m * 2 ^ e) = Nat.log2 m + e := by
  simp only [Nat.log2_eq_log_two]
  induction e with
  | zero => simp
  | succ e ih => rw [pow_succ, ← Nat.mul_assoc, Nat.log_mul_base (by norm_num) (by positivity), ih, Nat.add_assoc]

/-- Rounding keeps at most 53 bits, and all 53 of them where it drops more than the operand's own `d`. -/
theorem keptSteps_bounds {num d s q r : Nat} (hs : s = max d (Nat.log2 num - 52)) (hnum : num = q * 2 ^ s + r)
    (hr : r < 2 ^ s) : q < 2 ^ 53 ∧ (2 ^ 52 ≤ q ∨ s - d = 0) := by
  have hq : num / 2 ^ s = q := by
    rw [hnum, Nat.add_comm, Nat.add_mul_div_right _ _ (Nat.two_pow_pos s), Nat.div_eq_of_lt hr, Nat.zero_add]
  constructor
  · have := shifted_lt num s (by omega)
    rwa [Nat.shiftRight_eq_div_pow, hq] at this
  · rcases Nat.lt_or_ge d s with hlt | hge
    · have hlog := le_log2_of_shift hs hlt
      have hne : num ≠ 0 := by rintro rfl; simp at hlog
      left
      rw [← hq, Nat.le_div_iff_mul_le (Nat.two_pow_pos s), ← pow_add, Nat.add_comm, ← hlog]
      exact Nat.log2_self_le hne
    · exact .inr (by omega)

/-- An even number `m` of up to 2^53 steps of size 2^e has an even last fraction bit, unless it is a small number of
steps that are not the least ones. -/
theorem lastFractionBit_even {m e : Nat} (hm : m ≤ 2 ^ 53) (hfull : 2 ^ 52 ≤ m ∨ e = 0) (heven : m % 2 = 0) :
    m * 2 ^ e / 2 ^ (Nat.log2 (m * 2 ^ e) - 52) % 2 = 0 := by
  rcases Nat.eq_zero_or_pos m with rfl | hpos
  · simp
  rw [log2_mul_two_pow hpos.ne']
  rcases Nat.lt_or_ge m (2 ^ 53) with hlt | hge
  · have hlog : Nat.log2 m ≤ 52 := by
      have := (Nat.log2_lt hpos.ne').mpr hlt
      omega
    have hshift : Nat.log2 m + e - 52 = e := by
      rcases hfull with h52 | rfl
      · have := (Nat.le_log2 hpos.ne').mpr h52
        omega
      · omega
    rw [hshift, Nat.mul_div_cancel _ (by positivity)]
    exact heven
  · obtain rfl : m = 2 ^ 53 := by omega
    have hlog : Nat.log2 (2 ^ 53) = 53 := by decide
    rw [hlog, show 53 + e - 52 = e + 1 by omega, ← pow_add, Nat.pow_div (by omega) (by norm_num),
      show 53 + e - (e + 1) = 52 by omega]

/-! ## The rounding is to nearest, ties to even -/

/-- A finite rounded value, in the steps of size `2 ^ s` that rounding works in. -/
theorem roundNearest_fin_steps {neg neg' : Bool} {num d mag : Nat} (h : roundNearest neg num d = .fin neg' mag) :
    neg' = neg ∧ ∃ s q r m, d ≤ s ∧ s = max d (Nat.log2 num - 52) ∧ num = q * 2 ^ s + r ∧ r < 2 ^ s ∧
      RoundsStepsTo (2 ^ s) q r m ∧ mag = m * 2 ^ (s - d) := by
  obtain ⟨s, q, r, m, hs, hnum, hr, hsteps, heq⟩ := roundNearest_split neg num d
  rw [h] at heq
  split_ifs at heq
  obtain ⟨rfl, rfl⟩ := F64.fin.inj heq
  exact ⟨rfl, s, q, r, m, by omega, hs, hnum, hr, hsteps, rfl⟩

/-- A count of steps of size `2 ^ (s - d)`, scaled by `2 ^ d`. -/
theorem steps_mul_two_pow {d s : Nat} (h : d ≤ s) (c : Nat) : c * 2 ^ (s - d) * 2 ^ d = c * 2 ^ s := by
  rw [Nat.mul_assoc, ← pow_add, Nat.sub_add_cancel h]

/-- Settles O57: a representable magnitude is a point of the grid rounding works in, where the rounded value is a
nearest one, or it lies below the operand's last grid point, and then it is farther away. -/
theorem roundingIsToNearestEven : Obligations.RoundingIsToNearestEven := by
  intro neg num d neg' mag hround
  have hrep : magRepresentable mag := by
    have hrep := roundNearest_representable neg num d
    rwa [hround] at hrep
  obtain ⟨hneg, s, q, r, m, hds, hs, hnum, hr, hm, rfl⟩ := roundNearest_fin_steps hround
  obtain ⟨hq53, hfull⟩ := keptSteps_bounds hs hnum hr
  have hm_bounds : m = q ∨ m = q + 1 := hm.imp And.left And.left
  have hcast : ∀ c : Nat, (c : Int) * 2 ^ d = ((c * 2 ^ d : Nat) : Int) := fun c => by push_cast; rfl
  refine ⟨hneg, hrep, fun b hb => ?_⟩
  rw [hcast, hcast, steps_mul_two_pow hds]
  rcases grid_or_below hs hnum hr hb with ⟨j, rfl⟩ | ⟨-, hbelow⟩
  · rw [Nat.mul_comm _ j, steps_mul_two_pow hds, hnum]
    obtain ⟨hle, htie⟩ := hm.nearest_on_grid hr j
    refine ⟨hle, fun hne heq => lastFractionBit_even (by omega) (by omega) (htie ?_ heq)⟩
    rintro rfl
    exact hne rfl
  · have hb' : b * 2 ^ d < q * 2 ^ s := by
      rw [← steps_mul_two_pow hds q]
      exact Nat.mul_lt_mul_of_pos_right hbelow (Nat.two_pow_pos d)
    have hlt := hm.dist_lt_of_below hr hb'
    rw [hnum]
    exact ⟨hlt.le, fun _ heq => absurd heq hlt.ne⟩

/-! ## Division -/

/-- Of two points on a line the lower is the nearer one exactly up to the midpoint. -/
theorem abs_sub_le_abs_sub_iff_of_lt {n p q : Int} (h : p < q) : |n - p| ≤ |n - q| ↔ 2 * n ≤ p + q := by
  grind

/-- Of two points on a line the upper is the nearer one exactly from the midpoint on. -/
theorem abs_sub_le_abs_sub_iff_of_gt {n p q : Int} (h : q < p) : |n - p| ≤ |n - q| ↔ p + q ≤ 2 * n := by
  grind

/-- The quotient to one bit and a sticky bit for the rest: what `fdiv` gives to the rounding (R16). -/
def stickyQuotient (num y : Nat) : Nat := 2 * (num / y) + (if num % y = 0 then 0 else 1)

theorem fdiv_fin (na nb : Bool) (x : Nat) {y : Nat} (hy : y ≠ 0) :
    fdiv (.fin na x) (.fin nb y) = roundNearest (na ^^ nb) (stickyQuotient (x * 2 ^ (unitExp + 2)) y) 3 := by
  simp only [fdiv, if_neg hy, Nat.shiftLeft_eq, stickyQuotient]

/-- The sticky bit does not carry the quotient past an even number, from below. -/
theorem stickyQuotient_le_iff (num : Nat) {y : Nat} (hy : 0 < y) (k : Nat) :
    stickyQuotient num y ≤ 2 * k ↔ num ≤ k * y := by
  unfold stickyQuotient
  split_ifs with hrem
  · obtain ⟨c, rfl⟩ := Nat.dvd_of_mod_eq_zero hrem
    rw [Nat.mul_div_cancel_left c hy, Nat.mul_comm y c, Nat.mul_le_mul_right_iff hy]
    omega
  · have hlt : num ≤ k * y ↔ num < k * y :=
      ⟨fun h => lt_of_le_of_ne h fun he => hrem (by rw [he, Nat.mul_mod_left]), le_of_lt⟩
    rw [hlt, ← Nat.div_lt_iff_lt_mul hy]
    omega

/-- The sticky bit does not carry the quotient past an even number, from above. -/
theorem le_stickyQuotient_iff (num : Nat) {y : Nat} (hy : 0 < y) (k : Nat) :
    2 * k ≤ stickyQuotient num y ↔ k * y ≤ num := by
  rw [← Nat.le_div_iff_mul_le hy]
  unfold stickyQuotient
  split_ifs <;> omega

/-- Settles O58: which of two magnitudes is nearer turns on the side of their midpoint the quotient lies on. In the
units of the rounded operand the midpoint is even, so the operand lies on the same side as the exact quotient. -/
theorem divisionIsRoundedOnce : Obligations.DivisionIsRoundedOnce := by
  intro na nb x y neg mag hy hdiv
  rw [fdiv_fin na nb x hy] at hdiv
  obtain ⟨hneg, hrep, hnear⟩ := roundingIsToNearestEven _ _ _ _ _ hdiv
  have hypos : 0 < y := Nat.pos_of_ne_zero hy
  refine ⟨hneg, hrep, fun b hb => ?_⟩
  have hrounded := (hnear b hb).1
  have hnum : x * 2 ^ (unitExp + 2) = 4 * (x * unit) := by rw [unit_eq, pow_add]; ring
  rw [hnum] at hrounded
  have hmid : 2 * (mag + b) * y = 2 * (mag * y + b * y) := by ring
  have hle := stickyQuotient_le_iff (4 * (x * unit)) hypos (2 * (mag + b))
  have hge := le_stickyQuotient_iff (4 * (x * unit)) hypos (2 * (mag + b))
  rw [hmid] at hle hge
  rcases Nat.lt_trichotomy mag b with hlt | rfl | hgt
  · rw [abs_sub_le_abs_sub_iff_of_lt (by omega)] at hrounded
    have hscaled : mag * y < b * y := Nat.mul_lt_mul_of_pos_right hlt hypos
    rw [abs_sub_le_abs_sub_iff_of_lt (by omega)]
    omega
  · exact le_rfl
  · rw [abs_sub_le_abs_sub_iff_of_gt (by omega)] at hrounded
    have hscaled : b * y < mag * y := Nat.mul_lt_mul_of_pos_right hgt hypos
    rw [abs_sub_le_abs_sub_iff_of_gt (by omega)]
    omega

end Sys2Proof.Machine

namespace Sys2Proof.Machine

/-! ## The register map (10_state.md R50) -/

/-- R50, the other way round: where the map puts a register. Reserved storage has no offset of its own. -/
def RegName.address (r : RegName) : Option Nat :=
  match r with
  | .cmd => some 0x000
  | .status => some 0x008
  | .errInfo => some 0x010
  | .ctrl => some 0x018
  | .width => some 0x020
  | .height => some 0x028
  | .bitLen => some 0x030
  | .bidx => some 0x038
  | .nblk => some 0x040
  | .key => some 0x048
  | .stepSize => some 0x050
  | .bits => some 0x058
  | .dthLo k => some (0x100 + 16 * k.val)
  | .dthHi k => some (0x108 + 16 * k.val)
  | .blk i => some (0x200 + 8 * i.val)
  | .reserved => none

theorem address_lowRegister {n : Nat} (h : lowRegister n ≠ .reserved) : (lowRegister n).address = some n := by
  unfold lowRegister at h ⊢
  split at h
  any_goals rfl
  exact absurd rfl h

/-- The register at an aligned offset is reserved or the one the map puts there. -/
theorem address_registerAt {offset : BitVec 10} (ha : offset.toNat % 8 = 0) (h : registerAt offset ≠ .reserved) :
    (registerAt offset).address = some offset.toNat := by
  unfold registerAt at h ⊢
  split_ifs at h ⊢ with hblk hdth hlo
  · exact congrArg some (by simp only; omega)
  · exact congrArg some (by simp only; omega)
  · exact congrArg some (by simp only; omega)
  · exact address_lowRegister h

/-- The register the map puts at an offset is the one found there. -/
theorem registerAt_eq_of_address {offset : BitVec 10} {r : RegName} (h : r.address = some offset.toNat) :
    registerAt offset = r := by
  unfold registerAt
  cases r with
  | reserved => cases h
  | blk i =>
    have ho : 0x200 + 8 * i.val = offset.toNat := Option.some.inj h
    rw [dif_pos (by omega)]
    exact congrArg RegName.blk (Fin.ext (by simp only; omega))
  | dthLo k =>
    have ho : 0x100 + 16 * k.val = offset.toNat := Option.some.inj h
    rw [dif_neg (by omega), dif_pos (by omega), if_pos (by omega)]
    exact congrArg RegName.dthLo (Fin.ext (by simp only; omega))
  | dthHi k =>
    have ho : 0x108 + 16 * k.val = offset.toNat := Option.some.inj h
    rw [dif_neg (by omega), dif_pos (by omega), if_neg (by omega)]
    exact congrArg RegName.dthHi (Fin.ext (by simp only; omega))
  | _ =>
    have ho := Option.some.inj h
    rw [dif_neg (by omega), dif_neg (by omega), ← ho]
    rfl

/-- Between the registers of R31 to R42 and the DTH window, and between that window and BLK, all is reserved. -/
theorem registerAt_reserved {offset : BitVec 10} (ha : offset.toNat % 8 = 0)
    (h : (0x060 ≤ offset.toNat ∧ offset.toNat < 0x100) ∨ (0x1C0 ≤ offset.toNat ∧ offset.toNat < 0x200)) :
    registerAt offset = .reserved := by
  by_contra hr
  have haddr := address_registerAt ha hr
  cases hreg : registerAt offset with
  | reserved => exact hr hreg
  | _ =>
    rw [hreg] at haddr
    have ho := Option.some.inj haddr
    omega

/-- The registers a write never changes (R33, R43, R46, R47, R49): the read-only ones and reserved storage. -/
def RegName.readOnly (r : RegName) : Bool :=
  match r with
  | .status | .errInfo | .nblk | .dthLo _ | .dthHi _ | .reserved => true
  | .cmd | .ctrl | .width | .height | .bitLen | .bidx | .key | .stepSize | .bits | .blk _ => false

/-- R50: from 0x060 up to BLK there is nothing a write changes. -/
theorem registerAt_readOnly_of_lt_blk {offset : BitVec 10} (ha : offset.toNat % 8 = 0) (hlo : 0x060 ≤ offset.toNat)
    (hhi : offset.toNat < 0x200) : (registerAt offset).readOnly = true := by
  by_cases hr : registerAt offset = .reserved
  · rw [hr]; rfl
  · have haddr := address_registerAt ha hr
    cases hreg : registerAt offset with
    | status | errInfo | nblk | dthLo | dthHi | reserved => rfl
    | cmd | ctrl | width | height | bitLen | bidx | key | stepSize | bits | blk =>
      rw [hreg] at haddr
      have ho := Option.some.inj haddr
      omega

/-! ## Register accesses (10_state.md R49, 60_exceptions.md R241) -/

section RegisterAccess
variable {s : State} {rest : List HostAction} {offset : BitVec 10} {v : Word}

theorem registerAccessOK_dword (ha : offset.toNat % 8 = 0) : registerAccessOK .dword offset = true := by
  simp [registerAccessOK, ha]

theorem registerAccessOK_odd {width : AccessWidth} (h : width ≠ .dword ∨ offset.toNat % 8 ≠ 0) :
    registerAccessOK width offset = false := by
  simpa [registerAccessOK, imp_iff_not_or] using h

theorem step_writeReg (ha : offset.toNat % 8 = 0) (hin : s.inputs = .writeReg .dword offset v :: rest) :
    step s = hostWrite (registerAt offset) v (s.setInputs rest) := by
  rw [step_of_inputs_cons hin, perform, if_pos (registerAccessOK_dword ha)]

theorem step_readReg (ha : offset.toNat % 8 = 0) (hin : s.inputs = .readReg .dword offset :: rest) :
    step s = .next (hostRead (registerAt offset) (s.setInputs rest)) := by
  rw [step_of_inputs_cons hin, perform, if_pos (registerAccessOK_dword ha)]

/-- In READY a write to a register other than CMD is what `writeRegister` says. -/
theorem step_writeReg_ready {r : RegName} (hf : s.fault = false) (hr : r ≠ .cmd) (ha : offset.toNat % 8 = 0)
    (hreg : registerAt offset = r) (hin : s.inputs = .writeReg .dword offset v :: rest) :
    step s = .next (writeRegister r v (s.setInputs rest)) := by
  rw [step_writeReg ha hin, hreg, hostWrite_of_ne_cmd hr, if_neg (by simp [hf])]

theorem writeRegister_readOnly {r : RegName} (hr : r.readOnly = true) (v : Word) (s : State) :
    writeRegister r v s = s := by
  cases r with
  | status | errInfo | nblk | dthLo | dthHi | reserved => rfl
  | cmd | ctrl | width | height | bitLen | bidx | key | stepSize | bits | blk => cases hr

/-- A write to read-only or reserved storage is ignored, in both states. -/
theorem step_writeReg_readOnly (ha : offset.toNat % 8 = 0) (hr : (registerAt offset).readOnly = true)
    (hin : s.inputs = .writeReg .dword offset v :: rest) : step s = .next (s.setInputs rest) := by
  have hcmd : registerAt offset ≠ .cmd := fun h => by rw [h] at hr; cases hr
  rw [step_writeReg ha hin, hostWrite_of_ne_cmd hcmd, writeRegister_readOnly hr, ite_self]

/-- What a register reads as does not depend on the host's pending actions. -/
theorem registerValue_setInputs (r : RegName) (s : State) (l : List HostAction) :
    registerValue r (s.setInputs l) = registerValue r s := by
  cases r <;> rfl

end RegisterAccess

/-! ## What the registers read as (10_state.md R46, R49, R50) -/

/-- The low four bits of the STATUS view. -/
theorem status_flagBits (s : State) : s.status.extractLsb' 0 4 =
    BitVec.ofBool s.bv ++ (BitVec.ofBool s.gv ++ (BitVec.ofBool s.dv ++ BitVec.ofBool s.fault)) := by
  rw [State.status, BitVec.extractLsb'_append_eq_of_add_le (by decide),
    BitVec.extractLsb'_append_eq_of_add_le (by decide), BitVec.extractLsb'_append_eq_right]

/-- The bits of four flags put together, the last one lowest. -/
theorem getLsbD_flags (a b c d : Bool) {w : Word}
    (h : w.extractLsb' 0 4 = BitVec.ofBool a ++ (BitVec.ofBool b ++ (BitVec.ofBool c ++ BitVec.ofBool d))) :
    w.getLsbD 0 = d ∧ w.getLsbD 1 = c ∧ w.getLsbD 2 = b ∧ w.getLsbD 3 = a := by
  have hbit : ∀ k < 4, w.getLsbD k = (w.extractLsb' 0 4).getLsbD k := fun k hk => by
    rw [BitVec.getLsbD_extractLsb', Nat.zero_add, decide_eq_true hk, Bool.true_and]
  rw [hbit 0 (by decide), hbit 1 (by decide), hbit 2 (by decide), hbit 3 (by decide), h]
  clear h hbit
  decide +revert

theorem status_reserved_low (s : State) : s.status.extractLsb' 4 4 = 0 := by
  rw [State.status, BitVec.extractLsb'_append_eq_of_add_le (by decide),
    BitVec.extractLsb'_append_eq_of_add_le (by decide), BitVec.extractLsb'_append_eq_left]
  rfl

theorem status_err (s : State) : s.status.extractLsb' 8 8 = s.err := by
  rw [State.status, BitVec.extractLsb'_append_eq_of_add_le (by decide), BitVec.extractLsb'_append_eq_left]

theorem status_reserved_high (s : State) : s.status.extractLsb' 16 48 = 0 := by
  rw [State.status, BitVec.extractLsb'_append_eq_left]
  rfl

/-- R46: the STATUS bits. -/
theorem status_fields (s : State) :
    s.status.getLsbD 0 = s.fault ∧ s.status.getLsbD 1 = s.dv ∧ s.status.getLsbD 2 = s.gv ∧
      (s.status.getLsbD 3 = true ↔ ∀ i : Fin 64, s.blkv[i] = true) ∧ s.status.extractLsb' 4 4 = 0 ∧
      s.status.extractLsb' 8 8 = s.err ∧ s.status.extractLsb' 16 48 = 0 := by
  obtain ⟨hfault, hdv, hgv, hbv⟩ := getLsbD_flags _ _ _ _ (status_flagBits s)
  refine ⟨hfault, hdv, hgv, ?_, status_reserved_low s, status_err s, status_reserved_high s⟩
  rw [hbv, bv_iff]

/-- R17: a float read answers the value held, and the very pattern unless that is a NaN's. -/
theorem readFloat_value (any w : Word) :
    unpack (readFloat any w) = unpack w ∧ (isNaN (unpack (readFloat any w)) = false → readFloat any w = w) := by
  unfold readFloat
  split_ifs with hnan
  · rw [unpack_nanPattern]
    refine ⟨?_, fun h => nomatch h⟩
    cases hw : unpack w with
    | nan => rfl
    | inf neg => rw [hw] at hnan; cases hnan
    | fin neg mag => rw [hw] at hnan; cases hnan
  · exact ⟨rfl, fun _ => rfl⟩

section RegisterValue
variable {s : State}

/-- R36: CTRL shows IE in bit 0 and nothing else. -/
theorem registerValue_ctrl (s : State) : (registerValue .ctrl s).getLsbD 0 = s.ie ∧
    (registerValue .ctrl s).extractLsb' 1 63 = 0 := by
  rw [registerValue]
  cases s.ie <;> decide

/-- R41, R42: BITS is twelve bits, and what it holds shows while GV = 1. -/
theorem registerValue_bits (s : State) : (registerValue .bits s).extractLsb' 12 52 = 0 ∧
    (s.gv = true → (registerValue .bits s).extractLsb' 0 12 = s.bits) := by
  rw [registerValue]
  refine ⟨?_, fun hgv => ?_⟩
  · ext k hk
    simp
  · rw [if_pos hgv, ← BitVec.setWidth_eq_extractLsb' (by decide), BitVec.setWidth_setWidth_of_le _ (by decide),
      BitVec.setWidth_eq]

/-- R43, R44: a dither member shows while DV = 1. -/
theorem registerValue_dthLo (hdv : s.dv = true) (k : Fin 12) :
    registerValue (.dthLo k) s = readFloat (Config.freeWord s.freeCtr) s.dth[k].lo := by
  rw [registerValue, if_pos hdv]

theorem registerValue_dthHi (hdv : s.dv = true) (k : Fin 12) :
    registerValue (.dthHi k) s = readFloat (Config.freeWord s.freeCtr) s.dth[k].hi := by
  rw [registerValue, if_pos hdv]

/-- R39, R40: an element of BLK shows while its valid bit is set. -/
theorem registerValue_blk {i : Fin 64} (hv : s.blkv[i] = true) :
    registerValue (.blk i) s = readFloat (Config.freeWord s.freeCtr) s.blk[i] := by
  rw [registerValue, if_pos hv]

/-- R33: NBLK's factors have 13 bits each. -/
theorem nblk_le (s : State) : s.nblk ≤ 67092481 := by
  have hw := s.width.isLt
  have hh := s.height.isLt
  calc s.nblk ≤ 8191 * 8191 := Nat.mul_le_mul (by omega) (by omega)
    _ = 67092481 := by norm_num

theorem registerValue_nblk_toNat (s : State) : (registerValue .nblk s).toNat = s.nblk := by
  have := nblk_le s
  rw [registerValue, BitVec.toNat_ofNat, Nat.mod_eq_of_lt (by omega)]

end RegisterValue

/-! ## The register interface, stated whole -/

/-- Settles O17: the map names the register at the offset, and `writeRegister` is a named update of it. -/
theorem registerWritesFollowTheMap : Obligations.RegisterWritesFollowTheMap := by
  intro s rest v hf
  have hlow : ∀ n ≤ 64, v.extractLsb' 0 n = v.setWidth n := fun n hn => (BitVec.setWidth_eq_extractLsb' hn).symm
  rw [hlow 16 (by decide), hlow 32 (by decide), hlow 12 (by decide)]
  refine ⟨?ctrl, ?width, ?height, ?bitLen, ?bidx, ?bits, ?blk, ?ignored⟩
  case ctrl => exact step_writeReg_ready (r := .ctrl) hf (by decide) (by decide) rfl
  case width => exact step_writeReg_ready (r := .width) hf (by decide) (by decide) rfl
  case height => exact step_writeReg_ready (r := .height) hf (by decide) (by decide) rfl
  case bitLen => exact step_writeReg_ready (r := .bitLen) hf (by decide) (by decide) rfl
  case bidx => exact step_writeReg_ready (r := .bidx) hf (by decide) (by decide) rfl
  case bits => exact step_writeReg_ready (r := .bits) hf (by decide) (by decide) rfl
  case blk =>
    intro i
    have hoff : (BitVec.ofNat 10 (0x200 + 8 * i.val)).toNat = 0x200 + 8 * i.val := by
      rw [BitVec.toNat_ofNat]
      omega
    exact step_writeReg_ready (r := .blk i) hf nofun (by omega) (registerAt_eq_of_address (congrArg some hoff.symm))
  case ignored =>
    rintro offset (rfl | rfl | rfl | ⟨ha, hlo, hhi⟩)
    · exact step_writeReg_readOnly (by decide) rfl
    · exact step_writeReg_readOnly (by decide) rfl
    · exact step_writeReg_readOnly (by decide) rfl
    · exact step_writeReg_readOnly ha (registerAt_readOnly_of_lt_blk ha hlo hhi)

/-- Settles O18: the answer is `registerValue` of the register the map names, and that is read off register by
register. -/
theorem registerReadsFollowTheMap : Obligations.RegisterReadsFollowTheMap := by
  intro s rest offset ha hin
  have hstep := step_readReg ha hin
  rw [hostRead, registerValue_setInputs] at hstep
  refine ⟨registerValue (registerAt offset) s, hstep, ?cmd, ?status, ?errInfo, ?ctrl, ?width, ?height, ?bitLen, ?bidx,
    ?nblk, ?key, ?stepSize, ?bits, ?reservedLow, ?dthLo, ?dthHi, ?reservedHigh, ?blk⟩
  case cmd => rintro rfl; rfl
  case status => rintro rfl; exact status_fields s
  case errInfo => rintro rfl; rfl
  case ctrl => rintro rfl; exact registerValue_ctrl s
  case width => rintro rfl; exact BitVec.toNat_setWidth_of_le (by decide)
  case height => rintro rfl; exact BitVec.toNat_setWidth_of_le (by decide)
  case bitLen => rintro rfl; exact BitVec.toNat_setWidth_of_le (by decide)
  case bidx => rintro rfl; exact BitVec.toNat_setWidth_of_le (by decide)
  case nblk => rintro rfl; exact registerValue_nblk_toNat s
  case key => rintro rfl; rfl
  case stepSize => rintro rfl; rfl
  case bits => rintro rfl; exact registerValue_bits s
  case reservedLow => intro hlo hhi; rw [registerAt_reserved ha (.inl ⟨hlo, hhi⟩)]; rfl
  case reservedHigh => intro hlo hhi; rw [registerAt_reserved ha (.inr ⟨hlo, hhi⟩)]; rfl
  case dthLo =>
    intro k hoff hdv
    rw [registerAt_eq_of_address (r := .dthLo k) (congrArg some hoff.symm), registerValue_dthLo hdv]
    exact readFloat_value _ _
  case dthHi =>
    intro k hoff hdv
    rw [registerAt_eq_of_address (r := .dthHi k) (congrArg some hoff.symm), registerValue_dthHi hdv]
    exact readFloat_value _ _
  case blk =>
    intro i hoff hv
    rw [registerAt_eq_of_address (r := .blk i) (congrArg some hoff.symm), registerValue_blk hv]
    exact readFloat_value _ _

/-- Settles O16: the updates of KEY and STEP keep DTH and clear DV. -/
theorem writingKeyOrStepClearsDV : Obligations.WritingKeyOrStepClearsDV := by
  intro s rest v hf
  exact ⟨fun hin => ⟨s.dth, step_writeReg_ready (r := .key) hf (by decide) (by decide) rfl hin⟩,
    fun hin => ⟨s.dth, step_writeReg_ready (r := .stepSize) hf (by decide) (by decide) rfl hin⟩⟩

/-- Settles O19. -/
theorem blockCountIsAView : Obligations.BlockCountIsAView :=
  ⟨fun s => ⟨rfl, nblk_le s, by norm_num⟩, fun _ => rfl, fun _ _ _ => step_writeReg_readOnly (by decide) rfl, rfl⟩

/-- Settles O20: the width and the alignment are tested before anything else. -/
theorem oddRegisterAccessIsRefused : Obligations.OddRegisterAccessIsRefused := by
  intro s rest width offset v hodd
  have hbad : ¬ registerAccessOK width offset = true := by simp [registerAccessOK_odd hodd]
  refine ⟨fun hin => ?_, fun hin => ?_⟩ <;> rw [step_of_inputs_cons hin, perform, if_neg hbad]

/-! ## Host accesses to the memories (10_state.md R51, 20_memory.md R80) -/

section MemoryAccess
variable {s : State} {rest : List HostAction} {a : Nat}

theorem step_writePlane {v : Byte} (hin : s.inputs = .writePlane a v :: rest) :
    step s = if a < s.planeCells then .next ((s.setInputs rest).writePlane a v) else .fault (.planeAddress a) := by
  rw [step_of_inputs_cons hin]; rfl

theorem step_readPlane (hin : s.inputs = .readPlane a :: rest) :
    step s = if a < s.planeCells then .next ((s.setInputs rest).setHostData ((readPlane s a).setWidth 64))
      else .fault (.planeAddress a) := by
  rw [step_of_inputs_cons hin]; rfl

theorem step_writeBit {v : Bool} (hin : s.inputs = .writeBit a v :: rest) :
    step s = if a < s.bitCells then .next ((s.setInputs rest).writeBit a v) else .fault (.bitAddress a) := by
  rw [step_of_inputs_cons hin]; rfl

theorem step_readBit (hin : s.inputs = .readBit a :: rest) :
    step s = if a < s.bitCells then
        .next ((s.setInputs rest).setHostData ((BitVec.ofBool (readBit s a)).setWidth 64))
      else .fault (.bitAddress a) := by
  rw [step_of_inputs_cons hin]; rfl

end MemoryAccess

/-- Settles O21: an access is of a cell that exists or a fault, and a write is seen at its own cell alone. -/
theorem hostMemoryAccessIsOneCell : Obligations.HostMemoryAccessIsOneCell := by
  intro s rest a
  refine ⟨fun v hin => ?writePlane, fun v hin => ?writeBit, fun hin => ?readPlane, fun hin => ?readBit⟩
  case writePlane =>
    rw [step_writePlane hin]
    refine ⟨fun hlt => ⟨_, if_pos hlt, readPlane_writePlane_same _ a v, fun b hb => ?_, rfl⟩,
      fun hge => if_neg hge.not_gt⟩
    exact readPlane_writePlane_other (s.setInputs rest) v hb
  case writeBit =>
    rw [step_writeBit hin]
    refine ⟨fun hlt => ⟨_, if_pos hlt, readBit_writeBit_same _ a v, fun b hb => ?_, rfl⟩,
      fun hge => if_neg hge.not_gt⟩
    exact readBit_writeBit_other (s.setInputs rest) v hb
  case readPlane =>
    rw [step_readPlane hin]
    exact ⟨fun hlt => if_pos hlt, fun hge => if_neg hge.not_gt⟩
  case readBit =>
    rw [step_readBit hin]
    exact ⟨fun hlt => if_pos hlt, fun hge => if_neg hge.not_gt⟩

/-! ## Reset (10_state.md R54, 70_reset_and_hazards.md R255) -/

/-- With no error recorded and no valid flag set STATUS reads 0. -/
theorem status_eq_zero {s : State} (hfault : s.fault = false) (herr : s.err = 0) (hdv : s.dv = false)
    (hgv : s.gv = false) (hbv : s.bv = false) : s.status = 0 := by
  rw [State.status, hfault, herr, hdv, hgv, hbv]
  rfl

/-- Settles O56: the memories are empty, nothing is recorded and no table is claimed. -/
theorem resetIsWellKept : Obligations.ResetIsWellKept := by
  obtain ⟨hplane, hbitmem⟩ := reset_memory_wf
  refine ⟨by decide, ⟨hplane, hbitmem, fun c hc => ?_, fun c hc => ?_⟩, ⟨fun _ => ⟨rfl, rfl⟩, fun hf => ?_⟩,
    fun hdv => ?_⟩
  · cases hc
  · cases hc
  · cases hf
  · cases hdv

theorem blkv_replicate_false {s : State} (h : s.blkv = Vector.replicate 64 false) :
    (∀ i : Fin 64, s.blkv[i] = false) ∧ s.bv = false := by
  have hblkv : ∀ i : Fin 64, s.blkv[i] = false := fun i => by simp [h]
  refine ⟨hblkv, Bool.eq_false_iff.mpr fun hbv => ?_⟩
  exact absurd ((bv_iff s).mp hbv 0) (by simp [hblkv 0])

theorem reset_engineAtReset : EngineAtReset State.reset := by
  obtain ⟨hblkv, hbv⟩ := blkv_replicate_false (s := State.reset) rfl
  exact ⟨rfl, rfl, rfl, rfl, rfl, rfl, rfl, rfl, rfl, rfl, rfl, rfl, hblkv, rfl, status_eq_zero rfl rfl rfl rfl hbv⟩

theorem resetEngine_engineAtReset (s : State) : EngineAtReset (resetEngine s) := by
  obtain ⟨hblkv, hbv⟩ := blkv_replicate_false (resetEngine_blkv s)
  have hnblk : (resetEngine s).nblk = 0 := by
    rw [State.nblk, resetEngine_width, resetEngine_height]
    rfl
  exact ⟨rfl, rfl, rfl, rfl, rfl, rfl, rfl, rfl, rfl, rfl, rfl, rfl, hblkv, hnblk, status_eq_zero rfl rfl rfl rfl hbv⟩

/-- Settles O15: SRST and the reset line are both `resetEngine`. -/
theorem resetGivesTheListedValues : Obligations.ResetGivesTheListedValues := by
  refine ⟨reset_engineAtReset, fun s => ⟨resetEngine s, exec_srst s, resetEngine_engineAtReset s,
    readPlane_congr (resetEngine_plane s), readBit_congr (resetEngine_bitmem s), ⟨rfl, rfl⟩, resetEngine_cfg s⟩,
    fun s rest hin => ?_⟩
  rw [step_of_inputs_cons hin, exec_srst, perform]

/-! ## The valid flags (10_state.md R40, R42, R44, R45) -/

/-- Every valid flag set in `s` is set in `t`. -/
structure KeepsValid (s t : State) : Prop where
  blkv : ∀ i : Fin 64, s.blkv[i] = true → t.blkv[i] = true
  gv : s.gv = true → t.gv = true
  dv : s.dv = true → t.dv = true

section ValidFlags
variable {s t : State}

theorem KeepsValid.refl (s : State) : KeepsValid s s where
  blkv _ h := h
  gv h := h
  dv h := h

/-- An update that leaves the flags as they are. -/
theorem KeepsValid.of_same {u : State} (h : KeepsValid s t) (hblkv : u.blkv = t.blkv) (hgv : u.gv = t.gv)
    (hdv : u.dv = t.dv) : KeepsValid s u where
  blkv i hi := by rw [hblkv]; exact h.blkv i hi
  gv hi := by rw [hgv]; exact h.gv hi
  dv hi := by rw [hdv]; exact h.dv hi

theorem KeepsValid.setBidx (h : KeepsValid s t) (v : BitVec 32) : KeepsValid s (t.setBidx v) := h.of_same rfl rfl rfl
theorem KeepsValid.advance (h : KeepsValid s t) : KeepsValid s t.advance := h.of_same rfl rfl rfl
theorem KeepsValid.raise (h : KeepsValid s t) (e : CommandError) (w : Word) : KeepsValid s (raise e w t) :=
  h.of_same rfl rfl rfl

/-- R40: a written element is valid, and the others are as before. -/
theorem KeepsValid.setBlkElement (h : KeepsValid s t) (i : Fin 64) (v : Word) : KeepsValid s (t.setBlkElement i v) where
  blkv j hj := by
    rw [State.setBlkElement_blkv, Fin.getElem_fin, Vector.getElem_set]
    split_ifs
    · rfl
    · exact h.blkv j hj
  gv := h.gv
  dv := h.dv

/-- R40: loading the whole block validates every element. -/
theorem KeepsValid.loadBlk (h : KeepsValid s t) (b : Vector Word 64) : KeepsValid s (t.loadBlk b) where
  blkv i _ := by simp
  gv := h.gv
  dv := h.dv

theorem KeepsValid.setBits (h : KeepsValid s t) (v : BitVec 12) : KeepsValid s (t.setBits v) where
  blkv := h.blkv
  gv _ := rfl
  dv := h.dv

theorem KeepsValid.setDither (h : KeepsValid s t) (d : Vector DitherPair 12) : KeepsValid s (t.setDither d) where
  blkv := h.blkv
  gv := h.gv
  dv _ := rfl

/-! ### Commands other than SRST -/

theorem KeepsValid.bldBody (h : KeepsValid s t) : KeepsValid s (bldBody t) := h.loadBlk _
theorem KeepsValid.bstBody (h : KeepsValid s t) : KeepsValid s (bstBody t) := h.of_same rfl rfl rfl
theorem KeepsValid.bitldBody (h : KeepsValid s t) : KeepsValid s (bitldBody t) := h.setBits _
theorem KeepsValid.bitstBody (h : KeepsValid s t) : KeepsValid s (bitstBody t) := h.of_same rfl rfl rfl
theorem KeepsValid.fdctBody (h : KeepsValid s t) : KeepsValid s (fdctBody t) := h.of_same rfl rfl rfl
theorem KeepsValid.idctBody (h : KeepsValid s t) : KeepsValid s (idctBody t) := h.of_same rfl rfl rfl
theorem KeepsValid.dgenBody (h : KeepsValid s t) : KeepsValid s (dgenBody t) := h.setDither _
theorem KeepsValid.qembBody (h : KeepsValid s t) : KeepsValid s (qembBody t) := h.of_same rfl rfl rfl
theorem KeepsValid.qextBody (h : KeepsValid s t) : KeepsValid s (qextBody t) := h.setBits _

theorem KeepsValid.embblkBody (h : KeepsValid s t) : KeepsValid s (embblkBody t) :=
  h.bldBody.fdctBody.bitldBody.qembBody.idctBody.bstBody.advance

theorem KeepsValid.extblkBody (h : KeepsValid s t) : KeepsValid s (extblkBody t) :=
  h.bldBody.fdctBody.qextBody.bitstBody.advance

/-- R197, R198: a loop over all blocks keeps the flags if its body does. -/
theorem KeepsValid.allBlocks {body : State → State} (hbody : ∀ u, KeepsValid s u → KeepsValid s (body u))
    (h : KeepsValid s t) : KeepsValid s (allBlocks body t) :=
  whileBlocks_induction (fun u hu _ => hbody u hu) t.nblk (h.dgenBody.setBidx 0)

theorem keepsValid_effectOf {i : Instr} (hi : i ≠ .srst) (s : State) : KeepsValid s (effectOf i s) := by
  have h := KeepsValid.refl s
  cases i with
  | nop | check => exact h
  | seek imm => exact h.setBidx _
  | next => exact h.advance
  | srst => exact absurd rfl hi
  | bld => exact h.bldBody
  | bst => exact h.bstBody
  | bitld => exact h.bitldBody
  | bitst => exact h.bitstBody
  | fdct => exact h.fdctBody
  | idct => exact h.idctBody
  | dgen => exact h.dgenBody
  | qemb => exact h.qembBody
  | qext => exact h.qextBody
  | embblk => exact h.embblkBody
  | extblk => exact h.extblkBody
  | emball => exact h.allBlocks fun _ => KeepsValid.embblkBody
  | extall => exact h.allBlocks fun _ => KeepsValid.extblkBody

theorem keepsValid_exec {i : Instr} (hi : i ≠ .srst) (he : exec i s = .next t) : KeepsValid s t := by
  rcases exec_next_cases hi he with ⟨-, rfl⟩ | ⟨-, e, rfl⟩ | ⟨-, rfl⟩
  · exact .refl _
  · exact (KeepsValid.refl s).raise e _
  · exact keepsValid_effectOf hi s

/-! ### The command port -/

theorem formatNCommand_eq_srst {op : BitVec 8} (h : formatNCommand op = .ok .srst) : op = 0x0F#8 := by
  unfold formatNCommand at h
  split at h <;> cases h
  rfl

/-- R104, R214: SRST has one word. -/
theorem eq_srstWord_of_decode {w : Word} (h : decode w = .ok .srst) : w = srstWord := by
  unfold decode at h
  split_ifs at h with hhigh hseek hmid
  · cases h
  have hlow := congrArg BitVec.toNat (formatNCommand_eq_srst h)
  have hhigh := congrArg BitVec.toNat (not_not.mp hhigh)
  have hmid := congrArg BitVec.toNat (not_not.mp hmid)
  apply BitVec.eq_of_toNat_eq
  simp only [opField, midField, highField, BitVec.extractLsb'_toNat, Nat.shiftRight_eq_div_pow, srstWord,
    BitVec.toNat_ofNat, BitVec.ofNat_eq_ofNat] at hlow hhigh hmid ⊢
  omega

theorem keepsValid_issue {w : Word} (hw : w ≠ srstWord) (h : issue w s = .next t) : KeepsValid s t := by
  unfold issue at h
  split at h
  · cases h
    exact .refl s
  · split at h
    next i hi =>
      refine keepsValid_exec ?_ h
      rintro rfl
      exact hw (eq_srstWord_of_decode hi)
    next =>
      cases h
      exact (KeepsValid.refl s).raise _ _

/-! ### Host actions -/

/-- The offset at which a register is found is the one the map gives it. -/
theorem offset_eq_of_registerAt {offset o : BitVec 10} {r : RegName} (ha : offset.toNat % 8 = 0)
    (hreg : registerAt offset = r) (hr : r.address = some o.toNat) : offset = o := by
  subst hreg
  have hres : registerAt offset ≠ .reserved := fun h => by rw [h] at hr; cases hr
  rw [address_registerAt ha hres] at hr
  exact BitVec.eq_of_toNat_eq (Option.some.inj hr)

theorem keepsValid_writeRegister {r : RegName} (hkey : r ≠ .key) (hstep : r ≠ .stepSize) (v : Word) (s : State) :
    KeepsValid s (writeRegister r v s) := by
  have h := KeepsValid.refl s
  cases r with
  | key => exact absurd rfl hkey
  | stepSize => exact absurd rfl hstep
  | bits => exact h.setBits _
  | blk i => exact h.setBlkElement i v
  | cmd | status | errInfo | nblk | dthLo | dthHi | reserved => exact h
  | ctrl | width | height | bitLen | bidx => exact h.of_same rfl rfl rfl

/-- The action resets the engine: the reset line, or the word of SRST (R255). -/
def HostAction.isReset (a : HostAction) : Prop := a = .resetLine ∨ a = .writeReg .dword 0x000#10 srstWord

/-- The action is a register write to KEY or to STEP (R45). -/
def HostAction.invalidatesDither (a : HostAction) : Prop :=
  ∃ v, a = .writeReg .dword 0x048#10 v ∨ a = .writeReg .dword 0x050#10 v

/-- R45: a register write that is no reset keeps the flags, but for DV where it is to KEY or STEP in READY. -/
theorem perform_writeReg_flags {width : AccessWidth} {offset : BitVec 10} {v : Word}
    (hreset : ¬ (HostAction.writeReg width offset v).isReset)
    (h : perform (.writeReg width offset v) s = .next t) :
    KeepsValid s t ∨ (s.fault = false ∧ (HostAction.writeReg width offset v).invalidatesDither ∧
      t.blkv = s.blkv ∧ t.gv = s.gv) := by
  simp only [perform] at h
  split at h
  next hok =>
    simp only [registerAccessOK, Bool.and_eq_true, decide_eq_true_eq] at hok
    obtain ⟨rfl, ha⟩ := hok
    by_cases hcmd : registerAt offset = .cmd
    · rw [hcmd, hostWrite_cmd] at h
      refine .inl (keepsValid_issue ?_ h)
      rintro rfl
      exact hreset (.inr (by rw [offset_eq_of_registerAt (o := 0x000#10) ha hcmd rfl]))
    · rw [hostWrite_of_ne_cmd hcmd] at h
      split at h <;> cases h
      · exact .inl (.refl s)
      next hf =>
        have hready : s.fault = false := by simpa using hf
        by_cases hkey : registerAt offset = .key
        · rw [hkey, offset_eq_of_registerAt (o := 0x048#10) ha hkey rfl]
          exact .inr ⟨hready, ⟨v, .inl rfl⟩, rfl, rfl⟩
        · by_cases hstep : registerAt offset = .stepSize
          · rw [hstep, offset_eq_of_registerAt (o := 0x050#10) ha hstep rfl]
            exact .inr ⟨hready, ⟨v, .inr rfl⟩, rfl, rfl⟩
          · exact .inl (keepsValid_writeRegister hkey hstep v s)
  next => cases h

/-- The same of every action that is no reset: no other action writes a flag. -/
theorem perform_flags {a : HostAction} (hreset : ¬ a.isReset) (h : perform a s = .next t) :
    KeepsValid s t ∨ (s.fault = false ∧ a.invalidatesDither ∧ t.blkv = s.blkv ∧ t.gv = s.gv) := by
  cases a with
  | writeReg width offset v => exact perform_writeReg_flags hreset h
  | resetLine => exact absurd (.inl rfl) hreset
  | readReg | writePlane | readPlane | writeBit | readBit =>
    simp only [perform] at h
    split at h <;> cases h
    exact .inl ((KeepsValid.refl s).of_same rfl rfl rfl)

end ValidFlags

/-- Settles O54: a step is one host action, and an action that is no reset keeps every flag or is a write to KEY or
STEP. -/
theorem validFlagsAreClearedOnlyByResetOrInvalidation : Obligations.ValidFlagsAreClearedOnlyByResetOrInvalidation := by
  intro s t hstep
  cases hin : s.inputs with
  | nil =>
    rw [step_of_inputs_nil hin] at hstep
    cases hstep
    exact .inr ⟨fun _ h => h, fun h => h, .inl⟩
  | cons a rest =>
    rw [step_of_inputs_cons hin] at hstep
    by_cases hreset : a.isReset
    · exact .inl ⟨rest, hreset.imp (by rintro rfl; rfl) (by rintro rfl; rfl)⟩
    · right
      rcases perform_flags hreset hstep with ⟨hblkv, hgv, hdv⟩ | ⟨hf, ⟨v, ha⟩, hblkv, hgv⟩
      · exact ⟨hblkv, hgv, fun h => .inl (hdv h)⟩
      · refine ⟨fun i hi => by rw [hblkv]; exact hi, fun h => hgv.trans h, fun _ => .inr ⟨hf, v, rest, ?_⟩⟩
        exact ha.imp (by rintro rfl; rfl) (by rintro rfl; rfl)

end Sys2Proof.Machine

namespace Sys2Proof.Machine

/-! ## What each command writes (46_control.md R217) -/

/-- A field of the state other than the fault record (R232) and the model's own counter of free values. -/
inductive StateField where
  | width | height | bitLen | key | stepSize | ie | cfg
  | bidx | blk | blkv | bits | gv | dth | dv | plane | bitmem
  | inputs | hostData
deriving DecidableEq

/-- The field holds the same in both states. -/
def StateField.Same (f : StateField) (s t : State) : Prop :=
  match f with
  | .width => t.width = s.width
  | .height => t.height = s.height
  | .bitLen => t.bitLen = s.bitLen
  | .key => t.key = s.key
  | .stepSize => t.stepSize = s.stepSize
  | .ie => t.ie = s.ie
  | .cfg => t.cfg = s.cfg
  | .bidx => t.bidx = s.bidx
  | .blk => t.blk = s.blk
  | .blkv => t.blkv = s.blkv
  | .bits => t.bits = s.bits
  | .gv => t.gv = s.gv
  | .dth => t.dth = s.dth
  | .dv => t.dv = s.dv
  | .plane => t.plane = s.plane
  | .bitmem => t.bitmem = s.bitmem
  | .inputs => t.inputs = s.inputs
  | .hostData => t.hostData = s.hostData

/-- From `s` to `t` at most the fields of `l` are written. -/
def OnlyWrites (l : List StateField) (s t : State) : Prop := ∀ f ∉ l, f.Same s t

/-- R217, the column "sets"; for SRST the rows of R54. -/
def writtenFields (i : Instr) : List StateField :=
  match i with
  | .nop | .check => []
  | .seek _ | .next => [.bidx]
  | .srst => [.width, .height, .bitLen, .key, .stepSize, .ie, .bidx, .blk, .blkv, .bits, .gv, .dth, .dv]
  | .bld => [.blk, .blkv]
  | .bst => [.plane]
  | .bitld | .qext => [.bits, .gv]
  | .bitst => [.bitmem]
  | .fdct | .idct | .qemb => [.blk]
  | .dgen => [.dth, .dv]
  | .embblk => [.plane, .blk, .blkv, .bits, .gv, .bidx]
  | .extblk => [.bitmem, .blk, .blkv, .bits, .gv, .bidx]
  | .emball => [.plane, .dth, .dv, .blk, .blkv, .bits, .gv, .bidx]
  | .extall => [.bitmem, .dth, .dv, .blk, .blkv, .bits, .gv, .bidx]

/-- R217 read by fields: the commands that list the field, SEEK and SRST aside. -/
def writersOf (f : StateField) : List Instr :=
  match f with
  | .width | .height | .bitLen | .key | .stepSize | .ie | .cfg | .inputs | .hostData => []
  | .bidx => [.next, .embblk, .extblk, .emball, .extall]
  | .blk => [.bld, .fdct, .idct, .qemb, .embblk, .extblk, .emball, .extall]
  | .blkv => [.bld, .embblk, .extblk, .emball, .extall]
  | .bits | .gv => [.bitld, .qext, .embblk, .extblk, .emball, .extall]
  | .dth | .dv => [.dgen, .emball, .extall]
  | .plane => [.bst, .embblk, .emball]
  | .bitmem => [.bitst, .extblk, .extall]

section Writes
variable {l m : List StateField} {s t u : State}

theorem StateField.Same.refl (f : StateField) (s : State) : f.Same s s := by cases f <;> rfl

theorem StateField.Same.trans {f : StateField} (h : f.Same s t) (h' : f.Same t u) : f.Same s u := by
  cases f <;> exact Eq.trans h' h

theorem OnlyWrites.refl (l : List StateField) (s : State) : OnlyWrites l s s := fun f _ => .refl f s

/-- A further change of fields already listed. -/
theorem OnlyWrites.trans (h : OnlyWrites l s t) (h' : OnlyWrites m t u) (hsub : m ⊆ l) : OnlyWrites l s u :=
  fun f hf => (h f hf).trans (h' f fun hm => hf (hsub hm))

/-! ### The updates of the state -/

theorem setBidx_onlyWrites (s : State) (v : BitVec 32) : OnlyWrites [.bidx] s (s.setBidx v) := by
  intro f hf
  cases f with
  | bidx => simp at hf
  | _ => rfl

theorem loadBlk_onlyWrites (s : State) (b : Vector Word 64) : OnlyWrites [.blk, .blkv] s (s.loadBlk b) := by
  intro f hf
  cases f with
  | blk | blkv => simp at hf
  | _ => rfl

/-- A computed block is stored, and its NaN elements use up free values. -/
theorem storeBlk_onlyWrites (s : State) (b : Vector Word 64) (n : Nat) :
    OnlyWrites [.blk] s ((s.storeBlk b).useFree n) := by
  intro f hf
  cases f with
  | blk => simp at hf
  | _ => rfl

theorem setBits_onlyWrites (s : State) (v : BitVec 12) : OnlyWrites [.bits, .gv] s (s.setBits v) := by
  intro f hf
  cases f with
  | bits | gv => simp at hf
  | _ => rfl

theorem setDither_onlyWrites (s : State) (d : Vector DitherPair 12) : OnlyWrites [.dth, .dv] s (s.setDither d) := by
  intro f hf
  cases f with
  | dth | dv => simp at hf
  | _ => rfl

theorem setPlane_onlyWrites (s : State) (p : List Host.Cell) : OnlyWrites [.plane] s (s.setPlane p) := by
  intro f hf
  cases f with
  | plane => simp at hf
  | _ => rfl

theorem setBitmem_onlyWrites (s : State) (p : List (Nat × Bool)) : OnlyWrites [.bitmem] s (s.setBitmem p) := by
  intro f hf
  cases f with
  | bitmem => simp at hf
  | _ => rfl

/-- R232: an error writes the fault record alone. -/
theorem raise_onlyWrites (e : CommandError) (w : Word) (s : State) : OnlyWrites [] s (raise e w s) := by
  intro f _
  cases f <;> rfl

theorem resetEngine_onlyWrites (s : State) : OnlyWrites (writtenFields .srst) s (resetEngine s) := by
  intro f hf
  cases f with
  | plane | bitmem | cfg | inputs | hostData => rfl
  | _ => simp [writtenFields] at hf

/-! ### The effects of the commands -/

theorem bldBody_onlyWrites (s : State) : OnlyWrites (writtenFields .bld) s (bldBody s) := loadBlk_onlyWrites s _
theorem bstBody_onlyWrites (s : State) : OnlyWrites (writtenFields .bst) s (bstBody s) := setPlane_onlyWrites s _
theorem bitldBody_onlyWrites (s : State) : OnlyWrites (writtenFields .bitld) s (bitldBody s) := setBits_onlyWrites s _
theorem bitstBody_onlyWrites (s : State) : OnlyWrites (writtenFields .bitst) s (bitstBody s) :=
  setBitmem_onlyWrites s _
theorem fdctBody_onlyWrites (s : State) : OnlyWrites (writtenFields .fdct) s (fdctBody s) :=
  storeBlk_onlyWrites s _ _
theorem idctBody_onlyWrites (s : State) : OnlyWrites (writtenFields .idct) s (idctBody s) :=
  storeBlk_onlyWrites s _ _
theorem qembBody_onlyWrites (s : State) : OnlyWrites (writtenFields .qemb) s (qembBody s) :=
  storeBlk_onlyWrites s _ _
theorem dgenBody_onlyWrites (s : State) : OnlyWrites (writtenFields .dgen) s (dgenBody s) := setDither_onlyWrites s _
theorem qextBody_onlyWrites (s : State) : OnlyWrites (writtenFields .qext) s (qextBody s) := setBits_onlyWrites s _
theorem advance_onlyWrites (s : State) : OnlyWrites (writtenFields .next) s s.advance := setBidx_onlyWrites s _

/-- R195: each step of EMBBLK writes fields that EMBBLK lists. -/
theorem embblkBody_onlyWrites (s : State) : OnlyWrites (writtenFields .embblk) s (embblkBody s) :=
  (OnlyWrites.refl _ s).trans (bldBody_onlyWrites _) (by decide)
    |>.trans (fdctBody_onlyWrites _) (by decide)
    |>.trans (bitldBody_onlyWrites _) (by decide)
    |>.trans (qembBody_onlyWrites _) (by decide)
    |>.trans (idctBody_onlyWrites _) (by decide)
    |>.trans (bstBody_onlyWrites _) (by decide)
    |>.trans (advance_onlyWrites _) (by decide)

/-- R196: each step of EXTBLK writes fields that EXTBLK lists. -/
theorem extblkBody_onlyWrites (s : State) : OnlyWrites (writtenFields .extblk) s (extblkBody s) :=
  (OnlyWrites.refl _ s).trans (bldBody_onlyWrites _) (by decide)
    |>.trans (fdctBody_onlyWrites _) (by decide)
    |>.trans (qextBody_onlyWrites _) (by decide)
    |>.trans (bitstBody_onlyWrites _) (by decide)
    |>.trans (advance_onlyWrites _) (by decide)

/-- R197, R198: a loop over all blocks writes what DGEN, the cursor's start and its body write. -/
theorem allBlocks_onlyWrites {body : State → State} (hbody : ∀ u, OnlyWrites m u (body u))
    (hdgen : writtenFields .dgen ⊆ l) (hbidx : [.bidx] ⊆ l) (hm : m ⊆ l) (s : State) :
    OnlyWrites l s (allBlocks body s) :=
  whileBlocks_induction (fun u hu _ => hu.trans (hbody u) hm) s.nblk <|
    (OnlyWrites.refl l s).trans (dgenBody_onlyWrites s) hdgen |>.trans (setBidx_onlyWrites _ 0) hbidx

theorem effectOf_onlyWrites (i : Instr) (s : State) : OnlyWrites (writtenFields i) s (effectOf i s) := by
  cases i with
  | nop | check => exact .refl _ s
  | seek imm => exact setBidx_onlyWrites s _
  | next => exact advance_onlyWrites s
  | srst => exact resetEngine_onlyWrites s
  | bld => exact bldBody_onlyWrites s
  | bst => exact bstBody_onlyWrites s
  | bitld => exact bitldBody_onlyWrites s
  | bitst => exact bitstBody_onlyWrites s
  | fdct => exact fdctBody_onlyWrites s
  | idct => exact idctBody_onlyWrites s
  | dgen => exact dgenBody_onlyWrites s
  | qemb => exact qembBody_onlyWrites s
  | qext => exact qextBody_onlyWrites s
  | embblk => exact embblkBody_onlyWrites s
  | extblk => exact extblkBody_onlyWrites s
  | emball => exact allBlocks_onlyWrites embblkBody_onlyWrites (by decide) (by decide) (by decide) s
  | extall => exact allBlocks_onlyWrites extblkBody_onlyWrites (by decide) (by decide) (by decide) s

/-- R217: dropped, failing or completing, a command writes at most the fields its row lists. -/
theorem exec_onlyWrites {i : Instr} (h : exec i s = .next t) : OnlyWrites (writtenFields i) s t := by
  by_cases hi : i = .srst
  · subst hi
    cases h
    exact resetEngine_onlyWrites s
  · rcases exec_next_cases hi h with ⟨-, rfl⟩ | ⟨-, e, rfl⟩ | ⟨-, rfl⟩
    · exact .refl _ _
    · exact (OnlyWrites.refl _ s).trans (raise_onlyWrites e _ s) (List.nil_subset _)
    · exact effectOf_onlyWrites i s

/-! ### The same table read by fields -/

/-- The two readings of R217 agree: a command that lists a field is among the field's writers, or is SEEK, which
lists the cursor alone. -/
theorem mem_writersOf {i : Instr} {f : StateField} (hi : i ≠ .srst) (hseek : f = .bidx → ∀ imm, i ≠ .seek imm)
    (h : f ∈ writtenFields i) : i ∈ writersOf f := by
  cases i with
  | srst => exact absurd rfl hi
  | seek imm => exact absurd rfl (hseek (List.mem_singleton.mp h) imm)
  | _ => clear hseek; cases f <;> simp [writtenFields, writersOf] at h ⊢

/-- A field that a command does not write stays, whatever the command answers. -/
theorem exec_keeps {i : Instr} (hi : i ≠ .srst) (he : exec i s = .next t) {f : StateField} (hf : f ≠ .bidx)
    (hw : i ∉ writersOf f) : f.Same s t :=
  exec_onlyWrites he f fun hm => hw (mem_writersOf hi (fun hb => absurd hb hf) hm)

/-- The cursor stays, too, unless the command is SEEK or one of its writers. -/
theorem exec_keeps_bidx {i : Instr} (hi : i ≠ .srst) (he : exec i s = .next t) (hseek : ∀ imm, i ≠ .seek imm)
    (hw : i ∉ writersOf .bidx) : t.bidx = s.bidx :=
  exec_onlyWrites he .bidx fun hm => hw (mem_writersOf hi (fun _ => hseek) hm)

/-- R31 to R36: a field without a writer stays in every command but SRST. -/
theorem exec_keeps_unwritten {i : Instr} (hi : i ≠ .srst) (he : exec i s = .next t) {f : StateField}
    (hf : writersOf f = []) : f.Same s t :=
  exec_keeps hi he (by rintro rfl; cases hf) (hf ▸ List.not_mem_nil)

theorem sameConfiguration_of_exec {i : Instr} (hi : i ≠ .srst) (he : exec i s = .next t) : SameConfiguration s t :=
  have keeps {f : StateField} (hf : writersOf f = []) : f.Same s t := exec_keeps_unwritten hi he hf
  ⟨keeps (f := .width) rfl, keeps (f := .height) rfl, keeps (f := .bitLen) rfl, keeps (f := .key) rfl,
    keeps (f := .stepSize) rfl, keeps (f := .ie) rfl, keeps (f := .cfg) rfl⟩

theorem sameHost_of_exec {i : Instr} (hi : i ≠ .srst) (he : exec i s = .next t) : SameHost s t :=
  ⟨exec_keeps_unwritten hi he (f := .inputs) rfl, exec_keeps_unwritten hi he (f := .hostData) rfl⟩

end Writes

/-- Settles O53: a command writes at most the fields of its row, and the statement lists each field's writers. -/
theorem commandsWriteOnlyWhatTheyList : Obligations.CommandsWriteOnlyWhatTheyList := by
  intro i s t hi he
  have keeps (f : StateField) (hf : f ≠ .bidx) (hw : i ∉ writersOf f) : f.Same s t := exec_keeps hi he hf hw
  refine ⟨sameConfiguration_of_exec hi he, sameHost_of_exec hi he, exec_keeps_bidx hi he, ?_, ?_, ?_, ?_, ?_, ?_⟩
  · exact keeps .blk (by decide)
  · exact keeps .blkv (by decide)
  · exact fun hw => ⟨keeps .bits (by decide) hw, keeps .gv (by decide) hw⟩
  · exact fun hw => ⟨keeps .dth (by decide) hw, keeps .dv (by decide) hw⟩
  · exact fun hw => readPlane_congr (keeps .plane (by decide) hw)
  · exact fun hw => readBit_congr (keeps .bitmem (by decide) hw)

end Sys2Proof.Machine

namespace Sys2Proof.Machine

/-! ## Blocks tile the plane (20_memory.md R72, R77) -/

/-- R72 read backwards: the sample in row `y` and column `x` of the plane, as an element of its block. -/
theorem planeAddr_of_row_col {w x : Nat} (y : Nat) (hw : w % 8 = 0) (hx : x < w) :
    planeAddr w (y / 8 * (w / 8) + x / 8) (8 * (y % 8) + x % 8) = y * w + x := by
  obtain ⟨n, rfl⟩ : ∃ n, w = 8 * n := ⟨w / 8, by omega⟩
  have hn : 8 * n / 8 = n := by omega
  have hblockRow : (y / 8 * n + x / 8) / n = y / 8 := by
    rw [Nat.add_comm, Nat.add_mul_div_right _ _ (by omega), Nat.div_eq_of_lt (by omega), Nat.zero_add]
  have hblockCol : (y / 8 * n + x / 8) % n = x / 8 := by
    rw [Nat.add_comm, Nat.add_mul_mod_self_right, Nat.mod_eq_of_lt (by omega)]
  have hrow : 8 * (y / 8) + (8 * (y % 8) + x % 8) / 8 = y := by omega
  have hcol : 8 * (x / 8) + (8 * (y % 8) + x % 8) % 8 = x := by omega
  rw [hn, planeAddr_eq, hblockRow, hblockCol, hrow, hcol]

/-- A plane that has a block has a positive width. -/
theorem width_pos_of_block {w h b : Nat} (hb : b < (w / 8) * (h / 8)) : 0 < w := by
  have := Nat.pos_of_mul_pos_right (Nat.zero_lt_of_lt hb)
  omega

/-- Settles O22: in range, without repetition, and onto. -/
theorem blocksTileThePlane : Obligations.BlocksTileThePlane := by
  intro w h hw hh
  refine ⟨fun b i hb hi => planeAddr_lt hw hh hb hi, fun b i c j hb _ hi hj => ?_, fun y x _ hx => ?_⟩
  · exact planeAddr_inj hw (width_pos_of_block hb) hi hj
  · exact planeAddr_of_row_col y hw hx

end Sys2Proof.Machine


namespace Sys2Proof

/-! ## The fields of a command word (30_encoding.md R101) -/

theorem opField_toNat (w : Word) : (opField w).toNat = w.toNat % 2 ^ 8 := by
  simp [opField]

theorem midField_toNat (w : Word) : (midField w).toNat = w.toNat / 2 ^ 8 % 2 ^ 24 := by
  simp [midField, Nat.shiftRight_eq_div_pow]

theorem highField_toNat (w : Word) : (highField w).toNat = w.toNat / 2 ^ 32 := by
  have hw := w.isLt
  simp only [highField, BitVec.extractLsb'_toNat, Nat.shiftRight_eq_div_pow]
  omega

/-- Bits put side by side, as a sum: the form in which `omega` splits it again. -/
theorem toNat_append_eq_add {m n : Nat} (x : BitVec m) (y : BitVec n) :
    (x ++ y).toNat = x.toNat * 2 ^ n + y.toNat := by
  rw [BitVec.toNat_append, ← Nat.shiftLeft_add_eq_or_of_lt y.isLt, Nat.shiftLeft_eq]

theorem formatI_toNat (op : BitVec 8) (imm : BitVec 24) : (formatI op imm).toNat = imm.toNat * 2 ^ 8 + op.toNat := by
  have hword := toNat_append_eq_add 0#32 (imm ++ op)
  have hlow := toNat_append_eq_add imm op
  simp only [BitVec.toNat_ofNat, Nat.zero_mod, Nat.zero_mul, Nat.zero_add] at hword
  exact hword.trans hlow

/-- A format N word is a format I word whose operand is zero. -/
theorem formatN_eq_formatI (op : BitVec 8) : formatN op = formatI op 0 := rfl

@[simp] theorem opField_formatI (op : BitVec 8) (imm : BitVec 24) : opField (formatI op imm) = op := by
  have hop := op.isLt
  apply BitVec.eq_of_toNat_eq
  rw [opField_toNat, formatI_toNat]
  omega

@[simp] theorem midField_formatI (op : BitVec 8) (imm : BitVec 24) : midField (formatI op imm) = imm := by
  have hop := op.isLt
  have himm := imm.isLt
  apply BitVec.eq_of_toNat_eq
  rw [midField_toNat, formatI_toNat]
  omega

/-- R104: the reserved upper half is zero. -/
theorem highField_eq_zero_iff (w : Word) : highField w = 0 ↔ w.toNat < 2 ^ 32 := by
  rw [← BitVec.toNat_inj, highField_toNat, BitVec.ofNat_eq_ofNat, BitVec.toNat_zero]
  omega

@[simp] theorem highField_formatI (op : BitVec 8) (imm : BitVec 24) : highField (formatI op imm) = 0 := by
  have hop := op.isLt
  have himm := imm.isLt
  rw [highField_eq_zero_iff, formatI_toNat]
  omega

/-- A word whose upper half is zero is the format I word of its other two fields. -/
theorem formatI_fields {w : Word} (h : highField w = 0) : formatI (opField w) (midField w) = w := by
  rw [highField_eq_zero_iff] at h
  apply BitVec.eq_of_toNat_eq
  rw [formatI_toNat, opField_toNat, midField_toNat]
  omega

/-! ## Decoding undoes encoding (R102, R103, R104) -/

/-- R103: the table is the same read either way. -/
theorem encode_of_formatNCommand {op : BitVec 8} {i : Instr} (h : formatNCommand op = .ok i) :
    WellFormed i ∧ encode i = formatN op := by
  unfold formatNCommand at h
  split at h <;> cases h <;> exact ⟨rfl, rfl⟩

theorem decode_formatI_seek (imm : BitVec 24) : decode (formatI 0x02#8 imm) = .ok (.seek imm.toNat) := by
  simp [decode]

theorem decode_formatN {op : BitVec 8} (h : op ≠ 0x02#8) : decode (formatN op) = formatNCommand op := by
  simp [decode, formatN_eq_formatI, h]

theorem encode_of_decode {w : Word} {i : Instr} (h : decode w = .ok i) : WellFormed i ∧ encode i = w := by
  unfold decode at h
  split_ifs at h with hhigh hseek hmid
  · cases h
    refine ⟨decide_eq_true (midField w).isLt, ?_⟩
    rw [encode, BitVec.ofNat_toNat, BitVec.setWidth_eq, ← hseek, formatI_fields (not_not.mp hhigh)]
  · obtain ⟨hwf, henc⟩ := encode_of_formatNCommand h
    refine ⟨hwf, ?_⟩
    rw [henc, formatN_eq_formatI, ← not_not.mp hmid, formatI_fields (not_not.mp hhigh)]

theorem decode_encode {i : Instr} (h : WellFormed i) : decode (encode i) = .ok i := by
  cases i with
  | seek imm =>
    have himm : imm < 2 ^ 24 := of_decide_eq_true h
    rw [encode, decode_formatI_seek, BitVec.toNat_ofNat, Nat.mod_eq_of_lt himm]
  | _ => exact decode_formatN (by decide)

/-- R101 to R104: a word decodes to exactly the command it encodes. -/
theorem decode_eq_ok_iff (w : Word) (i : Instr) : decode w = .ok i ↔ WellFormed i ∧ encode i = w :=
  ⟨encode_of_decode, fun ⟨hwf, henc⟩ => henc ▸ decode_encode hwf⟩

/-! ## The byte form (20_memory.md R73 (a)) -/

/-- A word is its eight bytes, the lowest last. -/
theorem append_bytes (w : Word) :
    w.extractLsb' 56 8 ++ w.extractLsb' 48 8 ++ w.extractLsb' 40 8 ++ w.extractLsb' 32 8 ++ w.extractLsb' 24 8 ++
      w.extractLsb' 16 8 ++ w.extractLsb' 8 8 ++ w.extractLsb' 0 8 = w := by
  have join (k n : Nat) : w.extractLsb' (k + 8) n ++ w.extractLsb' k 8 = w.extractLsb' k (n + 8) :=
    BitVec.extractLsb'_append_extractLsb'_eq_extractLsb' rfl
  rw [join 48, join 40, join 32, join 24, join 16, join 8, join 0]
  exact BitVec.extractLsb'_eq_self

/-- Above the last byte put to it a word's bytes are those it had. -/
theorem extractLsb'_append_byte {m : Nat} (x : BitVec m) (b : Byte) (k : Nat) :
    (x ++ b).extractLsb' (k + 8) 8 = x.extractLsb' k 8 := by
  rw [BitVec.extractLsb'_append_eq_of_le (by omega), Nat.add_sub_cancel]

/-- The bytes of eight bytes put together are the eight. -/
theorem wordBytes_append (b0 b1 b2 b3 b4 b5 b6 b7 : Byte) :
    wordBytes (b7 ++ b6 ++ b5 ++ b4 ++ b3 ++ b2 ++ b1 ++ b0) = [b0, b1, b2, b3, b4, b5, b6, b7] := by
  have low {m : Nat} (x : BitVec m) (b : Byte) : (x ++ b).extractLsb' 0 8 = b := BitVec.extractLsb'_append_eq_right
  simp [wordBytes, extractLsb'_append_byte, low]

theorem decodeBytes_wordBytes (w : Word) : decodeBytes (wordBytes w) = decode w :=
  congrArg decode (append_bytes w)

/-- R100, R106: a list of bytes that decodes is the bytes of a word. -/
theorem decodeBytes_eq_ok_iff (bytes : List Byte) (i : Instr) :
    decodeBytes bytes = .ok i ↔ ∃ w, bytes = wordBytes w ∧ decode w = .ok i := by
  constructor
  · intro h
    unfold decodeBytes at h
    split at h
    next b0 b1 b2 b3 b4 b5 b6 b7 => exact ⟨_, (wordBytes_append b0 b1 b2 b3 b4 b5 b6 b7).symm, h⟩
    next => cases h
  · rintro ⟨w, rfl, h⟩
    rwa [decodeBytes_wordBytes]

/-- Settles O2: the bytes are those of a word, and the word is the command's. -/
theorem eightBytesDecodeAsTheirWord : Obligations.EightBytesDecodeAsTheirWord := by
  intro bytes i
  simp only [decodeBytes_eq_ok_iff, decode_eq_ok_iff]
  constructor
  · rintro ⟨w, rfl, hwf, rfl⟩
    exact ⟨hwf, rfl⟩
  · rintro ⟨hwf, rfl⟩
    exact ⟨_, rfl, hwf, rfl⟩

end Sys2Proof

namespace Sys2Proof

/-! ## Which words are legal (30_encoding.md R103, R104) -/

/-- Settles O1: the two halves are `encode_of_decode` and `decode_encode`. -/
theorem decodeAndEncodeAgree : Obligations.DecodeAndEncodeAgree := decode_eq_ok_iff

/-- R212: the word of SEEK is its operand above the opcode. -/
theorem encode_seek_eq_ofNat {imm : Nat} (h : imm < 2 ^ 24) :
    encode (.seek imm) = BitVec.ofNat 64 (imm * 2 ^ 8 + 2) := by
  apply BitVec.eq_of_toNat_eq
  rw [encode, formatI_toNat, BitVec.toNat_ofNat, BitVec.toNat_ofNat, BitVec.toNat_ofNat]
  omega

theorem decode_seekWord {imm : Nat} (h : imm < 2 ^ 24) : decode (BitVec.ofNat 64 (imm * 2 ^ 8 + 2)) = .ok (.seek imm) :=
  encode_seek_eq_ofNat h ▸ decode_encode (decide_eq_true h)

/-- The commands of format N (R103): every command but SEEK. -/
def operandless : List Instr :=
  [.nop, .check, .next, .srst, .bld, .bst, .bitld, .bitst, .fdct, .idct, .dgen, .qemb, .qext, .embblk, .extblk, .emball,
    .extall]

theorem wellFormed_of_mem_operandless {i : Instr} (h : i ∈ operandless) : WellFormed i := by
  revert i
  decide

theorem mem_operandless_of_ne_seek {i : Instr} (h : ∀ imm, i ≠ .seek imm) : i ∈ operandless := by
  cases i with
  | seek imm => exact absurd rfl (h imm)
  | _ => decide

/-- R104: a word that is neither the word of an operandless command nor one of SEEK has no command. -/
theorem decode_error_of_unlisted {w : Word} (hN : ∀ i ∈ operandless, w ≠ encode i)
    (hI : ∀ imm, imm < 2 ^ 24 → w ≠ BitVec.ofNat 64 (imm * 2 ^ 8 + 2)) : ∃ e, decode w = .error e := by
  cases hw : decode w with
  | error e => exact ⟨e, rfl⟩
  | ok i =>
    obtain ⟨hwf, rfl⟩ := encode_of_decode hw
    by_cases hseek : ∃ imm, i = .seek imm
    · obtain ⟨imm, rfl⟩ := hseek
      have himm : imm < 2 ^ 24 := of_decide_eq_true hwf
      exact absurd (encode_seek_eq_ofNat himm) (hI imm himm)
    · exact absurd rfl (hN i (mem_operandless_of_ne_seek (not_exists.mp hseek)))

/-- R229: in READY a word without a command raises IllegalCommand. -/
theorem Machine.issue_of_decode_error {s : Machine.State} {w : Word} {e : DecodeError} (hf : s.fault = false)
    (hw : decode w = .error e) : Machine.issue w s = .next (Machine.raise .illegalCommand w s) := by
  simp [Machine.issue, hf, hw]

/-- Settles O3: the table lists the operandless commands beside their words. -/
theorem everyWordIsClassified : Obligations.EveryWordIsClassified := by
  unfold Obligations.EveryWordIsClassified
  intro table
  have htable : table = operandless.map fun i => (encode i, i) := rfl
  simp only [htable, List.forall_mem_map]
  refine ⟨fun i hi => decode_encode (wellFormed_of_mem_operandless hi), fun _ => decode_seekWord, fun w hN hI => ?_⟩
  obtain ⟨e, he⟩ := decode_error_of_unlisted hN hI
  exact ⟨⟨e, he⟩, fun s hf => Machine.issue_of_decode_error hf he⟩

/-- Settles O4: the first two are words of SEEK, the others are their commands' own words. -/
theorem sampleWordsDecode : Obligations.SampleWordsDecode :=
  ⟨decode_seekWord (imm := 5) (by decide), decode_seekWord (imm := 16777215) (by decide),
    decode_encode (i := .srst) rfl, decode_encode (i := .bst) rfl, decode_encode (i := .idct) rfl,
    decode_encode (i := .dgen) rfl, decode_encode (i := .qext) rfl, decode_encode (i := .emball) rfl⟩

end Sys2Proof

namespace Sys2Proof.Machine

/-! ## The mask (30_encoding.md R109) -/

/-- Settles O42: the twelve slots and the 64 bits of R109's constant, each compared with `maskIndex`. -/
theorem maskIsTheSlotTable : Obligations.MaskIsTheSlotTable :=
  ⟨by decide, by decide⟩

end Sys2Proof.Machine

namespace Sys2Proof.Machine

/-! ## Samples and values (41_blockgrid.md R123, R126) -/

/-- Settles O59: a sample is a whole number of eight bits, and every such number is representable. -/
theorem sampleConversionIsExact : Obligations.SampleConversionIsExact := by
  refine ⟨fun n => unpack_pack_fin 0 false (magRepresentable_whole ?_), by decide +kernel, by decide +kernel,
    by decide +kernel, by decide +kernel⟩
  have := n.isLt
  omega

/-- R126: rounding reaches `k` from half a unit below it. -/
theorem le_floorPlusHalf_iff (neg : Bool) (mag : Nat) (k : Int) :
    k ≤ floorPlusHalf neg mag ↔ (2 * k - 1) * unit ≤ 2 * signedMag neg mag := by
  have hunit : (0 : Int) < unit := Int.natCast_pos.mpr unit_pos
  rw [floorPlusHalf, Int.le_ediv_iff_mul_le (by omega), sub_mul, one_mul, mul_comm 2 k, mul_assoc, sub_le_iff_le_add]

/-- R126: the clamp of a rounded value, for every finite value. -/
theorem toByte_fin_toNat (neg : Bool) (mag : Nat) :
    (toByte (.fin neg mag)).toNat = (min (floorPlusHalf neg mag) 255).toNat := by
  simp only [toByte]
  split_ifs with hneg hbig
  · simp only [BitVec.ofNat_eq_ofNat, BitVec.toNat_zero]; omega
  · simp only [BitVec.ofNat_eq_ofNat, BitVec.toNat_ofNat]; omega
  · rw [BitVec.toNat_ofNat]; omega

/-- R126: the values that round to `n`. -/
theorem toByte_fin_toNat_of_bounds {neg : Bool} {mag n : Nat} (hn : n ≤ 255)
    (hlo : (2 * (n : Int) - 1) * unit ≤ 2 * signedMag neg mag)
    (hhi : 2 * signedMag neg mag < (2 * (n : Int) + 1) * unit) : (toByte (.fin neg mag)).toNat = n := by
  have hge := (le_floorPlusHalf_iff neg mag n).mpr hlo
  have hlt : ¬ (n : Int) + 1 ≤ floorPlusHalf neg mag := by
    rw [le_floorPlusHalf_iff, show 2 * ((n : Int) + 1) - 1 = 2 * n + 1 by ring]
    exact hhi.not_ge
  rw [toByte_fin_toNat]
  omega

/-- Settles O60: the three clauses on finite values compare the rounded value with 1, 255 and `n`. -/
theorem toByteRoundsAndClamps : Obligations.ToByteRoundsAndClamps := by
  refine ⟨rfl, rfl, rfl, fun neg mag h => ?below, fun neg mag h => ?above, fun _ _ _ => toByte_fin_toNat_of_bounds,
    by decide +kernel⟩
  case below =>
    have hlt : ¬ 1 ≤ floorPlusHalf neg mag := by
      rw [le_floorPlusHalf_iff]
      omega
    apply BitVec.eq_of_toNat_eq
    rw [toByte_fin_toNat, BitVec.ofNat_eq_ofNat, BitVec.toNat_zero]
    omega
  case above =>
    have hge : 255 ≤ floorPlusHalf neg mag := (le_floorPlusHalf_iff neg mag 255).mpr h
    apply BitVec.eq_of_toNat_eq
    rw [toByte_fin_toNat, min_eq_right hge]
    rfl

/-- R127: converting a sample to a value and back gives the sample. -/
theorem toByte_unpack_cvtU8 (v : Byte) : toByte (unpack (cvtU8 v)) = v := by
  have hv := v.isLt
  have hunit : (0 : Int) < unit := Int.natCast_pos.mpr unit_pos
  have hmag : 2 * signedMag false (v.toNat * unit) = 2 * (v.toNat : Int) * unit := by
    rw [signedMag, if_neg Bool.false_ne_true, Nat.cast_mul, mul_assoc]
  rw [sampleConversionIsExact.1]
  apply BitVec.eq_of_toNat_eq
  apply toByte_fin_toNat_of_bounds (by omega)
  · rw [hmag, sub_mul]; omega
  · rw [hmag, add_mul]; omega

/-! ## The block commands (41_blockgrid.md R122, R125, R127) -/

/-- R122: what BLD leaves in BLK. -/
theorem bldBody_blk_getElem (s : State) (i : Fin 64) :
    (bldBody s).blk[i] = cvtU8 (readPlane s (s.blockAddr i)) := by
  rw [bldBody, State.loadBlk_blk, loadedBlock_getElem]

/-- R40, R122: BLD sets every valid bit. -/
theorem bldBody_blkv_getElem (s : State) (i : Fin 64) : (bldBody s).blkv[i] = true := by
  simp [bldBody]

/-- Settles O27: the frame is BLD's row of R217. -/
theorem bldLoadsTheBlock : Obligations.BldLoadsTheBlock := by
  intro s h
  have hexec : exec .bld s = .next (bldBody s) := exec_ready h
  obtain ⟨hcfg, hhost, hbidx, -, -, hgroup, hdither, hplane, hbitmem⟩ :=
    commandsWriteOnlyWhatTheyList _ _ _ (by decide) hexec
  refine ⟨bldBody s, hexec, fun i => ⟨?_, bldBody_blkv_getElem s i⟩, rfl, hcfg, hbidx nofun (by decide),
    hgroup (by decide), hdither (by decide), ⟨rfl, rfl, rfl⟩, hplane (by decide), hbitmem (by decide), hhost⟩
  rw [bldBody_blk_getElem]
  exact sampleConversionIsExact.1 _

/-- Settles O28: the frame is BST's row of R217. -/
theorem bstStoresTheBlock : Obligations.BstStoresTheBlock := by
  intro s h
  have hexec : exec .bst s = .next (bstBody s) := exec_ready h
  obtain ⟨hcfg, hhost, hbidx, hblk, hblkv, hgroup, hdither, -, hbitmem⟩ :=
    commandsWriteOnlyWhatTheyList _ _ _ (by decide) hexec
  exact ⟨bstBody s, hexec, readPlane_bstBody_same (h.dimsOK (by decide)) (h.idxOK (by decide)),
    readPlane_bstBody_other s, rfl, hcfg, hbidx nofun (by decide), ⟨hblk (by decide), hblkv (by decide)⟩,
    hgroup (by decide), hdither (by decide), ⟨rfl, rfl, rfl⟩, hbitmem (by decide), hhost⟩

/-- BLD leaves the tests it passed as they were, and makes the one BST adds true. -/
theorem ReadyFor.bst_bldBody {s : State} (h : ReadyFor .bld s) : ReadyFor .bst (bldBody s) := by
  obtain ⟨hfault, hpre⟩ := h
  refine ⟨hfault, fun p hp => ?_⟩
  simp only [preconditions, List.mem_cons, List.not_mem_nil, or_false] at hp
  rcases hp with rfl | rfl | rfl
  · exact hpre .dims (by decide)
  · exact hpre .idx (by decide)
  · exact bldBody_blkv_getElem s

/-- Settles O29: a cell of the block goes through `cvtU8` and `toByte`, and no other cell is written. -/
theorem bldThenBstKeepsThePlane : Obligations.BldThenBstKeepsThePlane := by
  intro s h
  have hready := h.bst_bldBody
  refine ⟨bldBody s, bstBody (bldBody s), exec_ready h, exec_ready hready, h.1, fun a => ?_⟩
  by_cases ha : ∃ i : Fin 64, s.blockAddr i = a
  · obtain ⟨i, rfl⟩ := ha
    calc readPlane (bstBody (bldBody s)) (s.blockAddr i)
        = toByte (unpack (bldBody s).blk[i]) :=
          readPlane_bstBody_same (hready.dimsOK (by decide)) (hready.idxOK (by decide)) i
      _ = readPlane s (s.blockAddr i) := by rw [bldBody_blk_getElem, toByte_unpack_cvtU8]
  · exact readPlane_bstBody_other (bldBody s) a (not_exists.mp ha)

/-! ## The group commands (41_blockgrid.md R128, R129) -/

/-- Settles O30: the frame is BITLD's row of R217. -/
theorem bitldLoadsTheGroup : Obligations.BitldLoadsTheGroup := by
  intro s h
  have hexec : exec .bitld s = .next (bitldBody s) := exec_ready h
  obtain ⟨hcfg, hhost, hbidx, hblk, hblkv, -, hdither, hplane, hbitmem⟩ :=
    commandsWriteOnlyWhatTheyList _ _ _ (by decide) hexec
  exact ⟨bitldBody s, hexec, loadedGroup_getLsbD s, rfl, rfl, hcfg, hbidx nofun (by decide),
    ⟨hblk (by decide), hblkv (by decide)⟩, hdither (by decide), ⟨rfl, rfl, rfl⟩, hplane (by decide),
    hbitmem (by decide), hhost⟩

/-- Settles O31: the frame is BITST's row of R217. -/
theorem bitstStoresTheGroup : Obligations.BitstStoresTheGroup := by
  intro s h
  have hexec : exec .bitst s = .next (bitstBody s) := exec_ready h
  obtain ⟨hcfg, hhost, hbidx, hblk, hblkv, hgroup, hdither, hplane, -⟩ :=
    commandsWriteOnlyWhatTheyList _ _ _ (by decide) hexec
  exact ⟨bitstBody s, hexec, fun k => ⟨rfl, readBit_bitstBody_same s k⟩, readBit_bitstBody_other s, rfl, hcfg,
    hbidx nofun (by decide), ⟨hblk (by decide), hblkv (by decide)⟩, hgroup (by decide), hdither (by decide),
    ⟨rfl, rfl, rfl⟩, hplane (by decide), hhost⟩

/-- BITST leaves the tests of BITLD, which are among its own, as they were. -/
theorem ReadyFor.bitld_bitstBody {s : State} (h : ReadyFor .bitst s) : ReadyFor .bitld (bitstBody s) := by
  obtain ⟨hfault, hpre⟩ := h
  refine ⟨hfault, fun p hp => ?_⟩
  simp only [preconditions, List.mem_cons, List.not_mem_nil, or_false] at hp
  rcases hp with rfl | rfl | rfl
  · exact hpre .dims (by decide)
  · exact hpre .idx (by decide)
  · exact hpre .grp (by decide)

/-- R128, R129: the group read back after BITST is the group stored. -/
theorem loadedGroup_bitstBody (s : State) : (bitstBody s).loadedGroup = s.bits := by
  apply BitVec.eq_of_getLsbD_eq
  intro k hk
  rw [loadedGroup_getLsbD (bitstBody s) ⟨k, hk⟩]
  exact readBit_bitstBody_same s ⟨k, hk⟩

/-- Settles O32: BITLD reads the twelve cells that BITST wrote. -/
theorem bitstThenBitldKeepsTheGroup : Obligations.BitstThenBitldKeepsTheGroup := fun s h =>
  ⟨bitstBody s, bitldBody (bitstBody s), exec_ready h, exec_ready h.bitld_bitstBody, loadedGroup_bitstBody s, rfl, h.1⟩

end Sys2Proof.Machine

namespace Sys2Proof.Machine

/-! ## The 1D transforms (42_dct.md R142 to R145) -/

/-- R143: the sign and the index of the cosine constant for the angle (2n+1)kπ/16, brought into the first quadrant. -/
def coefficientEntry (k n : Fin 8) : Bool × Nat :=
  let j := ((2 * n.val + 1) * k.val) % 32
  if j < 8 then (false, j)
  else if j ≤ 16 then (true, 16 - j)
  else if j < 24 then (true, j - 16)
  else (false, 32 - j)

/-- R143: the four quadrants of the matrix, by sign and index. -/
theorem coefficient_eq_of_entry (k n : Fin 8) :
    coefficient k n = if (coefficientEntry k n).1 then fneg (cosConst (coefficientEntry k n).2)
      else cosConst (coefficientEntry k n).2 := by
  simp only [coefficient, coefficientEntry]
  split_ifs <;> simp_all only [not_true_eq_false]

/-- Settles O33: the entries are the signs and indices of the four quadrants, and the constants are `cosPattern`. -/
theorem coefficientMatrixIsTheTable : Obligations.CoefficientMatrixIsTheTable := by
  intro k n
  refine ⟨List.ofFn (coefficientEntry k), coefficientEntry k n, cosPattern (Fin.ofNat 8 (coefficientEntry k n).2),
    ?row, ?entry, ?pattern, coefficient_eq_of_entry k n⟩
  case row => revert k; decide
  case entry => rw [List.getElem?_ofFn, dif_pos n.isLt]
  case pattern => revert k n; decide

/-- R144, R145: the sums run over 1 to 7 in this order. -/
theorem foldl_oneToSeven {α : Type} (f : α → Fin 8 → α) (a : α) :
    oneToSeven.foldl f a = f (f (f (f (f (f (f a 1) 2) 3) 4) 5) 6) 7 := rfl

/-- Settles O34: each sum of R144 and R145 is a fold over the indices 1 to 7. -/
theorem transformSumsRunLeftToRight : Obligations.TransformSumsRunLeftToRight := by
  intro x m
  constructor
  · rw [dct2Term, foldl_oneToSeven]; rfl
  · rw [dct3Term, foldl_oneToSeven]; rfl

/-! ## The transform commands (42_dct.md R146, R148, R149) -/

/-- R148: element (u, v) of the forward transform, rows and then columns. -/
theorem forward2D_flatIndex (b : Vector F64 64) (u v : Fin 8) :
    (forward2D b)[flatIndex u v] =
      dct2Term (Vector.ofFn fun r : Fin 8 => dct2Term (Vector.ofFn fun c : Fin 8 => b[flatIndex r c]) v) u := by
  rw [forward2D, twoPass_flatIndex]
  simp [dct2]

/-- R149: element (u, v) of the inverse transform, rows and then columns, scaled once. -/
theorem inverse2D_flatIndex (b : Vector F64 64) (u v : Fin 8) :
    (inverse2D b)[flatIndex u v] =
      fmul (dct3Term (Vector.ofFn fun r : Fin 8 => dct3Term (Vector.ofFn fun c : Fin 8 => b[flatIndex r c]) v) u)
        sixteenth := by
  have hpass := twoPass_flatIndex dct3 b u v
  simp only [inverse2D, Fin.getElem_fin, Vector.getElem_ofFn, dct3] at hpass ⊢
  rw [hpass]

@[simp] theorem State.block_getElem (s : State) (i : Fin 64) : s.block[i] = unpack s.blk[i] := by
  simp [State.block]

/-- R148, R149: storing a computed block keeps the value of an element that is a binary64 value. -/
theorem unpack_putBlock_eq {b : Vector F64 64} (s : State) {i : Fin 64} {x : F64} (h : b[i] = x)
    (hx : x.representable) : unpack (s.putBlock b).blk[i] = x := by
  subst h
  exact unpack_putBlock s hx

/-- R148: the values FDCT leaves in BLK. -/
theorem unpack_fdctBody_blk (s : State) (u v : Fin 8) :
    unpack (fdctBody s).blk[flatIndex u v] =
      dct2Term (Vector.ofFn fun r : Fin 8 =>
        dct2Term (Vector.ofFn fun c : Fin 8 => unpack s.blk[flatIndex r c]) v) u := by
  have hvalue := forward2D_flatIndex s.block u v
  simp only [State.block_getElem] at hvalue
  exact unpack_putBlock_eq s hvalue (dct2Term_representable _ _)

/-- R149: the values IDCT leaves in BLK. -/
theorem unpack_idctBody_blk (s : State) (u v : Fin 8) :
    unpack (idctBody s).blk[flatIndex u v] =
      fmul (dct3Term (Vector.ofFn fun r : Fin 8 =>
        dct3Term (Vector.ofFn fun c : Fin 8 => unpack s.blk[flatIndex r c]) v) u) sixteenth := by
  have hvalue := inverse2D_flatIndex s.block u v
  simp only [State.block_getElem] at hvalue
  exact unpack_putBlock_eq s hvalue (fmul_representable _ _)

/-- Settles O35: the frame is FDCT's row of R217. -/
theorem fdctTransformsRowsThenColumns : Obligations.FdctTransformsRowsThenColumns := by
  intro s h
  have hexec : exec .fdct s = .next (fdctBody s) := exec_ready h
  obtain ⟨hcfg, hhost, hbidx, -, hblkv, hgroup, hdither, hplane, hbitmem⟩ :=
    commandsWriteOnlyWhatTheyList _ _ _ (by decide) hexec
  exact ⟨fdctBody s, hexec, unpack_fdctBody_blk s, hblkv (by decide), hcfg, hbidx nofun (by decide),
    hgroup (by decide), hdither (by decide), ⟨rfl, rfl, rfl⟩, hplane (by decide), hbitmem (by decide), hhost⟩

/-- Settles O36: the frame is IDCT's row of R217. -/
theorem idctTransformsAndScalesOnce : Obligations.IdctTransformsAndScalesOnce := by
  intro s h
  have hexec : exec .idct s = .next (idctBody s) := exec_ready h
  obtain ⟨hcfg, hhost, hbidx, -, hblkv, hgroup, hdither, hplane, hbitmem⟩ :=
    commandsWriteOnlyWhatTheyList _ _ _ (by decide) hexec
  exact ⟨idctBody s, hexec, unpack_idctBody_blk s, hblkv (by decide), hcfg, hbidx nofun (by decide),
    hgroup (by decide), hdither (by decide), ⟨rfl, rfl, rfl⟩, hplane (by decide), hbitmem (by decide), hhost⟩

/-! ## The round trip (42_dct.md R151) -/

/-- A command that is ready in a sequence has its whole effect, and the sequence goes on from there. -/
theorem execSeq_cons_ready {i : Instr} {s : State} (h : ReadyFor i s) (rest : List Instr) :
    execSeq (i :: rest) s = execSeq rest (effectOf i s) := by
  rw [execSeq, exec_ready h]

/-- A command whose tests are among those of a ready one is ready. -/
theorem ReadyFor.of_subset {i j : Instr} {s : State} (h : ReadyFor i s) (hsub : preconditions j ⊆ preconditions i) :
    ReadyFor j s :=
  ⟨h.1, fun p hp => h.2 p (hsub hp)⟩

/-- Storing a computed block leaves every test of R217 as it was. -/
theorem ReadyFor.putBlock {i : Instr} {s : State} (h : ReadyFor i s) (b : Vector F64 64) :
    ReadyFor i (s.putBlock b) := by
  refine ⟨h.1, fun p hp => ?_⟩
  have hp' := h.2 p hp
  cases p <;> exact hp'

/-- R126: a value within 1/4 of a sample rounds to the sample. -/
theorem toByte_of_val_near {x : F64} {v : Byte} (hfin : Error.IsFin x) (hnear : |Error.val x - v.toNat| ≤ 1 / 4) :
    toByte x = v := by
  have hv := v.isLt
  have hunit := Error.unit_real
  obtain ⟨neg, mag, rfl⟩ := hfin
  have hval : Error.val (.fin neg mag) * unit = signedMag neg mag := by
    rw [Error.val_units, div_mul_cancel₀ _ hunit.ne']; rfl
  obtain ⟨hlo, hhi⟩ := abs_le.mp hnear
  have hlo' : (2 * (v.toNat : ℝ) - 1) * unit ≤ 2 * (signedMag neg mag : ℝ) := by
    rw [← hval, ← mul_assoc]; exact mul_le_mul_of_nonneg_right (by linarith) hunit.le
  have hhi' : 2 * (signedMag neg mag : ℝ) < (2 * (v.toNat : ℝ) + 1) * unit := by
    rw [← hval, ← mul_assoc]; exact mul_lt_mul_of_pos_right (by linarith) hunit
  exact BitVec.eq_of_toNat_eq
    (toByte_fin_toNat_of_bounds (by omega) (by exact_mod_cast hlo') (by exact_mod_cast hhi'))

/-- R123: the real value of a converted sample. -/
theorem val_unpack_cvtU8 (v : Byte) : Error.val (unpack (cvtU8 v)) = v.toNat := by
  have hunit := Error.unit_real
  rw [sampleConversionIsExact.1, Error.val_units, Error.units, signedMag, if_neg Bool.false_ne_true]
  push_cast
  field_simp

/-- R39: the flat index 8r + c from its row and column. -/
theorem flatIndex_rowOf_colOf (i : Fin 64) : flatIndex (rowOf i) (colOf i) = i := by
  apply Fin.ext
  simp only [flatIndex, rowOf, colOf]
  omega

/-- R151: after BLD, FDCT and IDCT every element of BLK rounds to the sample it was loaded from. -/
theorem toByte_idctBody_fdctBody_bldBody (s : State) (i : Fin 64) :
    toByte (unpack (idctBody (fdctBody (bldBody s))).blk[i]) = readPlane s (s.blockAddr i) := by
  have hsample : ∀ r c : Fin 8, Error.IsFin (unpack (bldBody s).blk[flatIndex r c]) ∧
      |Error.val (unpack (bldBody s).blk[flatIndex r c])| ≤ 255 := by
    intro r c
    rw [bldBody_blk_getElem, val_unpack_cvtU8, Nat.abs_cast]
    have hlt := (readPlane s (s.blockAddr (flatIndex r c))).isLt
    exact ⟨⟨_, _, sampleConversionIsExact.1 _⟩, by exact_mod_cast Nat.le_of_lt_succ hlt⟩
  obtain ⟨hfin, hnear⟩ :=
    Error.round_trip (fun r c => unpack (bldBody s).blk[flatIndex r c]) hsample (rowOf i) (colOf i)
  simp only [← unpack_fdctBody_blk, ← unpack_idctBody_blk, flatIndex_rowOf_colOf] at hfin hnear
  rw [bldBody_blk_getElem, val_unpack_cvtU8] at hnear
  exact toByte_of_val_near hfin hnear

/-- Settles O37: a cell of the block rounds back to its sample, and no other cell is written. -/
theorem transformRoundTripKeepsThePlane : Obligations.TransformRoundTripKeepsThePlane := by
  intro s h
  have hbld : ReadyFor .bst (bldBody s) := h.bst_bldBody
  have hfdct : ReadyFor .bst (fdctBody (bldBody s)) := hbld.putBlock _
  have hidct : ReadyFor .bst (idctBody (fdctBody (bldBody s))) := hfdct.putBlock _
  refine ⟨bstBody (idctBody (fdctBody (bldBody s))), ?completes, h.1, fun a => ?cell⟩
  case completes =>
    calc execSeq [.bld, .fdct, .idct, .bst] s
        = execSeq [.fdct, .idct, .bst] (bldBody s) := execSeq_cons_ready h _
      _ = execSeq [.idct, .bst] (fdctBody (bldBody s)) := execSeq_cons_ready (hbld.of_subset (by decide)) _
      _ = execSeq [.bst] (idctBody (fdctBody (bldBody s))) := execSeq_cons_ready (hfdct.of_subset (by decide)) _
      _ = .next (bstBody (idctBody (fdctBody (bldBody s)))) := execSeq_cons_ready hidct _
  case cell =>
    by_cases ha : ∃ i : Fin 64, s.blockAddr i = a
    · obtain ⟨i, rfl⟩ := ha
      calc readPlane (bstBody (idctBody (fdctBody (bldBody s)))) (s.blockAddr i)
          = toByte (unpack (idctBody (fdctBody (bldBody s))).blk[i]) :=
            readPlane_bstBody_same (hidct.dimsOK (by decide)) (hidct.idxOK (by decide)) i
        _ = readPlane s (s.blockAddr i) := toByte_idctBody_fdctBody_bldBody s i
    · exact readPlane_bstBody_other (idctBody (fdctBody (bldBody s))) a (not_exists.mp ha)

end Sys2Proof.Machine

namespace Sys2Proof.Machine

/-! ## The pseudorandom stream (43_dither.md R162, R163) -/

/-- Settles O38: the two steps are closed computations on words. -/
theorem splitMixExamples : Obligations.SplitMixExamples :=
  ⟨by decide, by decide, by decide, by decide⟩

/-- R162: slot `k` uses the word of the generator's (k+1)-th state, in closed form. -/
theorem ditherWord_eq (key : Word) (k : Nat) :
    ditherWord key k = splitMixOutput (key + BitVec.ofNat 64 (k + 1) * 0x9E3779B97F4A7C15#64) := by
  rw [ditherWord, splitMixState_eq]

/-- R163: the top 53 bits of a word are its quotient by 2^11. -/
theorem drawT_eq (z : Word) (step : F64) :
    drawT z step = fmul (fsub (fmul (ofInteger (z.toNat / 2 ^ 11)) twoPowMinus53) half) step := by
  rw [drawT, BitVec.toNat_ushiftRight, Nat.shiftRight_eq_div_pow]

/-! ## The dither generator (43_dither.md R160, R164, R165) -/

/-- R160: what a DGEN that completes leaves in DTH. -/
theorem dth_of_exec_dgen {s t : State} (h : ReadyFor .dgen s) (he : exec .dgen s = .next t) :
    t.dth = ditherTable s.key s.stepSize := by
  rw [exec_ready h] at he
  cases he
  exact State.setDither_dth s _

/-- R160, R163: the first member of slot `k` after DGEN. -/
theorem unpack_dgen_lo {s t : State} (h : ReadyFor .dgen s) (he : exec .dgen s = .next t) (k : Fin 12) :
    unpack t.dth[k].lo = drawT (ditherWord s.key k) (unpack s.stepSize) := by
  rw [dth_of_exec_dgen h he, ditherTable_getElem, unpack_ditherPair_lo]

/-- R160: the second member of slot `k` after DGEN is made from the first. -/
theorem unpack_dgen_hi {s t : State} (h : ReadyFor .dgen s) (he : exec .dgen s = .next t) (k : Fin 12) :
    unpack t.dth[k].hi = ditherHi (unpack t.dth[k].lo) (unpack s.stepSize) := by
  rw [unpack_dgen_lo h he, dth_of_exec_dgen h he, ditherTable_getElem, unpack_ditherPair_hi]

/-- Settles O39: the members are R163's and R160's, and the frame is DGEN's row of R217. -/
theorem dgenWritesTheTable : Obligations.DgenWritesTheTable := by
  intro s h
  have hexec : exec .dgen s = .next (dgenBody s) := exec_ready h
  obtain ⟨hcfg, hhost, hbidx, hblk, hblkv, hgroup, -, hplane, hbitmem⟩ :=
    commandsWriteOnlyWhatTheyList _ _ _ (by decide) hexec
  refine ⟨dgenBody s, hexec, rfl, fun k => ⟨?first, unpack_dgen_hi h hexec k⟩, rfl, hcfg, hbidx nofun (by decide),
    ⟨hblk (by decide), hblkv (by decide)⟩, hgroup (by decide), ⟨rfl, rfl, rfl⟩, hplane (by decide),
    hbitmem (by decide), hhost⟩
  case first =>
    rw [unpack_dgen_lo h hexec, ditherWord_eq, drawT_eq]
    rfl

/-- Settles O40: both tables are the one of KEY and STEP. -/
theorem dgenIsPure : Obligations.DgenIsPure := by
  intro s t s' t' hkey hstep hs ht hes het
  rw [dth_of_exec_dgen hs hes, dth_of_exec_dgen ht het, hkey, hstep]

/-- R164: from a bound on the magnitude, strict for a positive sign, to the half-open interval of signed values. -/
theorem signedMag_range {neg : Bool} {m S : Nat} (hle : 2 * m ≤ S) (hlt : neg = false → 2 * m < S) (hS : 0 < S) :
    -(S : Int) ≤ 2 * signedMag neg m ∧ 2 * signedMag neg m < S := by
  cases neg with
  | false =>
    have hm := hlt rfl
    simp only [signedMag, Bool.false_eq_true, if_false]
    omega
  | true =>
    simp only [signedMag, if_true]
    omega

/-- Settles O41: the ranges of the two members, for the representable magnitude STEP has. -/
theorem dithersLieWithinHalfAStep : Obligations.DithersLieWithinHalfAStep := by
  intro s t S hstep hS he hfault k
  have hpos : 0 < S := (Nat.two_pow_pos 53).trans_le hS
  have hready : ReadyFor .dgen s := ⟨hfault, by simpa [preconditions] using ⟨S, hstep, hpos.ne'⟩⟩
  have hrep : magRepresentable S := by
    have h := unpack_representable s.stepSize
    rwa [hstep] at h
  obtain ⟨neg, m, hdraw, hle, hlt⟩ := draw_range (ditherWord s.key k) hrep hS
  have hlo : unpack t.dth[k].lo = .fin neg m := by rw [unpack_dgen_lo hready he, hstep, hdraw]
  obtain ⟨neg', m', hhi, hle'⟩ := hi_range hrep hS (neg := neg) hle
  refine ⟨⟨neg, m, hlo, signedMag_range hle hlt hpos⟩, neg', m', ?_, hle'⟩
  rw [unpack_dgen_hi hready he, hlo, hstep, hhi]

end Sys2Proof.Machine

namespace Sys2Proof.Machine

/-! ## The quantizer is odd (44_qim.md R177, R184) -/

theorem fneg_fneg (x : F64) : fneg (fneg x) = x := by
  cases x with
  | nan => rfl
  | inf neg => simp [fneg]
  | fin neg mag => simp [fneg]

theorem fabs_fneg (x : F64) : fabs (fneg x) = fabs x := by cases x <;> rfl

theorem zero_eq : zero = .fin false 0 := by decide

/-- R16: below zero is a matter of the sign, zeros aside. -/
theorem flt_fin_zero {neg : Bool} {mag : Nat} (hmag : mag ≠ 0) : flt (.fin neg mag) zero = neg := by
  rw [zero_eq]
  cases neg with
  | false => simp [flt, signedMag]
  | true => simpa [flt, signedMag] using Nat.pos_of_ne_zero hmag

/-- R16: of a value and its negative, neither zero nor NaN, exactly one is below zero. -/
theorem flt_fneg_zero {v : F64} (hnan : isNaN v = false) (hzero : ∀ neg, v ≠ .fin neg 0) :
    flt (fneg v) zero = !flt v zero := by
  cases v with
  | nan => cases hnan
  | inf neg => rw [zero_eq]; rfl
  | fin neg mag =>
    have hmag : mag ≠ 0 := by
      rintro rfl
      exact hzero neg rfl
    rw [fneg, flt_fin_zero hmag, flt_fin_zero hmag]

/-- Settles O43: the magnitude is computed on `fabs`, and the sign is applied last. -/
theorem quantizerIsOdd : Obligations.QuantizerIsOdd := by
  intro v s hnan hzero
  simp only [quantize, fabs_fneg, flt_fneg_zero hnan hzero]
  cases flt v zero with
  | false => rfl
  | true => exact (fneg_fneg _).symm

/-! ## The quantizer commands (44_qim.md R178, R180, R184) -/

/-- Settles O44: the frame is QEMB's row of R217. -/
theorem qembEmbedsTwelveBits : Obligations.QembEmbedsTwelveBits := by
  intro s h
  have hexec : exec .qemb s = .next (qembBody s) := exec_ready h
  obtain ⟨hcfg, hhost, hbidx, -, hblkv, hgroup, hdither, hplane, hbitmem⟩ :=
    commandsWriteOnlyWhatTheyList _ _ _ (by decide) hexec
  exact ⟨qembBody s, hexec, unpack_qembBody_mask s, fun _ hi => qembBody_other s hi, hblkv (by decide), hcfg,
    hbidx nofun (by decide), hgroup (by decide), hdither (by decide), ⟨rfl, rfl, rfl⟩, hplane (by decide),
    hbitmem (by decide), hhost⟩

/-- R180: a bit reads 0 exactly where the distance is strictly below the threshold. -/
theorem extractBit_eq_false_iff (c lo s : F64) :
    extractBit c lo s = false ↔ flt (probeDistance c lo s) (fdiv s ten) = true := by
  rw [extractBit, Bool.not_eq_false']

/-- R180: a bit QEXT leaves in BITS. -/
theorem qextBody_bits_getLsbD (s : State) (k : Fin 12) : (qextBody s).bits.getLsbD k = s.extracted k := by
  rw [qextBody, State.setBits_bits, extractedGroup_getLsbD]

/-- Settles O45: the frame is QEXT's row of R217. -/
theorem qextExtractsTwelveBits : Obligations.QextExtractsTwelveBits := by
  intro s h
  have hexec : exec .qext s = .next (qextBody s) := exec_ready h
  obtain ⟨hcfg, hhost, hbidx, hblk, hblkv, -, hdither, hplane, hbitmem⟩ :=
    commandsWriteOnlyWhatTheyList _ _ _ (by decide) hexec
  refine ⟨qextBody s, hexec, fun k => ?bit, rfl, rfl, hcfg, hbidx nofun (by decide),
    ⟨hblk (by decide), hblkv (by decide)⟩, hdither (by decide), ⟨rfl, rfl, rfl⟩, hplane (by decide),
    hbitmem (by decide), hhost⟩
  case bit =>
    rw [qextBody_bits_getLsbD]
    exact extractBit_eq_false_iff _ _ _

/-! ## Reading back what was embedded (44_qim.md R182, R183) -/

section ReadBack
open Error (val IsFin)

/-- The bounds under which R182 and R183 are stated: a step from 10 to 2^900, which is `mag` least subnormals, and
coefficients of at most 2^20. -/
structure EmbeddingBounds (s : State) (mag : Nat) : Prop where
  step : unpack s.stepSize = .fin false mag
  step_ge : 10 * unit ≤ mag
  step_le : mag ≤ 2 ^ 900 * unit
  coefficient : ∀ k : Fin 12, ∃ neg m, unpack s.blk[maskIndex k] = .fin neg m ∧ m ≤ 2 ^ 20 * unit

theorem val_fin_false (m : Nat) : val (.fin false m) = (m : ℝ) / unit := by
  rw [Error.val_fin, if_neg Bool.false_ne_true, one_mul]

/-- A magnitude bound in least subnormals is one on the real value. -/
theorem abs_val_fin_le {neg : Bool} {m n : Nat} (h : m ≤ n * unit) : |val (.fin neg m)| ≤ n := by
  rw [Error.val_abs, div_le_iff₀ Error.unit_real]
  exact_mod_cast h

/-- R164: a magnitude of at most half a step, as a bound on the real value. -/
theorem abs_val_fin_le_half {neg : Bool} {m S : Nat} (h : 2 * m ≤ S) :
    |val (.fin neg m)| ≤ val (.fin false S) / 2 := by
  have h2 : (2 * m : ℝ) ≤ S := by exact_mod_cast h
  rw [Error.val_abs, val_fin_false, div_right_comm]
  exact div_le_div_of_nonneg_right (by linarith) Error.unit_real.le

/-- R15: the magnitude of a finite pattern. -/
theorem magRepresentable_of_unpack {w : Word} {neg : Bool} {m : Nat} (h : unpack w = .fin neg m) :
    magRepresentable m := by
  have hrep := unpack_representable w
  rwa [h] at hrep

variable {s : State} {mag : Nat}

theorem EmbeddingBounds.step_isFin (h : EmbeddingBounds s mag) : IsFin (unpack s.stepSize) := ⟨_, _, h.step⟩

theorem EmbeddingBounds.ten_le_step (h : EmbeddingBounds s mag) : 10 ≤ val (unpack s.stepSize) := by
  rw [h.step, val_fin_false, le_div_iff₀ Error.unit_real]
  exact_mod_cast h.step_ge

theorem EmbeddingBounds.step_le_big (h : EmbeddingBounds s mag) : val (unpack s.stepSize) ≤ 2 ^ 900 := by
  rw [h.step, val_fin_false, div_le_iff₀ Error.unit_real]
  exact_mod_cast h.step_le

/-- A step of 10 is far above 2^-1021, where R164's ranges begin. -/
theorem EmbeddingBounds.two_pow_53_le_step (h : EmbeddingBounds s mag) : 2 ^ 53 ≤ mag := by
  have hunit : 2 ^ 53 ≤ unit := by
    rw [unit_eq]
    exact Nat.pow_le_pow_right (by decide) (by rw [unitExp_eq]; decide)
  have := h.step_ge
  omega

theorem EmbeddingBounds.coefficient_isFin (h : EmbeddingBounds s mag) (k : Fin 12) :
    IsFin (unpack s.blk[maskIndex k]) ∧ |val (unpack s.blk[maskIndex k])| ≤ 2 ^ 20 := by
  obtain ⟨neg, m, hc, hm⟩ := h.coefficient k
  rw [hc]
  exact ⟨⟨_, _, rfl⟩, by exact_mod_cast abs_val_fin_le hm⟩

/-- R160, R164: the members of a dither pair lie within half a step and are half a step apart, nearly. -/
structure PairNear (p : DitherPair) (step : F64) : Prop where
  lo_isFin : IsFin (unpack p.lo)
  hi_isFin : IsFin (unpack p.hi)
  lo_le : |val (unpack p.lo)| ≤ val step / 2
  hi_le : |val (unpack p.hi)| ≤ val step / 2
  gap : abs (|val (unpack p.hi) - val (unpack p.lo)| - val step / 2) ≤ (1 / 2) ^ 50 * val step

/-- Both choices of a bit, as one fact. -/
theorem PairNear.pickDither {p : DitherPair} {step : F64} (h : PairNear p step) (bit : Bool) :
    IsFin (pickDither p bit) ∧ |val (pickDither p bit)| ≤ val step / 2 := by
  cases bit with
  | false => exact ⟨h.lo_isFin, h.lo_le⟩
  | true => exact ⟨h.hi_isFin, h.hi_le⟩

/-- R44, R164: the pairs of a valid dither table. -/
theorem EmbeddingBounds.pairNear (h : EmbeddingBounds s mag) (hdither : s.ditherOK) (hdv : s.dv = true) (k : Fin 12) :
    PairNear s.dth[k] (unpack s.stepSize) := by
  have hrep := magRepresentable_of_unpack h.step
  obtain ⟨neg, m, hdraw, hle, -⟩ := draw_range (ditherWord s.key k) hrep h.two_pow_53_le_step
  obtain ⟨neg', m', hmem, hle'⟩ := hi_range hrep h.two_pow_53_le_step (neg := neg) hle
  have hlo : unpack s.dth[k].lo = .fin neg m := by
    rw [(hdither hdv).2, ditherTable_getElem, unpack_ditherPair_lo, h.step, hdraw]
  have hhi : unpack s.dth[k].hi = ditherHi (unpack s.dth[k].lo) (unpack s.stepSize) := by
    rw [(hdither hdv).2, ditherTable_getElem, unpack_ditherPair_hi, unpack_ditherPair_lo]
  have hhi' : unpack s.dth[k].hi = .fin neg' m' := by rw [hhi, hlo, h.step, hmem]
  have hlo_isFin : IsFin (unpack s.dth[k].lo) := ⟨_, _, hlo⟩
  have hlo_le : |val (unpack s.dth[k].lo)| ≤ val (unpack s.stepSize) / 2 := by
    rw [hlo, h.step]; exact abs_val_fin_le_half hle
  have hhi_le : |val (unpack s.dth[k].hi)| ≤ val (unpack s.stepSize) / 2 := by
    rw [hhi', h.step]; exact abs_val_fin_le_half hle'
  refine ⟨hlo_isFin, ⟨_, _, hhi'⟩, hlo_le, hhi_le, ?_⟩
  rw [hhi]
  exact Error.gap_near hlo_isFin h.step_isFin h.ten_le_step h.step_le_big hlo_le

/-- R178: an embedded coefficient is a finite value. -/
theorem EmbeddingBounds.embedded_isFin (h : EmbeddingBounds s mag) (hdither : s.ditherOK) (hdv : s.dv = true)
    (k : Fin 12) : IsFin (s.embedded k) := by
  obtain ⟨hc, hc'⟩ := h.coefficient_isFin k
  obtain ⟨hd, hd'⟩ := (h.pairNear hdither hdv k).pickDither (s.bits.getLsbD k)
  obtain ⟨hfin, -, -⟩ := Error.embed_near hc hd h.step_isFin h.ten_le_step h.step_le_big hc' hd'
  exact hfin

/-- R182, R183: a value near slot `k`'s embedded coefficient reads as slot `k`'s bit. -/
theorem EmbeddingBounds.extractBit_near_embedded (h : EmbeddingBounds s mag) (hdither : s.ditherOK) (hdv : s.dv = true)
    (k : Fin 12) {x : F64} (hx : IsFin x)
    (hnoise : |val x - val (s.embedded k)| ≤ (1 - (1 / 2) ^ 20) * (val (unpack s.stepSize) / 10)) :
    extractBit x (unpack s.dth[k].lo) (unpack s.stepSize) = s.bits.getLsbD k := by
  obtain ⟨hc, hc'⟩ := h.coefficient_isFin k
  have hp := h.pairNear hdither hdv k
  exact Error.extract_embedded (s.bits.getLsbD k) hc hp.lo_isFin hp.hi_isFin h.step_isFin h.ten_le_step h.step_le_big
    hc' hp.lo_le hp.hi_le hp.gap hx hnoise

/-- R182, R183: QEXT leaves the bits that were embedded in `s`, if every coefficient it reads is near the embedded
one, and STEP and DTH are those of `s`. -/
theorem EmbeddingBounds.qextBody_bits (h : EmbeddingBounds s mag) (hdither : s.ditherOK) (hdv : s.dv = true) {w : State}
    (hstep : w.stepSize = s.stepSize) (hdth : w.dth = s.dth)
    (hnear : ∀ k : Fin 12, IsFin (unpack w.blk[maskIndex k]) ∧
      |val (unpack w.blk[maskIndex k]) - val (s.embedded k)| ≤
        (1 - (1 / 2) ^ 20) * (val (unpack s.stepSize) / 10)) :
    (qextBody w).bits = s.bits := by
  apply BitVec.eq_of_getLsbD_eq
  intro k hk
  obtain ⟨hfin, hnoise⟩ := hnear ⟨k, hk⟩
  calc (qextBody w).bits.getLsbD k
      = w.extracted ⟨k, hk⟩ := qextBody_bits_getLsbD w ⟨k, hk⟩
    _ = extractBit (unpack w.blk[maskIndex ⟨k, hk⟩]) (unpack s.dth[k].lo) (unpack s.stepSize) := by
      rw [State.extracted, hstep, hdth]; rfl
    _ = s.bits.getLsbD k := h.extractBit_near_embedded hdither hdv ⟨k, hk⟩ hfin hnoise

/-- The statement's noise bound, on whole numbers of least subnormals, as one on real values. -/
theorem abs_val_sub_le_of_noise {na nb : Bool} {a b : Nat}
    (h : 10 * 2 ^ 20 * |signedMag nb b - signedMag na a| ≤ (2 ^ 20 - 1) * (mag : Int)) :
    |val (.fin nb b) - val (.fin na a)| ≤ (1 - (1 / 2) ^ 20) * (val (.fin false mag) / 10) := by
  have hunit := Error.unit_real
  have hreal : (10 * 2 ^ 20 * |(signedMag nb b : ℝ) - signedMag na a|) ≤ (2 ^ 20 - 1) * mag := by exact_mod_cast h
  have hdist : |val (.fin nb b) - val (.fin na a)| = |(signedMag nb b : ℝ) - signedMag na a| / unit := by
    rw [Error.val_units, Error.val_units, ← sub_div, abs_div, abs_of_pos hunit]
    rfl
  rw [hdist, val_fin_false, div_le_iff₀ hunit]
  field_simp
  linarith

end ReadBack

/-- QEMB leaves the tests of QEXT, which are among its own, as they were. -/
theorem ReadyFor.qext_qembBody {s : State} (h : ReadyFor .qemb s) : ReadyFor .qext (qembBody s) := by
  obtain ⟨hfault, hpre⟩ := h
  refine ⟨hfault, fun p hp => ?_⟩
  simp only [preconditions, List.mem_cons, List.not_mem_nil, or_false] at hp
  rcases hp with rfl | rfl
  · exact hpre .ditherValid (by decide)
  · exact hpre .blockValid (by decide)

/-- Settles O46: without noise every coefficient QEXT reads is the embedded one. -/
theorem qextReadsBackWhatQembEmbedded : Obligations.QextReadsBackWhatQembEmbedded := by
  intro s mag hready hdither hstep hge hle hcoef
  have hb : EmbeddingBounds s mag := ⟨hstep, hge, hle, hcoef⟩
  have hdv : s.dv = true := hready.2 .ditherValid (by decide)
  refine ⟨qembBody s, qextBody (qembBody s), exec_ready hready, exec_ready hready.qext_qembBody,
    hb.qextBody_bits hdither hdv rfl rfl fun k => ?_, hready.1⟩
  rw [unpack_qembBody_mask, sub_self, abs_zero]
  have hten := hb.ten_le_step
  exact ⟨hb.embedded_isFin hdither hdv k, mul_nonneg (by norm_num) (by linarith)⟩

/-- Settles O47: the noise on each coefficient is within the margin of `extract_embedded`. -/
theorem extractionToleratesNoise : Obligations.ExtractionToleratesNoise := by
  intro s t w mag hready hdither hstep hge hle hcoef hexec hw hwstep hwdth hnoise
  have hb : EmbeddingBounds s mag := ⟨hstep, hge, hle, hcoef⟩
  rw [exec_ready hready] at hexec
  cases hexec
  refine ⟨qextBody w, exec_ready hw,
    hb.qextBody_bits hdither (hready.2 .ditherValid (by decide)) hwstep hwdth fun k => ?_⟩
  obtain ⟨na, a, nb, b, ha, hb', hab⟩ := hnoise k
  have hembedded : s.embedded k = .fin na a := (unpack_qembBody_mask s k).symm.trans ha
  rw [hb', hembedded, hstep]
  exact ⟨⟨_, _, rfl⟩, abs_val_sub_le_of_noise hab⟩

end Sys2Proof.Machine

namespace Sys2Proof.Machine

/-! ## No effect raises an error (45_pipeline.md R201, 60_exceptions.md R240) -/

section FaultRecord
variable {s t u : State}

theorem SameFaultRecord.trans (h : SameFaultRecord s t) (h' : SameFaultRecord t u) : SameFaultRecord s u := by
  obtain ⟨hfault, herr, hinfo⟩ := h
  obtain ⟨hfault', herr', hinfo'⟩ := h'
  exact ⟨hfault'.trans hfault, herr'.trans herr, hinfo'.trans hinfo⟩

theorem SameFaultRecord.refl (s : State) : SameFaultRecord s s := ⟨rfl, rfl, rfl⟩

/-- R195, R196: the commands that EMBBLK and EXTBLK are made of. -/
def blockPrimitives : List Instr := [.bld, .bst, .bitld, .bitst, .fdct, .idct, .qemb, .qext, .next]

theorem primitive_sameFaultRecord {i : Instr} (hi : i ∈ blockPrimitives) (s : State) :
    SameFaultRecord s (effectOf i s) := by
  simp only [blockPrimitives, List.mem_cons, List.not_mem_nil, or_false] at hi
  rcases hi with rfl | rfl | rfl | rfl | rfl | rfl | rfl | rfl | rfl <;> exact ⟨rfl, rfl, rfl⟩

theorem primitives_sameFaultRecord {cmds : List Instr} (h : cmds ⊆ blockPrimitives) (s : State) :
    SameFaultRecord s (cmds.foldl (fun t i => effectOf i t) s) := by
  induction cmds generalizing s with
  | nil => exact .refl s
  | cons i rest ih =>
    obtain ⟨hi, hrest⟩ := List.cons_subset.mp h
    exact (primitive_sameFaultRecord hi s).trans (ih hrest (effectOf i s))

theorem embblkBody_sameFaultRecord (s : State) : SameFaultRecord s (embblkBody s) :=
  primitives_sameFaultRecord (cmds := [.bld, .fdct, .bitld, .qemb, .idct, .bst, .next]) (by decide) s

theorem extblkBody_sameFaultRecord (s : State) : SameFaultRecord s (extblkBody s) :=
  primitives_sameFaultRecord (cmds := [.bld, .fdct, .qext, .bitst, .next]) (by decide) s

theorem allBlocks_sameFaultRecord {body : State → State} (hbody : ∀ u, SameFaultRecord u (body u)) (s : State) :
    SameFaultRecord s (allBlocks body s) :=
  whileBlocks_induction (P := SameFaultRecord s) (fun u hu _ => hu.trans (hbody u)) s.nblk ⟨rfl, rfl, rfl⟩

/-- R201: only SRST's effect writes the fault record. -/
theorem effectOf_sameFaultRecord {i : Instr} (hi : i ≠ .srst) (s : State) : SameFaultRecord s (effectOf i s) := by
  cases i with
  | srst => exact absurd rfl hi
  | nop | check => exact .refl s
  | seek imm => exact ⟨rfl, rfl, rfl⟩
  | dgen => exact ⟨rfl, rfl, rfl⟩
  | embblk => exact embblkBody_sameFaultRecord s
  | extblk => exact extblkBody_sameFaultRecord s
  | emball => exact allBlocks_sameFaultRecord embblkBody_sameFaultRecord s
  | extall => exact allBlocks_sameFaultRecord extblkBody_sameFaultRecord s
  | _ => exact primitive_sameFaultRecord (by decide) s

end FaultRecord

/-- Settles O9: the effect of SRST clears FAULT, and that of any other command leaves it clear. -/
theorem metPreconditionsComplete : Obligations.MetPreconditionsComplete := by
  intro i s h
  refine ⟨effectOf i s, exec_ready h, ?_⟩
  by_cases hi : i = .srst
  · subst hi
    rfl
  · exact (effectOf_sameFaultRecord hi s).1.trans h.1

/-! ## An error at entry (45_pipeline.md R197, R198, 60_exceptions.md R228, R232) -/

theorem exec_of_firstError {i : Instr} {s : State} {e : CommandError} (hi : i ≠ .srst) (hf : s.fault = false)
    (he : firstError (checksOf i s) = some e) : exec i s = .next (raise e (encode i) s) := by
  rw [exec_eq_runCommand hi, runCommand_error hf he]

theorem raise_sameButFault (e : CommandError) (w : Word) (s : State) : SameButFault s (raise e w s) :=
  ⟨⟨rfl, rfl, rfl, rfl, rfl, rfl, rfl⟩, rfl, ⟨rfl, rfl⟩, ⟨rfl, rfl⟩, ⟨rfl, rfl⟩, fun _ => rfl, fun _ => rfl, rfl, rfl⟩

/-- R211, R217: the three commands that test LenOK test it second, after DimsOK. -/
theorem firstError_of_wrongLength {i : Instr} {s : State} (hi : i = .emball ∨ i = .extall ∨ i = .check)
    (hdims : s.dimsOK = true) (hlen : s.lenOK = false) : firstError (checksOf i s) = some .payloadLengthMismatch := by
  rcases hi with rfl | rfl | rfl <;> simp [checksOf, firstError, hdims, hlen]

/-- Settles O52: DimsOK holds and LenOK does not. -/
theorem wrongStreamLengthFailsAtEntry : Obligations.WrongStreamLengthFailsAtEntry := by
  intro i s hi hfault hwidth hheight hblocks hlength
  have hsrst : i ≠ .srst := by rcases hi with rfl | rfl | rfl <;> decide
  have hdims : s.dimsOK = true := (dimsOK_iff s).mpr ⟨hwidth, hheight, hblocks⟩
  have hlen : s.lenOK = false := Bool.eq_false_iff.mpr fun h => hlength ((lenOK_iff s).mp h)
  exact ⟨_, exec_of_firstError hsrst hfault (firstError_of_wrongLength hi hdims hlen), rfl, rfl, rfl,
    raise_sameButFault _ _ s⟩

/-! ## Which tests hold after a command (46_control.md R217) -/

/-- READY, with every test of the list met: `ReadyFor i` is `TestsMet (preconditions i)`. -/
def TestsMet (l : List Precondition) (s : State) : Prop := s.fault = false ∧ ∀ p ∈ l, p.holds s

/-- The tests that hold after a command whatever held before: R40, R42 and R44 on the valid flags it sets. -/
def establishes (i : Instr) : List Precondition :=
  match i with
  | .bld => [.blockValid]
  | .bitld | .qext => [.groupValid]
  | .dgen => [.ditherValid]
  | .embblk | .extblk => [.blockValid, .groupValid]
  | _ => []

/-- The tests known to hold after a command, from those known before: a command that writes the cursor may undo IdxOK
and GrpOK, and none but SRST undoes any other. -/
def testsAfter (i : Instr) (l : List Precondition) : List Precondition :=
  establishes i ++ if .bidx ∈ writtenFields i then l.filter fun p => p ≠ .idx ∧ p ≠ .grp else l

/-- Each command of the sequence finds its tests among those known to hold when its turn comes. -/
def passes (cmds : List Instr) (l : List Precondition) : Bool :=
  match cmds with
  | [] => true
  | i :: rest => decide (i ≠ .srst) && decide (preconditions i ⊆ l) && passes rest (testsAfter i l)

section Tests
variable {i : Instr} {l m : List Precondition} {s t : State}

theorem readyFor_iff_testsMet : ReadyFor i s ↔ TestsMet (preconditions i) s := Iff.rfl

theorem TestsMet.mono (h : TestsMet l s) (hsub : m ⊆ l) : TestsMet m s := ⟨h.1, fun p hp => h.2 p (hsub hp)⟩

theorem TestsMet.readyFor (h : TestsMet l s) (hsub : preconditions i ⊆ l) : ReadyFor i s :=
  readyFor_iff_testsMet.mpr (h.mono hsub)

theorem holds_of_mem_establishes {p : Precondition} (hp : p ∈ establishes i) (s : State) : p.holds (effectOf i s) := by
  cases i <;> simp only [establishes, List.mem_cons, List.not_mem_nil, or_false] at hp
  case bld => subst hp; exact bldBody_blkv_getElem s
  case bitld | qext | dgen => subst hp; rfl
  case embblk | extblk =>
    rcases hp with rfl | rfl
    · exact bldBody_blkv_getElem s
    · rfl

/-- A test that held still holds, for no command but SRST writes a register of the tests other than the cursor, nor
clears a valid flag. -/
theorem holds_effectOf {p : Precondition} (hi : i ≠ .srst) (h : p.holds s)
    (hcursor : .bidx ∈ writtenFields i → p ≠ .idx ∧ p ≠ .grp) : p.holds (effectOf i s) := by
  have keeps {f : StateField} (hf : writersOf f = []) (hb : f ≠ .bidx) : f.Same s (effectOf i s) :=
    effectOf_onlyWrites i s f fun hm => by
      have := mem_writersOf hi (fun h => absurd h hb) hm
      rw [hf] at this
      cases this
  have hwidth : (effectOf i s).width = s.width := keeps (f := .width) rfl nofun
  have hheight : (effectOf i s).height = s.height := keeps (f := .height) rfl nofun
  have hbitLen : (effectOf i s).bitLen = s.bitLen := keeps (f := .bitLen) rfl nofun
  have hstep : (effectOf i s).stepSize = s.stepSize := keeps (f := .stepSize) rfl nofun
  have hcfg : (effectOf i s).cfg = s.cfg := keeps (f := .cfg) rfl nofun
  have hvalid : KeepsValid s (effectOf i s) := keepsValid_effectOf hi s
  have hbidx (hp : p = .idx ∨ p = .grp) : (effectOf i s).bidx = s.bidx :=
    effectOf_onlyWrites i s .bidx fun hm => by
      obtain ⟨hne, hne'⟩ := hcursor hm
      exact hp.elim hne hne'
  cases p with
  | dims => rw [holds_dims_iff] at h ⊢; rwa [dimsOK_congr hwidth hheight hcfg]
  | idx => rw [holds_idx_iff] at h ⊢; rwa [idxOK_congr hwidth hheight (hbidx (.inl rfl))]
  | grp => rw [holds_grp_iff] at h ⊢; rwa [grpOK_congr hbitLen (hbidx (.inr rfl))]
  | len => rw [holds_len_iff] at h ⊢; rwa [lenOK_congr hwidth hheight hbitLen]
  | legalStep => rw [holds_legalStep_iff] at h ⊢; rwa [stepOK_congr hstep]
  | blockValid => exact fun k => hvalid.blkv k (h k)
  | groupValid => exact hvalid.gv h
  | ditherValid => exact hvalid.dv h

theorem TestsMet.effectOf (hi : i ≠ .srst) (h : TestsMet l s) : TestsMet (testsAfter i l) (effectOf i s) := by
  obtain ⟨hfault, hl⟩ := h
  refine ⟨(effectOf_sameFaultRecord hi s).1.trans hfault, fun p hp => ?_⟩
  rcases List.mem_append.mp hp with hp | hp
  · exact holds_of_mem_establishes hp s
  · split_ifs at hp with hcursor
    · obtain ⟨hpl, hne⟩ := List.mem_filter.mp hp
      exact holds_effectOf hi (hl p hpl) fun _ => of_decide_eq_true hne
    · exact holds_effectOf hi (hl p hp) fun h => absurd h hcursor

/-- A sequence that passes has the whole effect of each of its commands. -/
theorem TestsMet.execSeq {cmds : List Instr} (h : TestsMet l s) (hpass : passes cmds l = true) :
    execSeq cmds s = .next (cmds.foldl (fun t i => Machine.effectOf i t) s) := by
  induction cmds generalizing l s with
  | nil => rfl
  | cons i rest ih =>
    simp only [passes, Bool.and_eq_true, decide_eq_true_eq] at hpass
    obtain ⟨⟨hi, hsub⟩, hrest⟩ := hpass
    rw [execSeq_cons_ready (h.readyFor hsub), ih (h.effectOf hi) hrest, List.foldl_cons]

end Tests

/-! ## The block commands of the pipeline (45_pipeline.md R195, R196) -/

section BlockCommands
variable {s : State}

/-- R195: what EMBBLK hands to BST. -/
def embeddedState (s : State) : State := idctBody (qembBody (bitldBody (fdctBody (bldBody s))))

/-- R196: what EXTBLK hands to BITST. -/
def extractedState (s : State) : State := qextBody (fdctBody (bldBody s))

theorem embblkBody_eq (s : State) : embblkBody s = (bstBody (embeddedState s)).advance := rfl

theorem extblkBody_eq (s : State) : extblkBody s = (bitstBody (extractedState s)).advance := rfl

theorem embeddedState_onlyWrites (s : State) : OnlyWrites [.blk, .blkv, .bits, .gv] s (embeddedState s) :=
  (OnlyWrites.refl _ s).trans (bldBody_onlyWrites _) (by decide)
    |>.trans (fdctBody_onlyWrites _) (by decide)
    |>.trans (bitldBody_onlyWrites _) (by decide)
    |>.trans (qembBody_onlyWrites _) (by decide)
    |>.trans (idctBody_onlyWrites _) (by decide)

theorem extractedState_onlyWrites (s : State) : OnlyWrites [.blk, .blkv, .bits, .gv] s (extractedState s) :=
  (OnlyWrites.refl _ s).trans (bldBody_onlyWrites _) (by decide)
    |>.trans (fdctBody_onlyWrites _) (by decide)
    |>.trans (qextBody_onlyWrites _) (by decide)

theorem blockAddr_embeddedState (s : State) : (embeddedState s).blockAddr = s.blockAddr :=
  have hsame := embeddedState_onlyWrites s
  blockAddr_congr (hsame .width (by decide)) (hsame .bidx (by decide))

theorem groupAddr_extractedState (s : State) : (extractedState s).groupAddr = s.groupAddr :=
  groupAddr_congr (extractedState_onlyWrites s .bidx (by decide))

theorem readPlane_embblkBody_same (hd : s.dimsOK = true) (hi : s.idxOK = true) (i : Fin 64) :
    readPlane (embblkBody s) (s.blockAddr i) = toByte (unpack (embblkBody s).blk[i]) := by
  rw [← blockAddr_embeddedState s, embblkBody_eq]
  exact readPlane_bstBody_same (by simpa [embeddedState] using hd) (by simpa [embeddedState] using hi) i

theorem readPlane_embblkBody_other (s : State) (a : Nat) (h : ∀ i : Fin 64, s.blockAddr i ≠ a) :
    readPlane (embblkBody s) a = readPlane s a := by
  rw [← blockAddr_embeddedState s] at h
  rw [embblkBody_eq]
  calc readPlane (bstBody (embeddedState s)) a
      = readPlane (embeddedState s) a := readPlane_bstBody_other (embeddedState s) a h
    _ = readPlane s a := readPlane_congr (embeddedState_onlyWrites s .plane (by decide)) a

theorem embblkBody_bits_getLsbD (s : State) (k : Fin 12) :
    (embblkBody s).bits.getLsbD k = readBit s (s.groupAddr k) := loadedGroup_getLsbD (fdctBody (bldBody s)) k

theorem readBit_extblkBody_same (s : State) (k : Fin 12) :
    readBit (extblkBody s) (s.groupAddr k) = (extblkBody s).bits.getLsbD k := by
  rw [← groupAddr_extractedState s, extblkBody_eq]
  exact readBit_bitstBody_same (extractedState s) k

theorem readBit_extblkBody_other (s : State) (a : Nat) (h : ∀ k : Fin 12, s.groupAddr k ≠ a) :
    readBit (extblkBody s) a = readBit s a := by
  rw [← groupAddr_extractedState s] at h
  rw [extblkBody_eq]
  calc readBit (bitstBody (extractedState s)) a
      = readBit (extractedState s) a := readBit_bitstBody_other (extractedState s) a h
    _ = readBit s a := readBit_congr (extractedState_onlyWrites s .bitmem (by decide)) a

end BlockCommands

/-- Settles O48: every primitive finds its tests met by EMBBLK's own or by an earlier primitive. -/
theorem embblkIsItsSequence : Obligations.EmbblkIsItsSequence := by
  intro s h
  have hexec : exec .embblk s = .next (embblkBody s) := exec_ready h
  have hseq : execSeq [.bld, .fdct, .bitld, .qemb, .idct, .bst, .next] s = .next (embblkBody s) :=
    (readyFor_iff_testsMet.mp h).execSeq (by decide)
  have hidx : s.idxOK = true := h.idxOK (by decide)
  obtain ⟨hcfg, hhost, -, -, -, -, hdither, -, hbitmem⟩ := commandsWriteOnlyWhatTheyList _ _ _ (by decide) hexec
  exact ⟨hexec.trans hseq.symm, embblkBody s, hexec, embblkBody_movesOn.bidx_toNat hidx,
    fun i => ⟨bldBody_blkv_getElem s i, readPlane_embblkBody_same (h.dimsOK (by decide)) hidx i⟩,
    embblkBody_bits_getLsbD s, rfl, readPlane_embblkBody_other s, hcfg, hdither (by decide),
    effectOf_sameFaultRecord (i := .embblk) (by decide) s, hbitmem (by decide), hhost⟩

/-- Settles O49: every primitive finds its tests met by EXTBLK's own or by an earlier primitive. -/
theorem extblkIsItsSequence : Obligations.ExtblkIsItsSequence := by
  intro s h
  have hexec : exec .extblk s = .next (extblkBody s) := exec_ready h
  have hseq : execSeq [.bld, .fdct, .qext, .bitst, .next] s = .next (extblkBody s) :=
    (readyFor_iff_testsMet.mp h).execSeq (by decide)
  obtain ⟨hcfg, hhost, -, -, -, -, hdither, hplane, -⟩ := commandsWriteOnlyWhatTheyList _ _ _ (by decide) hexec
  exact ⟨hexec.trans hseq.symm, extblkBody s, hexec, extblkBody_movesOn.bidx_toNat (h.idxOK (by decide)),
    bldBody_blkv_getElem s, readBit_extblkBody_same s, rfl, readBit_extblkBody_other s, hcfg, hdither (by decide),
    effectOf_sameFaultRecord (i := .extblk) (by decide) s, hplane (by decide), hhost⟩

/-! ## The whole-plane commands (45_pipeline.md R197, R198) -/

/-- What EMBALL and EXTALL ask at entry. -/
abbrev entryTests : List Precondition := [.dims, .len, .legalStep]

/-- What holds at the start of every turn of their loops. -/
abbrev turnTests : List Precondition := [.dims, .len, .ditherValid]

/-- The state in which the first turn starts: DGEN done and the cursor at 0. -/
def loopStart (s : State) : State := (dgenBody s).setBidx 0

/-- A command the loops may run on each block: EMBBLK or EXTBLK. -/
structure BlockCommand (i : Instr) : Prop where
  ne_srst : i ≠ .srst
  preconditions_eq : preconditions i = [.dims, .idx, .grp, .ditherValid]
  establishes_eq : establishes i = [.blockValid, .groupValid]
  keepsDither : .dth ∉ writtenFields i
  movesOn : MovesOn (effectOf i)

theorem blockCommand_embblk : BlockCommand .embblk := ⟨by decide, rfl, rfl, by decide, embblkBody_movesOn⟩

theorem blockCommand_extblk : BlockCommand .extblk := ⟨by decide, rfl, rfl, by decide, extblkBody_movesOn⟩

section WholePlane
variable {i : Instr} {s t : State}

theorem SameConfiguration.trans {u : State} (h : SameConfiguration s t) (h' : SameConfiguration t u) :
    SameConfiguration s u := by
  obtain ⟨hwidth, hheight, hbitLen, hkey, hstep, hie, hcfg⟩ := h
  obtain ⟨hwidth', hheight', hbitLen', hkey', hstep', hie', hcfg'⟩ := h'
  exact ⟨hwidth'.trans hwidth, hheight'.trans hheight, hbitLen'.trans hbitLen, hkey'.trans hkey, hstep'.trans hstep,
    hie'.trans hie, hcfg'.trans hcfg⟩

theorem allBlocks_eq (body : State → State) (s : State) :
    allBlocks body s = whileBlocks body s.nblk (loopStart s) := rfl

theorem testsMet_loopStart (h : TestsMet entryTests s) : TestsMet turnTests (loopStart s) :=
  ((h.effectOf (i := .dgen) (by decide)).effectOf (i := .seek 0) (by decide)).mono (by decide)

/-- R199: LenOK and IdxOK give GrpOK, so each turn finds its command ready. -/
theorem BlockCommand.readyFor (hb : BlockCommand i) (h : TestsMet turnTests t) (hi : t.idxOK = true) : ReadyFor i t := by
  obtain ⟨hfault, htests⟩ := h
  have hlen : t.bitLen.toNat = 12 * t.nblk := htests .len (by decide)
  have hidx : t.bidx.toNat < t.nblk := (idxOK_iff t).mp hi
  refine ⟨hfault, fun p hp => ?_⟩
  simp only [hb.preconditions_eq, List.mem_cons, List.not_mem_nil, or_false] at hp
  rcases hp with rfl | rfl | rfl | rfl
  · exact htests .dims (by decide)
  · exact hidx
  · show 12 * t.bidx.toNat + 12 ≤ t.bitLen.toNat
    omega
  · exact htests .ditherValid (by decide)

theorem BlockCommand.testsMet_effectOf (hb : BlockCommand i) (h : TestsMet turnTests t) :
    TestsMet turnTests (effectOf i t) := by
  obtain ⟨hfault, htests⟩ := h
  refine ⟨(effectOf_sameFaultRecord hb.ne_srst t).1.trans hfault, fun p hp => ?_⟩
  refine holds_effectOf hb.ne_srst (htests p hp) fun _ => ?_
  constructor <;> rintro rfl <;> exact absurd hp (by decide)

/-- A sequence of as many block commands as blocks remain is the loop. -/
theorem BlockCommand.execSeq_replicate (hb : BlockCommand i) {n : Nat} (h : TestsMet turnTests t)
    (hn : t.bidx.toNat + n = t.nblk) : execSeq (List.replicate n i) t = .next (whileBlocks (effectOf i) n t) := by
  induction n generalizing t with
  | zero => rfl
  | succ n ih =>
    have hidx : t.idxOK = true := (idxOK_iff t).mpr (by omega)
    have hbidx := hb.movesOn.bidx_toNat hidx
    have hnblk := hb.movesOn.nblk t
    rw [List.replicate_succ, execSeq_cons_ready (hb.readyFor h hidx), ih (hb.testsMet_effectOf h) (by omega),
      whileBlocks, if_pos hidx]

/-- R197, R198: DGEN, SEEK 0 and the block command once per block have the effect of the whole-plane command. -/
theorem BlockCommand.execSeq_wholePlane (hb : BlockCommand i) (h : TestsMet entryTests s) :
    execSeq (.dgen :: .seek 0 :: List.replicate s.nblk i) s = .next (allBlocks (effectOf i) s) := by
  calc execSeq (.dgen :: .seek 0 :: List.replicate s.nblk i) s
      = execSeq (.seek 0 :: List.replicate s.nblk i) (dgenBody s) := execSeq_cons_ready (h.readyFor (by decide)) _
    _ = execSeq (List.replicate s.nblk i) (loopStart s) :=
        execSeq_cons_ready ((h.effectOf (i := .dgen) (by decide)).readyFor (by decide)) _
    _ = .next (allBlocks (effectOf i) s) := hb.execSeq_replicate (testsMet_loopStart h) (Nat.zero_add _)

/-- What holds at the start and is kept by the command on every block, issued ready in the configuration of the start,
holds at the end. -/
theorem BlockCommand.allBlocks_induction (hb : BlockCommand i) {P : State → Prop} (h : TestsMet entryTests s)
    (hstart : P (loopStart s))
    (hturn : ∀ t, ReadyFor i t → SameConfiguration s t → P t → P (effectOf i t)) :
    P (allBlocks (effectOf i) s) := by
  have hkeep (t : State) (ht : TestsMet turnTests t ∧ SameConfiguration s t ∧ P t) (hidx : t.idxOK = true) :
      TestsMet turnTests (effectOf i t) ∧ SameConfiguration s (effectOf i t) ∧ P (effectOf i t) := by
    obtain ⟨htests, hcfg, hP⟩ := ht
    have hready := hb.readyFor htests hidx
    exact ⟨hb.testsMet_effectOf htests, hcfg.trans (sameConfiguration_of_exec hb.ne_srst (exec_ready hready)),
      hturn t hready hcfg hP⟩
  exact (whileBlocks_induction hkeep s.nblk
    ⟨testsMet_loopStart h, ⟨rfl, rfl, rfl, rfl, rfl, rfl, rfl⟩, hstart⟩).2.2

theorem BlockCommand.bidx_allBlocks (hb : BlockCommand i) (s : State) :
    (allBlocks (effectOf i) s).bidx.toNat = s.nblk :=
  whileBlocks_bidx hb.movesOn s.nblk (s := loopStart s) (Nat.zero_le _) (Nat.le_add_left _ _)

/-- R160: the loop leaves what DGEN generated. -/
theorem BlockCommand.dither_allBlocks (hb : BlockCommand i) (s : State) :
    (allBlocks (effectOf i) s).dv = true ∧ (allBlocks (effectOf i) s).dth = ditherTable s.key s.stepSize :=
  whileBlocks_induction (P := fun t => t.dv = true ∧ t.dth = ditherTable s.key s.stepSize)
    (fun t ⟨hdv, hdth⟩ _ =>
      have hsame : (effectOf i t).dth = t.dth := effectOf_onlyWrites i t .dth hb.keepsDither
      ⟨(keepsValid_effectOf hb.ne_srst t).dv hdv, hsame.trans hdth⟩)
    s.nblk ⟨rfl, rfl⟩

theorem allBlocks_of_nblk_eq_zero (body : State → State) (h : s.nblk = 0) : allBlocks body s = loopStart s := by
  rw [allBlocks_eq, h, whileBlocks]

/-- R40, R42: after the first turn BLK and BITS are valid, and no turn clears a flag. -/
theorem BlockCommand.valid_allBlocks (hb : BlockCommand i) (h : 0 < s.nblk) :
    (allBlocks (effectOf i) s).gv = true ∧ ∀ k : Fin 64, (allBlocks (effectOf i) s).blkv[k] = true := by
  obtain ⟨n, hn⟩ : ∃ n, s.nblk = n + 1 := ⟨s.nblk - 1, by omega⟩
  have hidx : (loopStart s).idxOK = true := (idxOK_iff _).mpr h
  have hfirst : allBlocks (effectOf i) s = whileBlocks (effectOf i) n (effectOf i (loopStart s)) := by
    rw [allBlocks_eq, hn, whileBlocks, if_pos hidx]
  have hgv : (effectOf i (loopStart s)).gv = true :=
    holds_of_mem_establishes (p := .groupValid) (by simp [hb.establishes_eq]) _
  have hblkv : ∀ k : Fin 64, (effectOf i (loopStart s)).blkv[k] = true :=
    holds_of_mem_establishes (p := .blockValid) (by simp [hb.establishes_eq]) _
  rw [hfirst]
  exact whileBlocks_induction (P := fun t => t.gv = true ∧ ∀ k : Fin 64, t.blkv[k] = true)
    (fun t ⟨htgv, htblkv⟩ _ =>
      have hkeep := keepsValid_effectOf hb.ne_srst t
      ⟨hkeep.gv htgv, fun k => hkeep.blkv k (htblkv k)⟩)
    n ⟨hgv, hblkv⟩

end WholePlane

/-- R77: EMBBLK writes inside the plane. -/
theorem readPlane_embblkBody_beyond {t : State} (h : ReadyFor .embblk t) {a : Nat}
    (ha : t.width.toNat * t.height.toNat ≤ a) : readPlane (embblkBody t) a = readPlane t a := by
  obtain ⟨hwidth, hheight, -⟩ := h.2 .dims (by decide)
  have hidx : t.bidx.toNat < t.nblk := h.2 .idx (by decide)
  refine readPlane_embblkBody_other t a fun k => ?_
  exact ((planeAddr_lt hwidth hheight hidx k.isLt).trans_le ha).ne

/-- GrpOK: EXTBLK writes inside the stream. -/
theorem readBit_extblkBody_beyond {t : State} (h : ReadyFor .extblk t) {a : Nat} (ha : t.bitLen.toNat ≤ a) :
    readBit (extblkBody t) a = readBit t a := by
  have hgrp : 12 * t.bidx.toNat + 12 ≤ t.bitLen.toNat := h.2 .grp (by decide)
  refine readBit_extblkBody_other t a fun k => ?_
  have hk := k.isLt
  simp only [State.groupAddr, bitAddr]
  omega

/-- Settles O50: the loop is the sequence, and no turn writes beyond the plane. -/
theorem emballIsItsSequence : Obligations.EmballIsItsSequence := by
  intro s h
  have hb := blockCommand_embblk
  have htests : TestsMet entryTests s := readyFor_iff_testsMet.mp h
  have hexec : exec .emball s = .next (emballBody s) := exec_ready h
  obtain ⟨hcfg, hhost, -, -, -, -, -, -, hbitmem⟩ := commandsWriteOnlyWhatTheyList _ _ _ (by decide) hexec
  obtain ⟨hdv, hdth⟩ := hb.dither_allBlocks s
  refine ⟨hexec.trans (hb.execSeq_wholePlane htests).symm, emballBody s, hexec, hb.bidx_allBlocks s, hdv, hdth,
    fun a ha => ?beyond, fun h0 => ?noBlock, hb.valid_allBlocks, hcfg,
    effectOf_sameFaultRecord (i := .emball) (by decide) s, hbitmem (by decide), hhost⟩
  case beyond =>
    refine hb.allBlocks_induction (P := fun t => readPlane t a = readPlane s a) htests rfl fun t ht hsame hread => ?_
    obtain ⟨hwidth, hheight, -⟩ := hsame
    exact (readPlane_embblkBody_beyond ht (by rwa [hwidth, hheight])).trans hread
  case noBlock =>
    rw [emballBody, allBlocks_of_nblk_eq_zero _ h0]
    exact ⟨⟨rfl, rfl⟩, ⟨rfl, rfl⟩⟩

/-- Settles O51: the loop is the sequence, and no turn writes beyond the stream. -/
theorem extallIsItsSequence : Obligations.ExtallIsItsSequence := by
  intro s h
  have hb := blockCommand_extblk
  have htests : TestsMet entryTests s := readyFor_iff_testsMet.mp h
  have hexec : exec .extall s = .next (extallBody s) := exec_ready h
  obtain ⟨hcfg, hhost, -, -, -, -, -, hplane, -⟩ := commandsWriteOnlyWhatTheyList _ _ _ (by decide) hexec
  obtain ⟨hdv, hdth⟩ := hb.dither_allBlocks s
  refine ⟨hexec.trans (hb.execSeq_wholePlane htests).symm, extallBody s, hexec, hb.bidx_allBlocks s, hdv, hdth,
    fun a ha => ?beyond, fun h0 => ?noBlock, hb.valid_allBlocks, hcfg,
    effectOf_sameFaultRecord (i := .extall) (by decide) s, hplane (by decide), hhost⟩
  case beyond =>
    refine hb.allBlocks_induction (P := fun t => readBit t a = readBit s a) htests rfl fun t ht hsame hread => ?_
    obtain ⟨-, -, hbitLen, -⟩ := hsame
    exact (readBit_extblkBody_beyond ht (by rwa [hbitLen])).trans hread
  case noBlock =>
    rw [extallBody, allBlocks_of_nblk_eq_zero _ h0]
    exact ⟨⟨rfl, rfl⟩, ⟨rfl, rfl⟩⟩

end Sys2Proof.Machine

namespace Sys2Proof.Machine

/-! ## The first failed test of R217's table decides the error (60_exceptions.md R232, R238) -/

/-- What a command evaluates for a test of R217: `Precondition.holds` as a Boolean. -/
def Precondition.met (p : Precondition) (s : State) : Bool :=
  match p with
  | .dims => s.dimsOK
  | .idx => s.idxOK
  | .grp => s.grpOK
  | .len => s.lenOK
  | .legalStep => s.stepOK
  | .blockValid => s.bv
  | .groupValid => s.gv
  | .ditherValid => s.dv

theorem Precondition.met_iff (p : Precondition) (s : State) : p.met s = true ↔ p.holds s := by
  cases p with
  | dims => exact (holds_dims_iff s).symm
  | idx => exact (holds_idx_iff s).symm
  | grp => exact (holds_grp_iff s).symm
  | len => exact (holds_len_iff s).symm
  | legalStep => exact (holds_legalStep_iff s).symm
  | blockValid => exact (holds_blockValid_iff s).symm
  | groupValid | ditherValid => exact Iff.rfl

/-- One test of R217 as a command lists it, beside the error it raises. -/
def Precondition.check (s : State) (p : Precondition) : Bool × CommandError := (p.met s, p.error)

/-- Two tests with one error are one test. -/
theorem firstError_and (a b : Bool) (e : CommandError) (l : List (Bool × CommandError)) :
    firstError ((a && b, e) :: l) = firstError ((a, e) :: (b, e) :: l) := by
  cases a <;> rfl

/-- R238: behind tests that are met the first that is not decides. -/
theorem firstError_append_false {l : List (Bool × CommandError)} (h : ∀ c ∈ l, c.1 = true) (e : CommandError)
    (m : List (Bool × CommandError)) : firstError (l ++ (false, e) :: m) = some e := by
  induction l with
  | nil => rfl
  | cons c rest ih =>
    obtain ⟨hc, hrest⟩ := List.forall_mem_cons.mp h
    rw [List.cons_append, firstError, if_pos hc, ih hrest]

/-- A command reports the first failed test of its row of R217; QEMB and QEXT make their NotReady tests as one. -/
theorem firstError_checksOf (i : Instr) (s : State) :
    firstError (checksOf i s) = firstError ((preconditions i).map (Precondition.check s)) := by
  cases i with
  | qemb => exact (firstError_and _ _ _ _).trans (firstError_and _ _ _ _)
  | qext => exact firstError_and _ _ _ _
  | _ => rfl

theorem firstError_checksOf_eq_error {i : Instr} {s : State} {before after : List Precondition} {p : Precondition}
    (hsplit : preconditions i = before ++ p :: after) (hbefore : ∀ q ∈ before, q.holds s) (hp : ¬ p.holds s) :
    firstError (checksOf i s) = some p.error := by
  have hmet : ∀ c ∈ before.map (Precondition.check s), c.1 = true :=
    List.forall_mem_map.mpr fun q hq => (q.met_iff s).mpr (hbefore q hq)
  have hfail : Precondition.check s p = (false, p.error) :=
    Prod.ext (Bool.eq_false_iff.mpr fun h => hp ((p.met_iff s).mp h)) rfl
  rw [firstError_checksOf, hsplit, List.map_append, List.map_cons, hfail, firstError_append_false hmet]

/-- Settles O8: SRST makes no test, and any other command raises the error of its first failed one. -/
theorem firstFailedPreconditionIsReported : Obligations.FirstFailedPreconditionIsReported := by
  intro i s before p after hfault hsplit hbefore hp
  have hsrst : i ≠ .srst := by
    rintro rfl
    exact List.append_ne_nil_of_right_ne_nil before (List.cons_ne_nil p after) hsplit.symm
  exact ⟨_, exec_of_firstError hsrst hfault (firstError_checksOf_eq_error hsplit hbefore hp), rfl, rfl, rfl, rfl,
    raise_sameButFault _ _ s⟩

/-! ## A command succeeds exactly where its tests are met (46_control.md R211) -/

/-- In READY a command other than SRST ends in READY exactly when R217's preconditions hold. -/
theorem succeeds_iff_readyFor {i : Instr} {s : State} (hi : i ≠ .srst) (hfault : s.fault = false) :
    (∃ t, exec i s = .next t ∧ t.fault = false) ↔ ReadyFor i s := by
  constructor
  · rintro ⟨t, hexec, ht⟩
    rcases exec_next_cases hi hexec with ⟨hfaulted, -⟩ | ⟨-, e, rfl⟩ | ⟨hready, -⟩
    · rw [hfault] at hfaulted
      cases hfaulted
    · cases ht
    · exact hready
  · exact metPreconditionsComplete i s

theorem exec_check_eq_self_iff {s : State} (hfault : s.fault = false) :
    exec .check s = .next s ↔ ReadyFor .check s :=
  ⟨fun h => (succeeds_iff_readyFor (by decide) hfault).mp ⟨s, h, hfault⟩, exec_ready⟩

/-- Settles O24: CHECK, EMBALL and EXTALL have one row of tests. -/
theorem checkIsTheEntryTest : Obligations.CheckIsTheEntryTest := by
  refine ⟨fun s h => exec_ready h, fun s hfault => ?_⟩
  have hemball : ReadyFor .check s ↔ ReadyFor .emball s := Iff.rfl
  have hextall : ReadyFor .check s ↔ ReadyFor .extall s := Iff.rfl
  have hcheck := exec_check_eq_self_iff hfault
  exact ⟨(hcheck.trans hemball).trans (succeeds_iff_readyFor (by decide) hfault).symm,
    (hcheck.trans hextall).trans (succeeds_iff_readyFor (by decide) hfault).symm⟩

/-! ## NOP, SEEK and NEXT (46_control.md R210, R212, R213) -/

/-- In READY a command that makes no test has its whole effect. -/
theorem exec_of_no_preconditions {i : Instr} {s : State} (hnone : preconditions i = []) (hfault : s.fault = false) :
    exec i s = .next (effectOf i s) :=
  exec_ready ⟨hfault, by simp [hnone]⟩

theorem exec_nop (s : State) : exec .nop s = .next s := by
  cases hfault : s.fault with
  | true => exact (exec_eq_runCommand (by decide) s).trans (runCommand_faulted hfault)
  | false => exact exec_of_no_preconditions rfl hfault

/-- R103: opcode 0 is NOP's alone. -/
theorem eq_nop_of_opField_encode {i : Instr} (h : opField (encode i) = 0x00#8) : i = .nop := by
  cases i with
  | nop => rfl
  | seek imm =>
    rw [encode, opField_formatI] at h
    exact absurd h (by decide)
  | _ => exact absurd h (by decide)

/-- Settles O23: a word with opcode 0 that decodes is the word of NOP. -/
theorem nopChangesNothing : Obligations.NopChangesNothing := by
  refine ⟨by decide, exec_nop, fun w hop hw => ?_⟩
  cases hdecode : decode w with
  | error e => exact ⟨e, rfl⟩
  | ok i =>
    obtain ⟨-, rfl⟩ := encode_of_decode hdecode
    obtain rfl : i = .nop := eq_nop_of_opField_encode hop
    exact absurd (by decide) hw

/-- The two cursor commands write the cursor alone. -/
theorem setBidx_frame (s : State) (v : BitVec 32) :
    (s.setBidx v).freeCtr = s.freeCtr ∧ SameConfiguration s (s.setBidx v) ∧ SameBlock s (s.setBidx v) ∧
      SameGroup s (s.setBidx v) ∧ SameDither s (s.setBidx v) ∧ SameFaultRecord s (s.setBidx v) ∧
      SamePlane s (s.setBidx v) ∧ SameBitmem s (s.setBidx v) ∧ SameHost s (s.setBidx v) :=
  ⟨rfl, ⟨rfl, rfl, rfl, rfl, rfl, rfl, rfl⟩, ⟨rfl, rfl⟩, ⟨rfl, rfl⟩, ⟨rfl, rfl⟩, .refl s, fun _ => rfl, fun _ => rfl,
    rfl, rfl⟩

/-- Settles O25: a 24-bit operand fits the 32-bit cursor. -/
theorem seekSetsTheCursor : Obligations.SeekSetsTheCursor := by
  intro imm s himm hfault
  have hcursor : (BitVec.ofNat 32 imm).toNat = imm := by
    rw [BitVec.toNat_ofNat]
    omega
  exact ⟨_, exec_of_no_preconditions rfl hfault, hcursor, setBidx_frame s _⟩

/-- Settles O26: the addition of 32-bit words is modulo 2^32. -/
theorem nextAdvancesTheCursor : Obligations.NextAdvancesTheCursor := by
  intro s hfault
  exact ⟨_, exec_of_no_preconditions rfl hfault, BitVec.toNat_add s.bidx 1, setBidx_frame s _⟩

end Sys2Proof.Machine

namespace Sys2Proof.Machine

/-! ## The command port in its two states (60_exceptions.md R229, R232, R241) -/

section CommandPort
variable {s t : State} {w : Word}

theorem exec_faulted {i : Instr} (hi : i ≠ .srst) (hf : s.fault = true) : exec i s = .next s := by
  rw [exec_eq_runCommand hi, runCommand_faulted hf]

/-- R241 (b): in FAULTED a word is compared with SRST's and not decoded. -/
theorem issue_faulted (hf : s.fault = true) (w : Word) :
    issue w s = if w = srstWord then exec .srst s else .next s := by
  rw [issue, if_pos hf]

theorem issue_ready {i : Instr} (hf : s.fault = false) (hw : decode w = .ok i) : issue w s = exec i s := by
  simp [issue, hf, hw]

/-- R48: a write to CMD issues its word. -/
theorem step_writeCmd {rest : List HostAction} (hin : s.inputs = .writeReg .dword 0x000#10 w :: rest) :
    step s = issue w (s.setInputs rest) :=
  step_writeReg (by decide) hin

/-- In READY a command that ends in FAULTED has raised an error on its own word and done nothing else: neither SRST nor
the effect of another command sets FAULT. -/
theorem exec_eq_raise_of_faults {i : Instr} (hf : s.fault = false) (he : exec i s = .next t) (ht : t.fault = true) :
    ∃ e, t = raise e (encode i) s := by
  by_cases hi : i = .srst
  · subst hi
    cases he
    cases ht
  · rcases exec_next_cases hi he with ⟨-, rfl⟩ | ⟨-, hraise⟩ | ⟨-, rfl⟩
    · rw [hf] at ht
      cases ht
    · exact hraise
    · rw [(effectOf_sameFaultRecord hi s).1, hf] at ht
      cases ht

/-- R232: in READY a word that leads to FAULTED is the very word of the record, whether it decodes or not. -/
theorem issue_eq_raise_of_faults (hf : s.fault = false) (hw : issue w s = .next t) (ht : t.fault = true) :
    ∃ e, t = raise e w s := by
  cases hdecode : decode w with
  | error e =>
    rw [issue_of_decode_error hf hdecode] at hw
    cases hw
    exact ⟨.illegalCommand, rfl⟩
  | ok i =>
    rw [issue_ready hf hdecode] at hw
    obtain ⟨-, hword⟩ := encode_of_decode hdecode
    exact hword ▸ exec_eq_raise_of_faults hf hw ht

end CommandPort

/-! ## Everything a host action can do (00_scope.md R8, 10_state.md R49) -/

section HostActions
variable {a : HostAction} {s t : State}

/-- R49: no register write but one to CMD reaches the fault record. -/
theorem writeRegister_sameFaultRecord (r : RegName) (v : Word) (s : State) :
    SameFaultRecord s (writeRegister r v s) := by
  cases r <;> exact ⟨rfl, rfl, rfl⟩

/-- Every register and flag of the engine is the same: what R242 says of FAULTED. -/
def SameEngine (s t : State) : Prop :=
  SameConfiguration s t ∧ t.bidx = s.bidx ∧ SameBlock s t ∧ SameGroup s t ∧ SameDither s t ∧ SameFaultRecord s t

theorem SameEngine.refl (s : State) : SameEngine s s :=
  ⟨⟨rfl, rfl, rfl, rfl, rfl, rfl, rfl⟩, rfl, ⟨rfl, rfl⟩, ⟨rfl, rfl⟩, ⟨rfl, rfl⟩, .refl s⟩

/-- Everything a register write can do: it issues its word, it is ignored, or, in READY, it writes its register. -/
theorem perform_writeReg_next_cases {width : AccessWidth} {offset : BitVec 10} {v : Word}
    (h : perform (.writeReg width offset v) s = .next t) :
    (width = .dword ∧ offset = 0x000#10 ∧ issue v s = .next t) ∨ t = s ∨
      (s.fault = false ∧ t = writeRegister (registerAt offset) v s) := by
  simp only [perform] at h
  split at h
  next hok =>
    simp only [registerAccessOK, Bool.and_eq_true, decide_eq_true_eq] at hok
    obtain ⟨hwidth, haligned⟩ := hok
    by_cases hcmd : registerAt offset = .cmd
    · rw [hcmd, hostWrite_cmd] at h
      exact .inl ⟨hwidth, offset_eq_of_registerAt haligned hcmd rfl, h⟩
    · rw [hostWrite_of_ne_cmd hcmd] at h
      split at h <;> cases h
      next => exact .inr (.inl rfl)
      next hf => exact .inr (.inr ⟨by simpa using hf, rfl⟩)
  next => cases h

/-- Everything a host action can do: reset the engine, issue a word, write another register in READY, or leave the
engine as it is. -/
theorem perform_next_cases (h : perform a s = .next t) :
    (a = .resetLine ∧ t = resetEngine s) ∨ (∃ w, a = .writeReg .dword 0x000#10 w ∧ issue w s = .next t) ∨
      (s.fault = false ∧ ∃ r v, t = writeRegister r v s) ∨ SameEngine s t := by
  cases a with
  | resetLine =>
    cases h
    exact .inl ⟨rfl, rfl⟩
  | writeReg width offset v =>
    rcases perform_writeReg_next_cases h with ⟨rfl, rfl, hissue⟩ | rfl | ⟨hf, rfl⟩
    · exact .inr (.inl ⟨v, rfl, hissue⟩)
    · exact .inr (.inr (.inr (.refl _)))
    · exact .inr (.inr (.inl ⟨hf, _, v, rfl⟩))
  | readReg | writePlane | readPlane | writeBit | readBit =>
    simp only [perform] at h
    split at h <;> cases h
    exact .inr (.inr (.inr (.refl s)))

/-- R234: in READY only a write to CMD can set FAULT. -/
theorem perform_eq_issue_of_faults (hf : s.fault = false) (h : perform a s = .next t) (ht : t.fault = true) :
    ∃ w, a = .writeReg .dword 0x000#10 w ∧ issue w s = .next t := by
  rcases perform_next_cases h with ⟨-, rfl⟩ | hissue | ⟨-, r, v, rfl⟩ | ⟨-, -, -, -, -, hfault, -⟩
  · cases ht
  · exact hissue
  · rw [(writeRegister_sameFaultRecord r v s).1, hf] at ht
    cases ht
  · rw [hfault, hf] at ht
    cases ht

/-- R240, R242: in FAULTED an action resets the engine or leaves it as it is. -/
theorem perform_faulted_cases (hf : s.fault = true) (h : perform a s = .next t) :
    (a.isReset ∧ t = resetEngine s) ∨ SameEngine s t := by
  rcases perform_next_cases h with ⟨ha, rfl⟩ | ⟨w, rfl, hissue⟩ | ⟨hready, -⟩ | hsame
  · exact .inl ⟨.inl ha, rfl⟩
  · rw [issue_faulted hf] at hissue
    split at hissue <;> cases hissue
    next hw => exact .inl ⟨.inr (hw ▸ rfl), rfl⟩
    next => exact .inr (.refl s)
  · rw [hf] at hready
    cases hready
  · exact .inr hsame

end HostActions

/-! ## Errors and the FAULTED state, stated whole (60_exceptions.md) -/

/-- Settles O10: the step was a write to CMD, and its word was raised. -/
theorem errorsArePreciseAndSynchronous : Obligations.ErrorsArePreciseAndSynchronous := by
  intro s t hf hstep ht
  cases hin : s.inputs with
  | nil =>
    rw [step_of_inputs_nil hin] at hstep
    cases hstep
    rw [hf] at ht
    cases ht
  | cons a rest =>
    rw [step_of_inputs_cons hin] at hstep
    obtain ⟨w, rfl, hissue⟩ := perform_eq_issue_of_faults (s := s.setInputs rest) hf hstep ht
    obtain ⟨e, rfl⟩ := issue_eq_raise_of_faults (s := s.setInputs rest) hf hissue ht
    exact ⟨w, rest, e, rfl, rfl, rfl, rfl, raise_sameButFault e w (s.setInputs rest)⟩

/-- Settles O7: `issue` decodes the word in READY only. -/
theorem illegalWordRaisesIllegalCommand : Obligations.IllegalWordRaisesIllegalCommand := by
  intro s w rest hin
  rw [step_writeCmd hin]
  refine ⟨fun e hw hf => ?_, fun hf => ?_⟩
  · exact ⟨_, issue_of_decode_error (s := s.setInputs rest) hf hw, rfl, rfl, rfl, rfl,
      raise_sameButFault .illegalCommand w (s.setInputs rest)⟩
  · exact issue_faulted (s := s.setInputs rest) hf w

/-- Settles O11: register writes are dropped or compared with SRST's word; register reads and accesses to the memories
are the same in both states. -/
theorem faultedStateIgnoresWritesAndCommands : Obligations.FaultedStateIgnoresWritesAndCommands := by
  intro s rest hf
  refine ⟨fun offset v ha hne hin => ?writeReg, fun w hin => ?writeCmd, fun offset ha hin => ?readReg,
    fun a v hlt hin => ?writePlane, fun a v hlt hin => ?writeBit, fun a hlt hin => ?readPlane,
    fun a hlt hin => ?readBit⟩
  case writeReg =>
    have hcmd : registerAt offset ≠ .cmd := fun h => hne (offset_eq_of_registerAt ha h rfl)
    rw [step_writeReg ha hin, hostWrite_of_ne_cmd hcmd, State.setInputs_fault, if_pos hf]
  case writeCmd =>
    rw [step_writeCmd hin]
    exact issue_faulted (s := s.setInputs rest) hf w
  case readReg =>
    rw [step_readReg ha hin, hostRead, registerValue_setInputs]
    rfl
  all_goals obtain ⟨hwritePlane, hwriteBit, hreadPlane, hreadBit⟩ := hostMemoryAccessIsOneCell s rest a
  case writePlane => exact (hwritePlane v hin).1 hlt
  case writeBit => exact (hwriteBit v hin).1 hlt
  case readPlane => exact (hreadPlane hin).1 hlt
  case readBit => exact (hreadBit hin).1 hlt

/-- Settles O13: a step is one host action or none. -/
theorem onlyResetLeavesFaulted : Obligations.OnlyResetLeavesFaulted := by
  intro s t hf hstep
  cases hin : s.inputs with
  | nil =>
    rw [step_of_inputs_nil hin] at hstep
    cases hstep
    exact .inr (SameEngine.refl s)
  | cons a rest =>
    rw [step_of_inputs_cons hin] at hstep
    rcases perform_faulted_cases (s := s.setInputs rest) hf hstep with ⟨hreset, rfl⟩ | hsame
    · exact .inl ⟨rest, hreset.imp (by rintro rfl; rfl) (by rintro rfl; rfl), resetEngine_engineAtReset _⟩
    · exact .inr hsame

theorem irq_iff (s : State) : s.irq = true ↔ s.fault = true ∧ s.ie = true := by
  rw [State.irq, Bool.and_eq_true]

theorem EngineAtReset.irq {t : State} (h : EngineAtReset t) : t.irq = false := by
  obtain ⟨-, -, -, -, -, -, -, hfault, -⟩ := h
  rw [State.irq, hfault, Bool.false_and]

/-- Settles O14: the line is high in FAULTED only, where FAULT and IE stay until a reset clears both. -/
theorem interruptLineIsALevel : Obligations.InterruptLineIsALevel := by
  refine ⟨irq_iff, fun s t hirq hstep => ?_⟩
  obtain ⟨hfault, hie⟩ := (irq_iff s).mp hirq
  rcases onlyResetLeavesFaulted s t hfault hstep with
    ⟨rest, haction, hreset⟩ | ⟨⟨-, -, -, -, -, hsameIE, -⟩, -, -, -, -, hsameFault, -⟩
  · exact .inr ⟨hreset, hreset.irq, rest, haction⟩
  · exact .inl ((irq_iff t).mpr ⟨hsameFault.trans hfault, hsameIE.trans hie⟩)

/-- Settles O12. -/
theorem faultedStateDropsCommands : Obligations.FaultedStateDropsCommands := fun _ _ => exec_faulted

end Sys2Proof.Machine
